-- ==== Sys2Proof/Word.lean ====
section
/-! DEFINITION. The word types of the sequencer: every `WordN` is an N-bit unsigned value (spec/00_scope.md R9).
What the spec treats as bits is a bit vector; a 1-bit flag that lives only inside the sequencer is a `Bool`;
counts, positions and delays are natural numbers. -/

namespace Sys2Proof

/-- One byte of a host command (R90), one SDIR opcode (R98), one flash status or command byte (R102, R103). -/
abbrev Byte := BitVec 8
/-- The TAP-Mux instruction register (R96: 5 bits). -/
abbrev Word5 := BitVec 5
/-- A u16 argument, a flash bus word of the 16-bit driver (R91, R101). -/
abbrev Word16 := BitVec 16
/-- A u32 argument, a HUDI data word, a flash byte offset (R66, R91, R100). -/
abbrev Word32 := BitVec 32
/-- A DSU command word or poll capture (R104). -/
abbrev Word40 := BitVec 40

end Sys2Proof
end

