-- ==== Sys2Proof/Config.lean ====
section
/-! DEFINITION. The parameters of spec/00_scope.md R7, which are configuration and no state (R38), and the two families
of free values the model draws from. Everything the spec leaves `OPEN`, or gives as a default with an alternative,
is a field of `Params`; the machine runs under `Config.params`, an opaque constant, so every statement about the
machine holds for all values the constraints allow. Values the source gives (5-bit IR, 27 entries, 8 reads, the two
target addresses, ...) stand as literals where the rules use them. -/

namespace Sys2Proof

/-- BUS_WIDTH of R7 and R8: 16 or 32, no other value. -/
inductive BusWidth where
  | w16
  | w32
  deriving DecidableEq, Repr, Inhabited

/-- The number of bits one bus access moves (R66). -/
def BusWidth.bits : BusWidth → Nat
  | .w16 => 16
  | .w32 => 32

/-- UNLOCKED_MODE_UPDATE of R7 and R169 (conflict C11): the two readings of "toggles based on the low bit". -/
inductive ModeUpdate where
  | copyBit0
  | xorBit0
  deriving DecidableEq, Repr, Inhabited

/-- ASERAM_END_RULE of R7 and R201. -/
inductive AseramEndRule where
  | relativeToStart
  | relativeToZero
  deriving DecidableEq, Repr, Inhabited

/-- A DR shift of a parameter's own width: the (width, value) pair of R128. -/
structure Shift where
  width : Nat
  value : BitVec width
  deriving DecidableEq, Repr, Inhabited

/-- One element of RAW_SEQ (R122): the (mask, value, delay_us) triple. The spec gives the signal lines no number and no
width, so mask and value are natural numbers read bit by bit (log entry 6). -/
structure RawStep where
  mask    : Nat
  value   : Nat
  delayUs : Nat
  deriving DecidableEq, Repr, Inhabited

/-- The FL_CMD_* parameters of R102. -/
structure FlashCodes where
  clearStatus : Byte
  blockErase  : Byte
  confirm     : Byte
  lockSetup   : Byte
  unlockBlock : Byte
  program     : Byte
  readId      : Byte
  readArray   : Byte
  deriving DecidableEq, Repr, Inhabited

/-- The defaults of R102 (PRESUMED by the spec: general knowledge, decision D9). Not used by the machine; a claim
that uses them names them. -/
def FlashCodes.defaults : FlashCodes :=
  { clearStatus := 0x50, blockErase := 0x20, confirm := 0xD0, lockSetup := 0x60,
    unlockBlock := 0xD0, program := 0x40, readId := 0x90, readArray := 0xFF }

/-- The SR_* parameters of R103. -/
structure StatusMasks where
  ready        : Byte
  eraseError   : Byte
  programError : Byte
  vpenError    : Byte
  blockLocked  : Byte
  deriving DecidableEq, Repr, Inhabited

/-- The defaults of R103 (PRESUMED by the spec: general knowledge, decision D10). -/
def StatusMasks.defaults : StatusMasks :=
  { ready := 0x80, eraseError := 0x20, programError := 0x10, vpenError := 0x08, blockLocked := 0x02 }

/-- The seven single bits inside 0xFE that R103 allows for a status mask. -/
def statusBitChoices : List Byte := [0x02, 0x04, 0x08, 0x10, 0x20, 0x40, 0x80]

/-- The five masks of R103 as a list. -/
def StatusMasks.toList (m : StatusMasks) : List Byte :=
  [m.ready, m.eraseError, m.programError, m.vpenError, m.blockLocked]

/-- R103's constraint: each named mask is one bit inside 0xFE, and the five named masks are distinct. -/
def StatusMasks.valid (m : StatusMasks) : Bool :=
  m.toList.all (fun b => statusBitChoices.contains b) && decide m.toList.Nodup

/-! ### The internal-status fields (R173) -/

/-- A piece of a field: bits of one of the field's two words, masked, shifted down and shifted up. Every composition of
constant masks, shifts and joins of two words is a join of such pieces. -/
structure IsrPiece where
  /-- Read the field's second word, not its first. -/
  ofSecond : Bool
  mask     : Word32
  right    : Nat
  left     : Nat
  deriving DecidableEq, Repr, Inhabited

/-- One of the 16 fields: the at most two raw reads it is made from (the same one twice for a field of one read), and
its pieces, joined. -/
structure IsrField where
  first  : Fin 8
  second : Fin 8
  pieces : List IsrPiece
  deriving DecidableEq, Repr, Inhabited

/-- Where one of the registers CMF, PTEH, CCR, SBTYPE and FRQCR stands and the two fields it packs. Which read holds
which register is not in the source (R172, conflict C3), so the read is the layout's own. -/
structure IsrPacking where
  read   : Fin 8
  fieldA : Fin 16
  fieldB : Fin 16
  deriving DecidableEq, Repr, Inhabited

/-- The decomposition of the snapshot as the lost table would give it: the 16 fields, and the packings of CMF, PTEH,
CCR, SBTYPE and FRQCR in this order. -/
structure IsrLayout where
  fields   : Vector IsrField 16
  packings : Vector IsrPacking 5
  deriving DecidableEq, Repr, Inhabited

/-! ### The flash bus at a misaligned offset (R69) -/

/-- One access of the flash bus, `w` bits wide: a read, with what the device would answer, or a write. -/
inductive BusAccess (w : Nat) where
  | read (answer : BitVec w)
  | write (value : BitVec w)
  deriving DecidableEq, Repr, Inhabited

/-- What the platform makes of one access: it completes, a read returning `word` (a write returns nothing), or it never
completes and the sequencer, which blocks on every access (R73), waits for ever. -/
inductive BusOutcome (w : Nat) where
  | completes (word : BitVec w)
  | never
  deriving DecidableEq, Repr, Inhabited

/-! ### The parameters -/

/-- The parameters of R7. A field ending in `Given` is the platform's value before R7's constraint on it; the machine
reads it through the accessor of the same name in Machine/Operands.lean, which a value outside the constraint cannot
reach. -/
structure Params where
  /-- TMC_IDCODE_OP (R96). -/
  tmcIdcodeOp : Word5
  /-- TMC_SEL_DEVICE, used by the pseudo-instruction only (R107). -/
  tmcSelDevice : Word32
  /-- TMC_SEL_PRIVATE (R107). -/
  tmcSelPrivate : Word32
  /-- TMC_SEL_OPTION (R107). -/
  tmcSelOption : Word32
  /-- TMC_SEL_EXTRA (R107). -/
  tmcSelExtra : Word32
  /-- TMC_SELECT_PATTERN(sel, pad) (R128): its width at padding 0. -/
  tmcSelectBase : Word32 → Nat
  /-- By how many bits more than one its width grows from padding `k` to `k + 1`. -/
  tmcSelectGrowth : Word32 → Nat → Nat
  /-- Its value at the width `w` these give. -/
  tmcSelectValue : Word32 → Word16 → (w : Nat) → BitVec w
  /-- TMC_DESELECT_PATTERN(pad) (R128). -/
  tmcDeselectPattern : Word16 → Shift
  /-- BYPASS_TABLE(ch) = (tms_bypass, tdo_bypass) (R97, R121). -/
  bypassTable : Fin 4 → Bool × Bool
  /-- RAW_SEQ(tms_b, tdo_b), the settle delays SETTLE_US included (R122, D51). -/
  rawSeq : Bool → Bool → List RawStep
  /-- UNLOCKED_MODE_UPDATE (R169). -/
  unlockedModeUpdate : ModeUpdate
  /-- ISR_FIELDS (R173), as the layout of its masks and shifts. -/
  isrLayoutGiven : IsrLayout
  /-- OVL_BOOT_INIT (R7). -/
  ovlBootInitGiven : Fin 27
  /-- OVL_BOOT_RESET (R7). -/
  ovlBootResetGiven : Fin 27
  /-- SIGNAL_WORD (R207). -/
  signalWord : Word32
  /-- ASERAM_END_RULE (R201). -/
  aseramEndRule : AseramEndRule
  /-- BUS_WIDTH (R66). -/
  busWidth : BusWidth
  /-- FL_CMD_* (R102). -/
  flashCodes : FlashCodes
  /-- SR_* (R103). -/
  statusMasksGiven : StatusMasks
  /-- CFI_INTEL_ID (R258). -/
  cfiIntelId : Word16
  /-- FL_MID_OFF for each driver's bus width (R256). -/
  flMidOff : BusWidth → Word32
  /-- FL_CID_OFF for each driver's bus width (R256). -/
  flCidOff : BusWidth → Word32
  /-- CHIP_NAMES (R257). -/
  chipNamesGiven : Word16 → Option String
  /-- POLL_LIMIT: `none` is unbounded, the source's behaviour (R252). -/
  pollLimitGiven : Option Nat
  /-- DSU_IR_PATTERN(L) (R294). -/
  dsuIrPattern : (len : Nat) → BitVec len
  /-- HUDI_CHANNEL, the host's duty of R341; no rule of the sequencer reads it. -/
  hudiChannel : Fin 4
  /-- DSU_CHANNEL (R341). -/
  dsuChannel : Fin 4
  /-- BUS_MISALIGNED (R69): what the platform makes of an access at a misaligned offset, the `n`-th event of the ports,
  so that no two accesses need be treated alike. -/
  busMisaligned : (n : Nat) → (addr : Word32) → (bus : BusWidth) → BusAccess bus.bits → BusOutcome bus.bits
  deriving Inhabited

/-! ### The spec's defaults for parameters that have one

Not used by the machine; a claim that uses one names it. -/

/-- R128's default select pattern (the spec's own, D21): `pad` zero bits above the selector. -/
def defaultSelectPattern (sel : Word32) (pad : Word16) : Shift := ⟨pad.toNat + 32, sel.setWidth (pad.toNat + 32)⟩

/-- R128's default deselect pattern (D21). -/
def defaultDeselectPattern (pad : Word16) : Shift := ⟨pad.toNat + 32, 0⟩

/-- R294's default IR pattern: all ones (PRESUMED by the spec, D40). -/
def defaultDsuIrPattern (len : Nat) : BitVec len := BitVec.allOnes len

/-- R256's default manufacturer-id offset (PRESUMED by the spec, D18). -/
def defaultFlMidOff (_ : BusWidth) : Word32 := 0

/-- R256's default chip-id offset (PRESUMED by the spec, D18). -/
def defaultFlCidOff : BusWidth → Word32
  | .w16 => 2
  | .w32 => 4

namespace Config

/-- The parameters of the machine. FREE: no value of any field can be proved (log entries 4 and 5). -/
opaque params : Params

/-- What the device side answers to a read or a shift of `w` bits, the `n`-th time the sequencer asks: a *draw* (R13).
FREE, and by R13 no function of what was shifted in or written (log entry 1). -/
opaque draw : (w n : Nat) → BitVec w

/-- What a register pair holds once a teardown made it unspecified, the `n`-th time (R23, R25, R36, U9 to U11).
FREE (log entry 3). -/
opaque unspecified : (w n : Nat) → BitVec w

end Config

end Sys2Proof
end

