-- ==== Sys2Proof/Syntax.lean ====
section
/-! DEFINITION. The commands of the host command port (spec/30_encoding.md R92): one constructor per row of
opcode_table.json. HUDI_SDIR (CMD 0x10) is thirteen rows, one per opcode of R98, so it is thirteen constructors.
An argument the sequencer itself refuses (a channel above 3, an overlay id outside 1..26, R105) is part of the
command: its meaning refuses it. A list's length field is implied by the list. -/

namespace Sys2Proof

/-- An overlay segment (R32): its boot address and its code, whose length is the record's word count `size`. -/
structure Segment where
  boot : Word32
  code : List Word32
  deriving DecidableEq, Repr

/-- R32's `size : Word16`, the word count of the code; a segment is well-formed when it fits (WellFormed.lean). -/
def Segment.size (g : Segment) : Word16 := BitVec.ofNat 16 g.code.length

/-- The overlay table `S.ovl[0..26]` (R33): 27 entries, each a list of segments; the empty list is `EMPTY`. -/
abbrev OverlayTable := Vector (List Segment) 27

/-- Every entry `EMPTY` (R39). -/
def OverlayTable.empty : OverlayTable := Vector.replicate 27 []

/-- A command of the host (R92, R98). -/
inductive Instr where
  | tmcResetBypass (ch : Byte)
  | tmcReadDeviceId (sel : Word32)
  | tmcReadChipId
  | tmcSetPadding (pad : Word16)
  | tmcTeardown
  | sdirExtest
  | sdirSamplePreload
  | sdirIsrStart
  | sdirIsrEnd
  | sdirTdoTimingChange
  | sdirWaitCancel
  | sdirAseramWrite
  | sdirResetNegate
  | sdirResetAssert
  | sdirBoot
  | sdirInterrupt
  | sdirBreak
  | sdirBypass
  | hudiReadData
  | hudiWriteData (d : Word32)
  | hudiInitialState
  | hudiReadInternalStatus
  | hudiWriteAseram (boot : Word32) (words : List Word32)
  | hudiLoadOverlay (id : Byte)
  | hudiStartOverlay (id : Byte) (payload : List Word32)
  | hudiAttach
  | hudiDetach
  | hudiServiceAsemode
  | hudiWaitAsemode
  | hudiInitAsemode
  | hudiInterruptTarget
  /-- `none` is `valid = 0`, the host's report that its ELF load failed (R94). -/
  | hudiLoadTable (table : Option OverlayTable)
  | hudiTeardown
  | flashAutodetect (cfiId : Word16)
  | flashPrintInfo (base : Word32)
  | flashEraseBlock (addr : Word32)
  | flashUnlockBlock (addr : Word32)
  | flashProgram (addr data : Word32)
  | flashReadArray (base : Word32)
  | dsuPeek (reg : Word32)
  | dsuDbreak
  | dsuDpoke
  | dsuFlush
  | dsuIbreak
  | dsuTeardown
  deriving DecidableEq, Repr

/-- The mnemonic of a command's row in opcode_table.json. -/
def Instr.mnemonic : Instr → String
  | .tmcResetBypass _ => "TMC_RESET_BYPASS"
  | .tmcReadDeviceId _ => "TMC_READ_DEVICE_ID"
  | .tmcReadChipId => "TMC_READ_CHIP_ID"
  | .tmcSetPadding _ => "TMC_SET_PADDING"
  | .tmcTeardown => "TMC_TEARDOWN"
  | .sdirExtest => "SDIR_EXTEST"
  | .sdirSamplePreload => "SDIR_SAMPLE_PRELOAD"
  | .sdirIsrStart => "SDIR_ISR_START"
  | .sdirIsrEnd => "SDIR_ISR_END"
  | .sdirTdoTimingChange => "SDIR_TDO_TIMING_CHANGE"
  | .sdirWaitCancel => "SDIR_WAIT_CANCEL"
  | .sdirAseramWrite => "SDIR_ASERAM_WRITE"
  | .sdirResetNegate => "SDIR_RESET_NEGATE"
  | .sdirResetAssert => "SDIR_RESET_ASSERT"
  | .sdirBoot => "SDIR_BOOT"
  | .sdirInterrupt => "SDIR_INTERRUPT"
  | .sdirBreak => "SDIR_BREAK"
  | .sdirBypass => "SDIR_BYPASS"
  | .hudiReadData => "HUDI_READ_DATA"
  | .hudiWriteData _ => "HUDI_WRITE_DATA"
  | .hudiInitialState => "HUDI_INITIAL_STATE"
  | .hudiReadInternalStatus => "HUDI_READ_INTERNAL_STATUS"
  | .hudiWriteAseram _ _ => "HUDI_WRITE_ASERAM"
  | .hudiLoadOverlay _ => "HUDI_LOAD_OVERLAY"
  | .hudiStartOverlay _ _ => "HUDI_START_OVERLAY"
  | .hudiAttach => "HUDI_ATTACH"
  | .hudiDetach => "HUDI_DETACH"
  | .hudiServiceAsemode => "HUDI_SERVICE_ASEMODE"
  | .hudiWaitAsemode => "HUDI_WAIT_ASEMODE"
  | .hudiInitAsemode => "HUDI_INIT_ASEMODE"
  | .hudiInterruptTarget => "HUDI_INTERRUPT_TARGET"
  | .hudiLoadTable _ => "HUDI_LOAD_TABLE"
  | .hudiTeardown => "HUDI_TEARDOWN"
  | .flashAutodetect _ => "FLASH_AUTODETECT"
  | .flashPrintInfo _ => "FLASH_PRINT_INFO"
  | .flashEraseBlock _ => "FLASH_ERASE_BLOCK"
  | .flashUnlockBlock _ => "FLASH_UNLOCK_BLOCK"
  | .flashProgram _ _ => "FLASH_PROGRAM"
  | .flashReadArray _ => "FLASH_READ_ARRAY"
  | .dsuPeek _ => "DSU_PEEK"
  | .dsuDbreak => "DSU_DBREAK"
  | .dsuDpoke => "DSU_DPOKE"
  | .dsuFlush => "DSU_FLUSH"
  | .dsuIbreak => "DSU_IBREAK"
  | .dsuTeardown => "DSU_TEARDOWN"

end Sys2Proof
end

