-- ==== Sys2Proof/Machine/State.lean ====
section
/-! DEFINITION. The state of the sequencer (spec/10_state.md R20 to R39), its ports and its reset value, as plain data.

Nothing here is memory: the sequencer fetches from no memory (spec/20_memory.md R77) and the devices behind its ports,
the flash array and the target's ASE RAM among them, are not state (R38); what they answer is a draw (R13). -/

namespace Sys2Proof.Machine

/-! ### Port events (spec/00_scope.md R11, spec/20_memory.md R60) -/

/-- One port event of the trace: a primitive of R11 with its arguments and, for a read, the draw that answered it. -/
inductive Event where
  /-- Drive the TAP to Test-Logic-Reset. -/
  | tapTLR
  /-- Drive the TAP to Run-Test/Idle. -/
  | tapIdle
  /-- `TapIR(n, v) -> captured`. -/
  | tapIR (n : Nat) (v captured : BitVec n)
  /-- `TapDR(n, v) -> captured`. -/
  | tapDR (n : Nat) (v captured : BitVec n)
  /-- `RawSignal(mask, value)` with its outcome (R123: a failure is recorded here). -/
  | rawSignal (mask value : Nat) (ok : Bool)
  /-- `Delay(us)`: at least `us` microseconds (R323). -/
  | delay (us : Nat)
  /-- `MemRead(addr, n) -> v`. -/
  | memRead (addr : Word32) (n : Nat) (v : BitVec n)
  /-- `MemRead(addr, n)` at a misaligned offset that the platform never completes, so that nothing answers it (R69). -/
  | memReadOpen (addr : Word32) (n : Nat)
  /-- `MemWrite(addr, n, v)`. -/
  | memWrite (addr : Word32) (n : Nat) (v : BitVec n)
  deriving DecidableEq, Repr

/-! ### Results (spec/60_exceptions.md R310 to R313) -/

/-- The status of a result (R310). -/
inductive Status where
  | ok
  | fail
  | notImplemented
  deriving DecidableEq, Repr

/-- The failure kinds (R311). -/
inductive FailKind where
  | invalidChannel
  | badOpcode
  | badOverlayId
  | noOverlay
  | loadFailed
  | noDriver
  | badCommand
  deriving DecidableEq, Repr

/-- The flash result codes (R312). -/
inductive FlashCode where
  | ok
  | unknown
  | invalidCommandSequence
  | lowVpen
  | blockLocked
  | timeout
  deriving DecidableEq, Repr

/-- The stubs a NOT_IMPLEMENTED result names (R313). -/
inductive StubName where
  | attach
  | detach
  | serviceAsemode
  | waitAsemode
  | initAsemode
  | interruptTarget
  | dbreak
  | dpoke
  | flush
  | ibreak
  deriving DecidableEq, Repr

/-- The `code` field of a result (R310): 0, a kind of R311, a flash code of R312, or a stub's name of R313. -/
inductive Code where
  | zero
  | kind (k : FailKind)
  | flash (c : FlashCode)
  | stub (n : StubName)
  deriving DecidableEq, Repr

/-- The flash driver selected by autodetect (R34). -/
inductive Driver where
  | none
  | intel16
  | intel32
  deriving DecidableEq, Repr

/-- The `data` field of a result (R22): captured words and decoded names. -/
inductive Data where
  | none
  /-- A 32-bit identification or HUDI data word (R124, R125, R168). -/
  | word (w : Word32)
  /-- The eight raw words of the internal-status snapshot and the sixteen fields (R171). -/
  | status (raw : Vector Word32 8) (fields : Vector Nat 16)
  /-- The 40-bit words of a DSU sweep, in order (R293). -/
  | words (ws : List Word40)
  /-- Print-info: the raw words `m` and `c` (zero-extended on the 16-bit bus), the ids and the chip's name (R256). -/
  | ids (m c : Word32) (mid : Byte) (cid : Word16) (name : String)
  /-- The selected driver (R258). -/
  | driver (d : Driver)
  deriving DecidableEq, Repr

/-- `S.res` (R22, R310). -/
structure Result where
  status : Status
  code   : Code
  data   : Data
  deriving DecidableEq, Repr

/-! ### The body of a running command (R21)

A command's body is the pseudocode of its rule. What is left of it is held as a list of steps: a port primitive with the
bookkeeping its rule ties to it, or one of the calls the pseudocode makes between primitives. -/

/-- A port primitive of a command body; performing one is one step of the sequencer (R21). -/
inductive Prim where
  | tapTLR
  | tapIdle
  /-- `c <- TapIR(5, v); S.wir <- v; S.rir <- c` (R120). -/
  | tmcIR (v : Word5)
  /-- `SdirWrite(op)` (R150). -/
  | sdirWrite (op : Byte)
  /-- `c <- TapIR(L, p); S.dsuwir <- zext_40(p); S.dsurir <- zext_40(c)` (R293). -/
  | dsuIR (pattern : Shift)
  /-- `_ <- TapDR(n, v)`. -/
  | drWrite (shift : Shift)
  /-- `d <- TapDR(n, 0)`, the captured word kept for the result (R65). -/
  | drRead (n : Nat)
  /-- The shift of `WriteData(d)` and the mode update after it (R169). -/
  | dataWrite (d : Word32)
  | rawSignal (mask value : Nat)
  | delay (us : Nat)
  /-- `MemWrite(addr, W, v)`, v being the low W bits of the field. -/
  | memWrite (bus : BusWidth) (addr v : Word32)
  /-- `MemRead(addr, W)`, the word kept for the result. -/
  | memRead (bus : BusWidth) (addr : Word32)
  /-- The read of `PollReady(addr)`: performed again and again until its condition holds (R251). -/
  | pollReady (bus : BusWidth) (addr : Word32)
  /-- The wait for a bus access, already in the trace, that the platform never completes (R69). -/
  | busWait
  deriving DecidableEq, Repr

/-- One element of a command body. -/
inductive MicroOp where
  | prim (q : Prim)
  /-- `Resync()` (R167). -/
  | resync
  /-- `call LoadOverlay(id)` (R205). -/
  | loadOverlay (id : Fin 27)
  /-- `S.cur_ovl <- id` (R205). -/
  | setCurrent (id : Fin 27)
  /-- `ni <- true` (R208). -/
  | stub
  deriving DecidableEq, Repr

/-- The return at the end of a command body. -/
inductive Finish where
  /-- `return Ok(none)`. -/
  | done
  /-- `raise Fail(kind)`. -/
  | fail (k : FailKind)
  /-- `return NotImpl(name)`. -/
  | notImpl (n : StubName)
  /-- `return Ok(w)`, the 32-bit word captured. -/
  | word
  /-- `return Ok(r[0..7], ISR_FIELDS(r))` (R171). -/
  | status
  /-- `return Ok(out)` (R293). -/
  | words
  /-- `return Ok(m, c, mid, cid, ChipName(cid))` (R256). -/
  | ids
  /-- `return Ok(drv)` (R258). -/
  | driver (d : Driver)
  /-- `return Flash(ClassifyErase(sr))` (R250). -/
  | erase (bus : BusWidth)
  /-- `if Exact(sr): return Flash(OK); return Flash(UNKNOWN)` (R253, R254). -/
  | exact (bus : BusWidth)
  /-- `if ni: return NotImpl(ATTACH); return Ok(none)` (R208). -/
  | attach
  deriving DecidableEq, Repr

/-- The local values of a running command (R21, R35): what it captured, its last masked status, how often it polled,
whether a finite POLL_LIMIT cut the poll (R251), R208's `ni`, and how it will return. -/
structure Local where
  caps     : List Word40
  status   : Word32
  polls    : Nat
  timedOut : Bool
  ni       : Bool
  fin      : Finish
  deriving DecidableEq, Repr

/-- `S.seq` (R21): idle, or executing `cmd` at the primitive `next` with index `k`, then `rest`, with its local values. -/
inductive Seq where
  | idle
  | busy (cmd : Instr) (k : Nat) (next : Prim) (rest : List MicroOp) (loc : Local)
  deriving DecidableEq, Repr

/-! ### The state -/

/-- The sequencer's state (R20 to R36), the host's side of its ports (R60, R61, R340, R347), and the model's own book
of draws. -/
structure State where
  /-- `S.seq` (R21). -/
  seq : Seq
  /-- `S.res` (R22). -/
  res : Result
  /-- `S.tmc_alloc` (R23). -/
  tmcAlloc : Bool
  /-- `S.rir` (R23). -/
  rir : Word5
  /-- `S.wir` (R23). -/
  wir : Word5
  /-- `S.tmc_pad` (R24). -/
  tmcPad : Word16
  /-- `S.hudi_alloc` (R25). -/
  hudiAlloc : Bool
  /-- `S.rsdir` (R25). -/
  rsdir : Byte
  /-- `S.wsdir` (R25). -/
  wsdir : Byte
  /-- `S.locked` (R26). -/
  locked : Bool
  /-- `S.mode` (R27). -/
  mode : Bool
  /-- `S.saved_mode` (R28). -/
  savedMode : Bool
  /-- `S.cur_ovl` (R31). -/
  curOvl : Fin 27
  /-- `S.ovl[0..26]` (R33). -/
  ovl : OverlayTable
  /-- `S.driver` (R34). -/
  driver : Driver
  /-- `S.dsu_alloc` (R36). -/
  dsuAlloc : Bool
  /-- `S.dsurir` (R36). -/
  dsurir : Word40
  /-- `S.dsuwir` (R36). -/
  dsuwir : Word40
  /-- The trace (R60), oldest event first. -/
  trace : List Event
  /-- The results returned on the host command port (R60, R61, R355), oldest first. -/
  results : List Result
  /-- Commands on the host command port not yet started, oldest first: each one message (R90, R347). -/
  inbox : List (List Byte)
  /-- The host applies a sequencer reset (R340, R348); the next step takes it. -/
  resetReq : Bool
  /-- The MODEL's own: answers of the devices already lined up, oldest first; each is read modulo the width asked
  for. Empty at reset, where every answer is `Config.draw` (log entry 1). -/
  answers : List Nat
  /-- The MODEL's own: how many draws `Config.draw` has answered (log entry 1). -/
  draws : Nat
  /-- The MODEL's own: how many values `Config.unspecified` has given (log entry 3). -/
  frees : Nat
  deriving DecidableEq, Repr

/-- The state after a sequencer reset before the first command of a run (R39, R340). The six register halves are
unspecified there (U9 to U11); they hold 0 here (log entry 2). -/
def State.reset : State :=
  { seq := .idle
    res := ⟨.ok, .zero, .none⟩
    tmcAlloc := false, rir := 0, wir := 0
    tmcPad := 512
    hudiAlloc := false, rsdir := 0, wsdir := 0
    locked := false, mode := false, savedMode := false
    curOvl := 0
    ovl := OverlayTable.empty
    driver := .none
    dsuAlloc := false, dsurir := 0, dsuwir := 0
    trace := [], results := [], inbox := [], resetReq := false
    answers := [], draws := 0, frees := 0 }

/-- The faults of the machine: none. The sequencer has no traps (R315), every failure is a result of a command, and a
device that never answers leaves the sequencer BUSY (R348), which is an endless run and no stop. Nothing raises one;
safe, because no step is cut short. -/
inductive Fault where
  deriving DecidableEq, Repr

/-- The refusals of the machine. No command of the opcode table is refused: each has its meaning. -/
inductive Refusal where
  /-- Raised by `exec` for a command that has no meaning in this model; no arm of `exec` answers it. Safe: nothing can
  be proved about a command that is refused. -/
  | notModelled (mnemonic : String)
  deriving DecidableEq, Repr

end Sys2Proof.Machine
end

