-- ==== Sys2Proof/Machine/Flags.lean ====
section
/-! DEFINITION. The flag computations: the HUDI mode table (spec/41_hudi.md R151, R169) and the tests on a flash status
word (spec/43_flash.md R240 to R247). The sequencer has no condition codes (R37). A flash status word is held in 32
bits; the 16-bit driver's is its low half, the high half zero. -/

namespace Sys2Proof.Machine

/-! ### The HUDI mode flags -/

/-- `ModeUpdateIR(op)` (R151). -/
def modeUpdateIR (op : Byte) (s : State) : State :=
  if op = 0x20 then { s with savedMode := s.mode, locked := true, mode := true }
  else if op = 0x21 then { s with locked := false, mode := s.savedMode }
  else if s.locked then s
  else { s with mode := true }

/-- The mode an unlocked data write of `d` leaves, under UNLOCKED_MODE_UPDATE (R169). -/
def unlockedMode (rule : ModeUpdate) (mode : Bool) (d : Word32) : Bool :=
  match rule with
  | .copyBit0 => d.getLsbD 0
  | .xorBit0 => mode ^^ d.getLsbD 0

/-- The mode update after the shift of `WriteData(d)` (R169): nothing when locked. -/
def modeUpdateData (rule : ModeUpdate) (d : Word32) (s : State) : State :=
  if s.locked then s else { s with mode := unlockedMode rule s.mode d }

/-! ### The flash status word -/

/-- `dbl(c)` (R243): the same 16-bit word in both halves of a 32-bit transfer. -/
def dbl (c : Word16) : Word32 := (c.setWidth 32 <<< 16) ||| c.setWidth 32

/-- A byte as one driver's bus word: `Cmd(c)` of a command code and `D(m)` of a status pattern (R240). -/
def busPattern (bus : BusWidth) (m : Byte) : Word32 :=
  match bus with
  | .w16 => m.setWidth 32
  | .w32 => dbl (m.setWidth 16)

/-- MASK, the status read mask (R240). -/
def statusMask : BusWidth → Word32
  | .w16 => 0x00FE
  | .w32 => 0x00FE00FE

/-- A status read: the value read, masked (R244). -/
def maskedStatus (bus : BusWidth) (raw : BitVec bus.bits) : Word32 := raw.setWidth 32 &&& statusMask bus

/-- RDY, the ready pattern (R240). -/
def readyPattern (m : StatusMasks) (bus : BusWidth) : Word32 := busPattern bus m.ready

/-- `Ready(sr)` (R245). -/
def ready (m : StatusMasks) (bus : BusWidth) (sr : Word32) : Bool :=
  sr &&& readyPattern m bus == readyPattern m bus

/-- `Exact(sr)` (R246), on the masked status. -/
def exact (m : StatusMasks) (bus : BusWidth) (sr : Word32) : Bool := sr == readyPattern m bus

/-- `ClassifyErase(sr)` (R247), on a masked status that is ready. -/
def classifyErase (m : StatusMasks) (bus : BusWidth) (sr : Word32) : FlashCode :=
  let e := sr &&& ~~~ readyPattern m bus
  if e = 0 then .ok
  else if e = busPattern bus (m.eraseError ||| m.programError) then .invalidCommandSequence
  else if e = busPattern bus (m.eraseError ||| m.vpenError) then .lowVpen
  else if e = busPattern bus (m.eraseError ||| m.blockLocked) then .blockLocked
  else .unknown

/-- The flash code of an unlock or a program (R253, R254). -/
def classifyExact (m : StatusMasks) (bus : BusWidth) (sr : Word32) : FlashCode :=
  if exact m bus sr then .ok else .unknown

end Sys2Proof.Machine
end

