-- ==== Sys2Proof/WellFormed.lean ====
section
/-! DEFINITION. When a term of `Instr` is a command the wire can carry: every list fits the length field that spells
it (spec/30_encoding.md R91, R93, R94). All other fields have their width in their type. -/

namespace Sys2Proof

/-- A u16 length field can spell the length of the list (R92: `size:u16`, `n:u16`). -/
def fitsU16 (words : List Word32) : Bool := decide (words.length < 65536)

/-- A segment of R94: its word count fits `size:u16` (R32). -/
def Segment.wellFormed (g : Segment) : Bool := fitsU16 g.code

/-- A table entry of R94: the number of segments fits `nseg:u8`, and each segment is well-formed. -/
def entryWellFormed (segs : List Segment) : Bool :=
  decide (segs.length < 256) && segs.all Segment.wellFormed

/-- A table of R94: its 27 entries are well-formed. -/
def OverlayTable.wellFormed (t : OverlayTable) : Bool := t.toList.all entryWellFormed

/-- A command the byte format of R90 to R94 can spell. -/
def Instr.wellFormed : Instr → Bool
  | .hudiWriteAseram _ words => fitsU16 words
  | .hudiStartOverlay _ payload => fitsU16 payload
  | .hudiLoadTable (some t) => t.wellFormed
  | _ => true

end Sys2Proof
end

