-- ==== Sys2Proof/Decode.lean ====
section
/-! DEFINITION. The byte format of the host command port (spec/30_encoding.md R90 to R95), read and written.
`decode` is total: it gives the command and the bytes after it, or the reason of R165 or R318. The encoder below it is
written from the same tables (R92, R94, R98). -/

namespace Sys2Proof

/-- Why a byte string is no command: R318's BAD_COMMAND (reserved id, truncated, bad `valid`) or R165's BAD_OPCODE. -/
inductive DecodeError where
  | badCommand
  | badOpcode
  deriving DecidableEq, Repr

/-! ### Reading fields (R91: fixed width, least significant byte first, unsigned) -/

/-- A u8 field. -/
def takeU8 : List Byte → Option (Byte × List Byte)
  | b0 :: rest => some (b0, rest)
  | [] => none

/-- A u16 field. -/
def takeU16 : List Byte → Option (Word16 × List Byte)
  | b0 :: b1 :: rest => some (b1 ++ b0, rest)
  | _ => none

/-- A u32 field. -/
def takeU32 : List Byte → Option (Word32 × List Byte)
  | b0 :: b1 :: b2 :: b3 :: rest => some (b3 ++ b2 ++ b1 ++ b0, rest)
  | _ => none

/-- A list field `n x u32`. -/
def takeU32s : Nat → List Byte → Option (List Word32 × List Byte)
  | 0, bs => some ([], bs)
  | n + 1, bs =>
    match takeU32 bs with
    | none => none
    | some (v, bs) =>
      match takeU32s n bs with
      | none => none
      | some (vs, bs) => some (v :: vs, bs)

/-- A u16 count and then that many u32 values: `size:u16, words: size x u32` of R92. -/
def takeCountedU32s (bs : List Byte) : Option (List Word32 × List Byte) :=
  match takeU16 bs with
  | none => none
  | some (n, bs) => takeU32s n.toNat bs

/-- A segment of R94: `boot:u32, size:u16, code: size x u32`. -/
def takeSegment (bs : List Byte) : Option (Segment × List Byte) :=
  match takeU32 bs with
  | none => none
  | some (boot, bs) =>
    match takeCountedU32s bs with
    | none => none
    | some (code, bs) => some (⟨boot, code⟩, bs)

/-- `n` segments, one after another. -/
def takeSegments : Nat → List Byte → Option (List Segment × List Byte)
  | 0, bs => some ([], bs)
  | n + 1, bs =>
    match takeSegment bs with
    | none => none
    | some (g, bs) =>
      match takeSegments n bs with
      | none => none
      | some (gs, bs) => some (g :: gs, bs)

/-- A table entry of R94: `nseg:u8` and then nseg segments. -/
def takeEntry (bs : List Byte) : Option (List Segment × List Byte) :=
  match takeU8 bs with
  | none => none
  | some (nseg, bs) => takeSegments nseg.toNat bs

/-- `n` table entries in id order. -/
def takeEntries : Nat → List Byte → Option (List (List Segment) × List Byte)
  | 0, bs => some ([], bs)
  | n + 1, bs =>
    match takeEntry bs with
    | none => none
    | some (e, bs) =>
      match takeEntries n bs with
      | none => none
      | some (es, bs) => some (e :: es, bs)

/-- The entries of a table as the 27-entry table of R33. -/
def tableOfEntries (entries : List (List Segment)) : OverlayTable :=
  Vector.ofFn fun id => entries.getD id.val []

/-- HUDI_LOAD_TABLE's argument (R94); a `valid` byte other than 0 or 1 is BAD_COMMAND. -/
def takeTable (bs : List Byte) : Option (Option OverlayTable × List Byte) :=
  match takeU8 bs with
  | none => none
  | some (valid, bs) =>
    match valid.toNat with
    | 0 => some (none, bs)
    | 1 =>
      match takeEntries 27 bs with
      | none => none
      | some (entries, bs) => some (some (tableOfEntries entries), bs)
    | _ => none

/-! ### Decoding -/

/-- The command of HUDI_SDIR with opcode `op` (R98); any other opcode is refused (R165). -/
def sdirOfOpcode (op : Byte) : Except DecodeError Instr :=
  match op.toNat with
  | 0x00 => .ok .sdirExtest
  | 0x04 => .ok .sdirSamplePreload
  | 0x20 => .ok .sdirIsrStart
  | 0x21 => .ok .sdirIsrEnd
  | 0x22 => .ok .sdirTdoTimingChange
  | 0x23 => .ok .sdirWaitCancel
  | 0x50 => .ok .sdirAseramWrite
  | 0x60 => .ok .sdirResetNegate
  | 0x70 => .ok .sdirResetAssert
  | 0x80 => .ok .sdirBoot
  | 0xA0 => .ok .sdirInterrupt
  | 0xC0 => .ok .sdirBreak
  | 0xFF => .ok .sdirBypass
  | _ => .error .badOpcode

/-- The command `mk v` when the field reader gives `v`, and BAD_COMMAND when the bytes are too few (R93). -/
def withField {α : Type} (field : Option (α × List Byte)) (mk : α → Instr) : Except DecodeError (Instr × List Byte) :=
  match field with
  | some (v, bs) => .ok (mk v, bs)
  | none => .error .badCommand

/-- HUDI_SDIR's argument (R92, R98). -/
def decodeSdir (bs : List Byte) : Except DecodeError (Instr × List Byte) :=
  match takeU8 bs with
  | none => .error .badCommand
  | some (op, bs) =>
    match sdirOfOpcode op with
    | .ok i => .ok (i, bs)
    | .error e => .error e

/-- HUDI_START_OVERLAY's arguments `id:u8, n:u16, payload: n x u32` (R92). -/
def takeStart (bs : List Byte) : Option ((Byte × List Word32) × List Byte) :=
  match takeU8 bs with
  | none => none
  | some (id, bs) =>
    match takeCountedU32s bs with
    | none => none
    | some (payload, bs) => some ((id, payload), bs)

/-- FLASH_PROGRAM's arguments `addr:u32, data:u32` (R92). -/
def takeTwoU32 (bs : List Byte) : Option ((Word32 × Word32) × List Byte) :=
  match takeU32 bs with
  | none => none
  | some (addr, bs) =>
    match takeU32 bs with
    | none => none
    | some (data, bs) => some ((addr, data), bs)

/-- The command of id `cmd` with its arguments read from `bs` (R92); every other id is reserved (R95). -/
def decodeArgs (cmd : Byte) (bs : List Byte) : Except DecodeError (Instr × List Byte) :=
  match cmd.toNat with
  | 0x01 => withField (takeU8 bs) .tmcResetBypass
  | 0x02 => withField (takeU32 bs) .tmcReadDeviceId
  | 0x03 => .ok (.tmcReadChipId, bs)
  | 0x04 => withField (takeU16 bs) .tmcSetPadding
  | 0x0F => .ok (.tmcTeardown, bs)
  | 0x10 => decodeSdir bs
  | 0x11 => .ok (.hudiReadData, bs)
  | 0x12 => withField (takeU32 bs) .hudiWriteData
  | 0x13 => .ok (.hudiInitialState, bs)
  | 0x14 => .ok (.hudiReadInternalStatus, bs)
  | 0x15 => withField (takeSegment bs) (fun g => .hudiWriteAseram g.boot g.code)
  | 0x16 => withField (takeU8 bs) .hudiLoadOverlay
  | 0x17 => withField (takeStart bs) (fun a => .hudiStartOverlay a.1 a.2)
  | 0x18 => .ok (.hudiAttach, bs)
  | 0x19 => .ok (.hudiDetach, bs)
  | 0x1A => .ok (.hudiServiceAsemode, bs)
  | 0x1B => .ok (.hudiWaitAsemode, bs)
  | 0x1C => .ok (.hudiInitAsemode, bs)
  | 0x1D => .ok (.hudiInterruptTarget, bs)
  | 0x1E => withField (takeTable bs) .hudiLoadTable
  | 0x1F => .ok (.hudiTeardown, bs)
  | 0x20 => withField (takeU16 bs) .flashAutodetect
  | 0x21 => withField (takeU32 bs) .flashPrintInfo
  | 0x22 => withField (takeU32 bs) .flashEraseBlock
  | 0x23 => withField (takeU32 bs) .flashUnlockBlock
  | 0x24 => withField (takeTwoU32 bs) (fun a => .flashProgram a.1 a.2)
  | 0x25 => withField (takeU32 bs) .flashReadArray
  | 0x30 => withField (takeU32 bs) .dsuPeek
  | 0x31 => .ok (.dsuDbreak, bs)
  | 0x32 => .ok (.dsuDpoke, bs)
  | 0x33 => .ok (.dsuFlush, bs)
  | 0x34 => .ok (.dsuIbreak, bs)
  | 0x3F => .ok (.dsuTeardown, bs)
  | _ => .error .badCommand

/-- The command at the front of a byte string, and the bytes after it (R90, R93). -/
def decode (bytes : List Byte) : Except DecodeError (Instr × List Byte) :=
  match takeU8 bytes with
  | none => .error .badCommand
  | some (cmd, bs) => decodeArgs cmd bs

/-! ### Encoding -/

/-- A u16 field's bytes, least significant first (R91). -/
def bytesOfU16 (v : Word16) : List Byte := [v.extractLsb' 0 8, v.extractLsb' 8 8]

/-- A u32 field's bytes, least significant first (R91). -/
def bytesOfU32 (v : Word32) : List Byte :=
  [v.extractLsb' 0 8, v.extractLsb' 8 8, v.extractLsb' 16 8, v.extractLsb' 24 8]

/-- A u16 count and the counted u32 values (R92). -/
def bytesOfCounted (words : List Word32) : List Byte :=
  bytesOfU16 (BitVec.ofNat 16 words.length) ++ words.flatMap bytesOfU32

/-- A segment's bytes (R94). -/
def bytesOfSegment (g : Segment) : List Byte := bytesOfU32 g.boot ++ bytesOfCounted g.code

/-- A table entry's bytes (R94). -/
def bytesOfEntry (segs : List Segment) : List Byte :=
  BitVec.ofNat 8 segs.length :: segs.flatMap bytesOfSegment

/-- HUDI_LOAD_TABLE's argument bytes (R94). -/
def bytesOfTable : Option OverlayTable → List Byte
  | none => [0]
  | some t => 1 :: t.toList.flatMap bytesOfEntry

/-- The SDIR opcode of a HUDI_SDIR command (R98), `none` for every other command. -/
def Instr.sdirOpcode? : Instr → Option Byte
  | .sdirExtest => some 0x00
  | .sdirSamplePreload => some 0x04
  | .sdirIsrStart => some 0x20
  | .sdirIsrEnd => some 0x21
  | .sdirTdoTimingChange => some 0x22
  | .sdirWaitCancel => some 0x23
  | .sdirAseramWrite => some 0x50
  | .sdirResetNegate => some 0x60
  | .sdirResetAssert => some 0x70
  | .sdirBoot => some 0x80
  | .sdirInterrupt => some 0xA0
  | .sdirBreak => some 0xC0
  | .sdirBypass => some 0xFF
  | _ => none

/-- The bytes of a command (R90, R92): its id, then its argument fields in the order of its row. -/
def encode : Instr → List Byte
  | .tmcResetBypass ch => [0x01, ch]
  | .tmcReadDeviceId sel => 0x02 :: bytesOfU32 sel
  | .tmcReadChipId => [0x03]
  | .tmcSetPadding pad => 0x04 :: bytesOfU16 pad
  | .tmcTeardown => [0x0F]
  | .sdirExtest => [0x10, 0x00]
  | .sdirSamplePreload => [0x10, 0x04]
  | .sdirIsrStart => [0x10, 0x20]
  | .sdirIsrEnd => [0x10, 0x21]
  | .sdirTdoTimingChange => [0x10, 0x22]
  | .sdirWaitCancel => [0x10, 0x23]
  | .sdirAseramWrite => [0x10, 0x50]
  | .sdirResetNegate => [0x10, 0x60]
  | .sdirResetAssert => [0x10, 0x70]
  | .sdirBoot => [0x10, 0x80]
  | .sdirInterrupt => [0x10, 0xA0]
  | .sdirBreak => [0x10, 0xC0]
  | .sdirBypass => [0x10, 0xFF]
  | .hudiReadData => [0x11]
  | .hudiWriteData d => 0x12 :: bytesOfU32 d
  | .hudiInitialState => [0x13]
  | .hudiReadInternalStatus => [0x14]
  | .hudiWriteAseram boot words => 0x15 :: bytesOfSegment ⟨boot, words⟩
  | .hudiLoadOverlay id => [0x16, id]
  | .hudiStartOverlay id payload => 0x17 :: id :: bytesOfCounted payload
  | .hudiAttach => [0x18]
  | .hudiDetach => [0x19]
  | .hudiServiceAsemode => [0x1A]
  | .hudiWaitAsemode => [0x1B]
  | .hudiInitAsemode => [0x1C]
  | .hudiInterruptTarget => [0x1D]
  | .hudiLoadTable table => 0x1E :: bytesOfTable table
  | .hudiTeardown => [0x1F]
  | .flashAutodetect cfiId => 0x20 :: bytesOfU16 cfiId
  | .flashPrintInfo base => 0x21 :: bytesOfU32 base
  | .flashEraseBlock addr => 0x22 :: bytesOfU32 addr
  | .flashUnlockBlock addr => 0x23 :: bytesOfU32 addr
  | .flashProgram addr data => 0x24 :: (bytesOfU32 addr ++ bytesOfU32 data)
  | .flashReadArray base => 0x25 :: bytesOfU32 base
  | .dsuPeek reg => 0x30 :: bytesOfU32 reg
  | .dsuDbreak => [0x31]
  | .dsuDpoke => [0x32]
  | .dsuFlush => [0x33]
  | .dsuIbreak => [0x34]
  | .dsuTeardown => [0x3F]

/-- R93 and R94: the decoded length of a command in bytes. -/
def Instr.byteLength : Instr → Nat
  | .hudiWriteAseram _ words => 1 + 4 + 2 + 4 * words.length
  | .hudiStartOverlay _ payload => 1 + 1 + 2 + 4 * payload.length
  | .hudiLoadTable none => 1 + 1
  | .hudiLoadTable (some t) =>
    1 + 1 + (t.toList.map fun segs => 1 + (segs.map fun g => 4 + 2 + 4 * g.code.length).sum).sum
  | .tmcResetBypass _ | .hudiLoadOverlay _ => 1 + 1
  | .tmcSetPadding _ | .flashAutodetect _ => 1 + 2
  | .tmcReadDeviceId _ | .hudiWriteData _ | .flashPrintInfo _ | .flashEraseBlock _ | .flashUnlockBlock _
  | .flashReadArray _ | .dsuPeek _ => 1 + 4
  | .flashProgram _ _ => 1 + 4 + 4
  | .sdirExtest | .sdirSamplePreload | .sdirIsrStart | .sdirIsrEnd | .sdirTdoTimingChange | .sdirWaitCancel
  | .sdirAseramWrite | .sdirResetNegate | .sdirResetAssert | .sdirBoot | .sdirInterrupt | .sdirBreak
  | .sdirBypass => 1 + 1
  | .tmcReadChipId | .tmcTeardown | .hudiReadData | .hudiInitialState | .hudiReadInternalStatus | .hudiAttach
  | .hudiDetach | .hudiServiceAsemode | .hudiWaitAsemode | .hudiInitAsemode | .hudiInterruptTarget | .hudiTeardown
  | .dsuDbreak | .dsuDpoke | .dsuFlush | .dsuIbreak | .dsuTeardown => 1

/-! ### The opcode table's words (R109) -/

/-- The `n` lowest bytes of `w`, the least significant first. -/
def bytesOfNat : (n w : Nat) → List Byte
  | 0, _ => []
  | n + 1, w => BitVec.ofNat 8 w :: bytesOfNat n (w / 256)

/-- An opcode-table word as the byte string the port receives: R109's key numbers byte 0 lowest, and the bytes above
`nbits` are zero up to the longest command whose counts are zero (HUDI_LOAD_TABLE, 29 bytes). -/
def tableBytes (nbits w : Nat) : List Byte :=
  bytesOfNat ((nbits + 7) / 8) w ++ List.replicate 32 0

/-- The command the decoder reads from an opcode-table word. -/
def decodeTableWord (nbits w : Nat) : Option Instr :=
  match decode (tableBytes nbits w) with
  | .ok (i, _) => some i
  | .error _ => none

/-- R109's key of a byte string: `byte0 | (byte1 << 8)`, a byte it lacks counting as 0. -/
def keyOfBytes (bytes : List Byte) : Word16 := bytes.getD 1 0 ++ bytes.getD 0 0

/-- The `mask` of a command's row (R109): 0xFFFF for HUDI_SDIR, whose rows fix the opcode too, else 0x00FF. -/
def Instr.rowMask (i : Instr) : Word16 := if i.sdirOpcode?.isSome then 0xFFFF else 0x00FF

/-- The `match` of each row of opcode_table.json, by its mnemonic's constructor. -/
def Instr.rowMatch : Instr → Word16
  | .tmcResetBypass _ => 0x0001
  | .tmcReadDeviceId _ => 0x0002
  | .tmcReadChipId => 0x0003
  | .tmcSetPadding _ => 0x0004
  | .tmcTeardown => 0x000F
  | .sdirExtest => 0x0010
  | .sdirSamplePreload => 0x0410
  | .sdirIsrStart => 0x2010
  | .sdirIsrEnd => 0x2110
  | .sdirTdoTimingChange => 0x2210
  | .sdirWaitCancel => 0x2310
  | .sdirAseramWrite => 0x5010
  | .sdirResetNegate => 0x6010
  | .sdirResetAssert => 0x7010
  | .sdirBoot => 0x8010
  | .sdirInterrupt => 0xA010
  | .sdirBreak => 0xC010
  | .sdirBypass => 0xFF10
  | .hudiReadData => 0x0011
  | .hudiWriteData _ => 0x0012
  | .hudiInitialState => 0x0013
  | .hudiReadInternalStatus => 0x0014
  | .hudiWriteAseram _ _ => 0x0015
  | .hudiLoadOverlay _ => 0x0016
  | .hudiStartOverlay _ _ => 0x0017
  | .hudiAttach => 0x0018
  | .hudiDetach => 0x0019
  | .hudiServiceAsemode => 0x001A
  | .hudiWaitAsemode => 0x001B
  | .hudiInitAsemode => 0x001C
  | .hudiInterruptTarget => 0x001D
  | .hudiLoadTable _ => 0x001E
  | .hudiTeardown => 0x001F
  | .flashAutodetect _ => 0x0020
  | .flashPrintInfo _ => 0x0021
  | .flashEraseBlock _ => 0x0022
  | .flashUnlockBlock _ => 0x0023
  | .flashProgram _ _ => 0x0024
  | .flashReadArray _ => 0x0025
  | .dsuPeek _ => 0x0030
  | .dsuDbreak => 0x0031
  | .dsuDpoke => 0x0032
  | .dsuFlush => 0x0033
  | .dsuIbreak => 0x0034
  | .dsuTeardown => 0x003F

end Sys2Proof
end

