-- ==== Sys2Proof/Machine/Operands.lean ====
section
/-! DEFINITION. What the commands compute from their operands before any event: the argument checks of
spec/30_encoding.md R105, the parameters under their constraints, the numbers of result codes, the ASE-RAM offsets and
descriptor (spec/42_hudi_overlay.md R200, R201), the DSU command word and its reversal (spec/44_dsu.md R290, R291), the
chip name (R257), and the host-side spellings of R106 to R108 and R172. -/

namespace Sys2Proof

/-! ### Parameters under their constraints -/

/-- R7: OVL_BOOT_INIT and OVL_BOOT_RESET are distinct and each in 1..26. -/
def Params.overlaysValid (p : Params) : Bool :=
  decide (p.ovlBootInitGiven ≠ 0 ∧ p.ovlBootResetGiven ≠ 0 ∧ p.ovlBootInitGiven ≠ p.ovlBootResetGiven)

/-- OVL_BOOT_INIT under R7's constraint; the branch `1` only keeps values the constraint forbids out (log entry 5). -/
def Params.ovlBootInit (p : Params) : Fin 27 :=
  if p.overlaysValid then p.ovlBootInitGiven else 1

/-- OVL_BOOT_RESET under R7's constraint; the branch `2` only keeps values the constraint forbids out (log entry 5). -/
def Params.ovlBootReset (p : Params) : Fin 27 :=
  if p.overlaysValid then p.ovlBootResetGiven else 2

/-- SR_* under R103's constraint; the default stands in for values the constraint forbids (log entry 5). -/
def Params.statusMasks (p : Params) : StatusMasks :=
  if p.statusMasksGiven.valid then p.statusMasksGiven else StatusMasks.defaults

/-- CHIP_NAMES under R257's constraint: it maps 0x0016 to "28F320J3A" and has no entry for 0x9999. -/
def Params.chipNames (p : Params) (cid : Word16) : Option String :=
  if cid = 0x0016 then some "28F320J3A" else if cid = 0x9999 then none else p.chipNamesGiven cid

/-- POLL_LIMIT under 93_implementation_defined.md's constraint: unbounded, or a positive integer. -/
def Params.pollLimit (p : Params) : Option Nat :=
  match p.pollLimitGiven with
  | some (n + 1) => some (n + 1)
  | _ => none

/-- The sum of `f` below `n`. -/
def sumBelow (f : Nat → Nat) : Nat → Nat
  | 0 => 0
  | n + 1 => sumBelow f n + f n

/-- The width of the select pattern (R128): it grows with the padding by at least one bit a step, and so takes every
strictly growing function as the parameters vary. -/
def Params.tmcSelectWidth (p : Params) (sel : Word32) (pad : Word16) : Nat :=
  p.tmcSelectBase sel + pad.toNat + sumBelow (p.tmcSelectGrowth sel) pad.toNat

/-- TMC_SELECT_PATTERN(sel, pad) (R128). -/
def Params.tmcSelectPattern (p : Params) (sel : Word32) (pad : Word16) : Shift :=
  ⟨p.tmcSelectWidth sel pad, p.tmcSelectValue sel pad (p.tmcSelectWidth sel pad)⟩

/-! ### ISR_FIELDS (R173) -/

/-- The bits of its word that reach the field through a piece. -/
def IsrPiece.bits (c : IsrPiece) : Word32 := (c.mask >>> c.right) <<< c.right

/-- A piece's share of the field, of its word `w`. -/
def IsrPiece.value (c : IsrPiece) (w : Word32) : Nat := ((w &&& c.mask).toNat >>> c.right) <<< c.left

/-- The raw read a piece of the field looks at. -/
def IsrField.source (f : IsrField) (c : IsrPiece) : Fin 8 := if c.ofSecond then f.second else f.first

/-- A field's value: its pieces joined. No field has a width in the spec, so it is a number. -/
def IsrField.value (f : IsrField) (raw : Vector Word32 8) : Nat :=
  f.pieces.foldl (fun acc c => acc ||| c.value raw[f.source c]) 0

/-- The bits of the raw read `k` that a field is made from. -/
def IsrField.bitsOf (f : IsrField) (k : Fin 8) : Word32 :=
  f.pieces.foldl (fun acc c => if f.source c = k then acc ||| c.bits else acc) 0

/-- A packing of R173: its two fields split the read, each having bits of it that the other has not. -/
def IsrLayout.splits (l : IsrLayout) (g : IsrPacking) : Bool :=
  let a := l.fields[g.fieldA].bitsOf g.read
  let b := l.fields[g.fieldB].bitsOf g.read
  a != 0 && b != 0 && a &&& b == 0

/-- R173's constraint beyond the form of a layout: each of the five packings splits its read, and the ten fields they
name are distinct. -/
def IsrLayout.valid (l : IsrLayout) : Bool :=
  l.packings.toList.all l.splits
    && decide (l.packings.toList.flatMap fun g => [g.fieldA, g.fieldB]).Nodup

/-- A layout that meets the constraint: each read in two halves. -/
def IsrLayout.halves : IsrLayout :=
  { fields := Vector.ofFn fun k : Fin 16 =>
      let word : Fin 8 := ⟨k.val / 2, by omega⟩
      ⟨word, word, [if k.val % 2 = 0 then ⟨false, 0x0000FFFF, 0, 0⟩ else ⟨false, 0xFFFF0000, 16, 0⟩]⟩
    packings := #v[⟨3, 6, 7⟩, ⟨4, 8, 9⟩, ⟨5, 10, 11⟩, ⟨6, 12, 13⟩, ⟨7, 14, 15⟩] }

/-- ISR_FIELDS' layout under R173's constraint; the layout `halves` stands in for one the constraint forbids (log entry
5). -/
def Params.isrLayout (p : Params) : IsrLayout :=
  if p.isrLayoutGiven.valid then p.isrLayoutGiven else IsrLayout.halves

/-- ISR_FIELDS (R173). -/
def Params.isrFields (p : Params) (raw : Vector Word32 8) : Vector Nat 16 :=
  Vector.ofFn fun k => p.isrLayout.fields[k].value raw

end Sys2Proof

namespace Sys2Proof.Machine

/-! ### The numbers of result codes (R310 to R313) -/

/-- R310's numeric values. -/
def Status.value : Status → Nat
  | .ok => 0
  | .fail => 1
  | .notImplemented => 2

/-- R311's codes. -/
def FailKind.value : FailKind → Nat
  | .invalidChannel => 0x10
  | .badOpcode => 0x11
  | .badOverlayId => 0x12
  | .noOverlay => 0x13
  | .loadFailed => 0x14
  | .noDriver => 0x15
  | .badCommand => 0x16

/-- R312's codes. -/
def FlashCode.value : FlashCode → Nat
  | .ok => 0
  | .unknown => 1
  | .invalidCommandSequence => 2
  | .lowVpen => 3
  | .blockLocked => 4
  | .timeout => 5

/-- R313's ids. -/
def StubName.value : StubName → Nat
  | .attach => 1
  | .detach => 2
  | .serviceAsemode => 3
  | .waitAsemode => 4
  | .initAsemode => 5
  | .interruptTarget => 6
  | .dbreak => 7
  | .dpoke => 8
  | .flush => 9
  | .ibreak => 10

/-- The number a code stands for. -/
def Code.value : Code → Nat
  | .zero => 0
  | .kind k => k.value
  | .flash c => c.value
  | .stub n => n.value

/-! ### The driver -/

/-- The bus access width W of a driver variant (spec/43_flash.md R240); `NONE` has none. -/
def Driver.bus? : Driver → Option BusWidth
  | .none => Option.none
  | .intel16 => some .w16
  | .intel32 => some .w32

/-! ### Argument checks -/

/-- The mux channel of a channel operand, when it is one of 0..3 (R121). -/
def channel? (ch : Byte) : Option (Fin 4) := if h : ch.toNat < 4 then some ⟨ch.toNat, h⟩ else none

/-- The table index of an overlay id operand, when it is one of 1..26 (R204). -/
def overlayId? (id : Byte) : Option (Fin 27) :=
  if id = 0 then none else if h : id.toNat < 27 then some ⟨id.toNat, h⟩ else none

/-! ### ASE RAM -/

/-- `start = boot[9:0]` (R201). -/
def aseramStart (boot : Word32) : BitVec 10 := boot.extractLsb' 0 10

/-- `end` of a block of `size` words at `boot`, under ASERAM_END_RULE (R201), modulo 2^10. -/
def aseramEnd (rule : AseramEndRule) (boot : Word32) (size : Nat) : BitVec 10 :=
  match rule with
  | .relativeToStart => aseramStart boot + BitVec.ofNat 10 (size * 4) - 2
  | .relativeToZero => BitVec.ofNat 10 (size * 4) - 2

/-- `desc = (end << 16) | start` (R99, R200). -/
def aseramDescriptor (rule : AseramEndRule) (boot : Word32) (size : Nat) : Word32 :=
  ((aseramEnd rule boot size).setWidth 32 <<< 16) ||| (aseramStart boot).setWidth 32

/-- The fixed target address of `start_overlay`'s payload (R72, R207). -/
def aseramPayloadAddr : Word32 := 0xFC0002A0

/-- The fixed target address of `start_overlay`'s signal (R72, R207). -/
def aseramSignalAddr : Word32 := 0xFC0003FC

/-! ### DSU -/

/-- `cmd = ((reg << 3) | 0x19) mod 2^40` (R104, R290). -/
def dsuCommand (reg : Nat) : Word40 := BitVec.ofNat 40 ((reg <<< 3) ||| 0x19)

/-- One round of R291's loop on `(r, m)`. -/
def reverseRound (x : Word40) (rm : Word40 × Word40) (i : Nat) : Word40 × Word40 :=
  (if x.getLsbD i then rm.1 ||| rm.2 else rm.1, rm.2 >>> 1)

/-- `Reverse40(x)` (R291): the mask `m` moves from bit 39 down to bit 0 while `i` counts 0 to 39. -/
def reverse40 (x : Word40) : Word40 :=
  ((List.range 40).foldl (reverseRound x) (0, (1 : Word40) <<< 39)).1

/-! ### Flash -/

/-- `ChipName(cid)` (R257): the table's name, or the explicit "unknown". -/
def chipName (p : Params) (cid : Word16) : String := (p.chipNames cid).getD "unknown"

/-- An access at an offset that is a multiple of BUS_WIDTH/8 (R69). -/
def aligned (bus : BusWidth) (addr : Word32) : Bool := addr.toNat % (bus.bits / 8) == 0

/-! ### The host's spellings (R106 to R108): no command of their own -/

/-- The pseudo-instruction `tmc_read_DeviceId` (R107). -/
def tmcReadDeviceIdPseudo (p : Params) : Instr := .tmcReadDeviceId p.tmcSelDevice
/-- The pseudo-instruction `tmc_read_PrivateId` (R107). -/
def tmcReadPrivateIdPseudo (p : Params) : Instr := .tmcReadDeviceId p.tmcSelPrivate
/-- The pseudo-instruction `tmc_read_OptionId` (R107). -/
def tmcReadOptionIdPseudo (p : Params) : Instr := .tmcReadDeviceId p.tmcSelOption
/-- The pseudo-instruction `tmc_read_ExtraId` (R107). -/
def tmcReadExtraIdPseudo (p : Params) : Instr := .tmcReadDeviceId p.tmcSelExtra

/-- The source's name of an SDIR opcode (R98); `writeSDIR_` and it spell the pseudo-instruction that expands to the
HUDI_SDIR command (R108). -/
def sdirSourceName : Instr → Option String
  | .sdirExtest => some "Extest"
  | .sdirSamplePreload => some "SamplePreLoad"
  | .sdirIsrStart => some "InternalStatusRead start"
  | .sdirIsrEnd => some "InternalStatusRead end"
  | .sdirTdoTimingChange => some "TDOTimingChange"
  | .sdirWaitCancel => some "WaitCancel"
  | .sdirAseramWrite => some "AseramWrite"
  | .sdirResetNegate => some "ResetNegate"
  | .sdirResetAssert => some "ResetAssert"
  | .sdirBoot => some "Boot"
  | .sdirInterrupt => some "Interrupt"
  | .sdirBreak => some "Break"
  | .sdirBypass => some "Bypass"
  | _ => none

/-- The names of the snapshot's eight reads, in order (R172, D30); no rule of the sequencer reads them. -/
def isrReadNames : List String :=
  ["IBUS", "SR", "FPSCR", "CMF / PTEH", "CCR / SBTYPE", "SBUS", "EBUS", "FRQCR"]

/-- A list argument of R106, its numbers decimal. -/
def assembleList (words : List Word32) : String :=
  "[" ++ String.intercalate ", " (words.map fun w => toString w.toNat) ++ "]"

/-- A line of assembler text for a command (R106), numbers in decimal. HUDI_SDIR is spelled by the mnemonic of R92 with
its opcode (R108). R106 gives HUDI_LOAD_TABLE's nested table no text, so `valid = 1` has none. -/
def assemble (i : Instr) : Option String :=
  match i with
  | .tmcResetBypass v | .hudiLoadOverlay v => some (i.mnemonic ++ " " ++ toString v.toNat)
  | .tmcSetPadding v | .flashAutodetect v => some (i.mnemonic ++ " " ++ toString v.toNat)
  | .tmcReadDeviceId v | .hudiWriteData v | .flashPrintInfo v | .flashEraseBlock v | .flashUnlockBlock v
  | .flashReadArray v | .dsuPeek v => some (i.mnemonic ++ " " ++ toString v.toNat)
  | .flashProgram addr data => some (i.mnemonic ++ " " ++ toString addr.toNat ++ ", " ++ toString data.toNat)
  | .hudiWriteAseram boot words => some (i.mnemonic ++ " " ++ toString boot.toNat ++ ", " ++ assembleList words)
  | .hudiStartOverlay id payload => some (i.mnemonic ++ " " ++ toString id.toNat ++ ", " ++ assembleList payload)
  | .hudiLoadTable none => some (i.mnemonic ++ " 0")
  | .hudiLoadTable (some _) => none
  | i =>
    match i.sdirOpcode? with
    | some op => some ("HUDI_SDIR " ++ toString op.toNat)
    | none => some i.mnemonic

end Sys2Proof.Machine
end

