-- ==== Sys2Proof/Machine/Ops.lean ====
section
/-! DEFINITION. The operations all commands share: draws and events (spec/00_scope.md R11, R13), lazy init and teardown
of the register pairs, performing one primitive of a body, running a command one primitive at a time
(spec/10_state.md R21), ending it with a result (spec/60_exceptions.md R315), the host port, and sequencer reset
(spec/70_reset_and_hazards.md R340).

The sequencer takes no exception (R315): what a trap would be is `State.finish` with a failure result, and there is no
return from one (R320). -/

namespace Sys2Proof.Machine

/-! ### Results (R310) and locals -/

/-- `Ok(data)` of R310. -/
def Result.ok (data : Data) : Result := ⟨.ok, .zero, data⟩

/-- `Fail(kind)` of R310. -/
def Result.fail (k : FailKind) : Result := ⟨.fail, .kind k, .none⟩

/-- `NotImpl(name)` of R310. -/
def Result.notImpl (n : StubName) : Result := ⟨.notImplemented, .stub n, .none⟩

/-- `Flash(c)` of R310: {OK, 0, none} when c = 0 and {FAIL, c, none} otherwise. -/
def Result.flash (c : FlashCode) : Result :=
  if c = .ok then ⟨.ok, .zero, .none⟩ else ⟨.fail, .flash c, .none⟩

/-- The locals at the start of a body that returns by `fin`. -/
def Local.start (fin : Finish) : Local :=
  { caps := [], status := 0, polls := 0, timedOut := false, ni := false, fin := fin }

/-! ### Draws and events -/

/-- The draw that answers the next read of `w` bits (R13). -/
def State.answer (s : State) (w : Nat) : BitVec w :=
  match s.answers with
  | a :: _ => BitVec.ofNat w a
  | [] => Config.draw w s.draws

/-- The state once that draw is taken: the head of the answers lined up is used up, or one more draw is counted. -/
def State.drawn (s : State) : State :=
  { s with answers := s.answers.tail, draws := if s.answers.isEmpty then s.draws + 1 else s.draws }

/-- Append one event to the trace (R60). -/
def State.emit (s : State) (e : Event) : State := { s with trace := s.trace ++ [e] }

/-- `TapIR(n, v)`, its capture being the draw (R11). -/
def State.tapIR (s : State) (n : Nat) (v : BitVec n) : State := s.drawn.emit (.tapIR n v (s.answer n))

/-- `TapDR(n, v)`, its capture being the draw (R11). -/
def State.tapDR (s : State) (n : Nat) (v : BitVec n) : State := s.drawn.emit (.tapDR n v (s.answer n))

/-- What the flash bus makes of an access: at an aligned offset it completes, a read with what the device answers; at a
misaligned one it is the platform's (R69). The address goes to the bus unchanged. -/
def State.busOutcome (s : State) (p : Params) (bus : BusWidth) (addr : Word32) (access : BusAccess bus.bits) :
    BusOutcome bus.bits :=
  if aligned bus addr then
    match access with
    | .read answer => .completes answer
    | .write value => .completes value
  else p.busMisaligned s.trace.length addr bus access

/-- `MemRead(addr, W)` (R11): the state once it is issued, and the word unless the access never completes. -/
def State.memRead (s : State) (p : Params) (bus : BusWidth) (addr : Word32) : State × Option (BitVec bus.bits) :=
  match s.busOutcome p bus addr (.read (s.answer bus.bits)) with
  | .completes w => (s.drawn.emit (.memRead addr bus.bits w), some w)
  | .never => (s.emit (.memReadOpen addr bus.bits), none)

/-- `MemWrite(addr, W, v)` (R11): the state once it is issued. -/
def State.memWrite (s : State) (bus : BusWidth) (addr : Word32) (v : BitVec bus.bits) : State :=
  s.emit (.memWrite addr bus.bits v)

/-- A read of the raw-signal outcome: one drawn bit, 1 for ok (R11, R123). -/
def State.rawOk (s : State) : Bool := s.answer 1 == 1

/-! ### The register pairs -/

/-- `TmcInit()` (R120). -/
def State.tmcInit (s : State) : State :=
  if s.tmcAlloc then s else { s with tmcAlloc := true, rir := 0, wir := 0 }

/-- `HudiInit()` (R150). -/
def State.hudiInit (s : State) : State :=
  if s.hudiAlloc then s else { s with hudiAlloc := true, rsdir := 0, wsdir := 0 }

/-- `DsuInit()` (R293). -/
def State.dsuInit (s : State) : State :=
  if s.dsuAlloc then s else { s with dsuAlloc := true, dsurir := 0, dsuwir := 0 }

/-- TMC_TEARDOWN's effect (R127): the pair is freed and its values become unspecified. -/
def State.tmcFree (s : State) : State :=
  { s with tmcAlloc := false, rir := Config.unspecified 5 s.frees, wir := Config.unspecified 5 (s.frees + 1),
           frees := s.frees + 2 }

/-- HUDI_TEARDOWN's effect (R216). -/
def State.hudiFree (s : State) : State :=
  { s with hudiAlloc := false, rsdir := Config.unspecified 8 s.frees, wsdir := Config.unspecified 8 (s.frees + 1),
           frees := s.frees + 2 }

/-- DSU_TEARDOWN's effect (R299). -/
def State.dsuFree (s : State) : State :=
  { s with dsuAlloc := false, dsurir := Config.unspecified 40 s.frees, dsuwir := Config.unspecified 40 (s.frees + 1),
           frees := s.frees + 2 }

/-! ### Primitives -/

/-- `c <- TapIR(5, v)` by the TAP-Mux unit, with its bookkeeping (R120). -/
def State.tmcIR (s : State) (v : Word5) : State := { s.tapIR 5 v with wir := v, rir := s.answer 5 }

/-- `SdirWrite(op)` (R150): one event, then the bookkeeping and the mode table. -/
def State.sdirWrite (s : State) (op : Byte) : State :=
  modeUpdateIR op { s.tapIR 8 op with wsdir := op, rsdir := s.answer 8 }

/-- The IR shift of the DSU sweep at the pattern's length, with its bookkeeping (R293). -/
def State.dsuIR (s : State) (pat : Shift) : State :=
  { s.tapIR pat.width pat.value with
    dsuwir := pat.value.setWidth 40, dsurir := (s.answer pat.width).setWidth 40 }

/-- The shift of `WriteData(d)` after its Resync, and the mode update (R169). -/
def State.dataWrite (s : State) (p : Params) (d : Word32) : State :=
  modeUpdateData p.unlockedModeUpdate d (s.tapDR 32 d)

/-- Keep a captured word for the result. -/
def Local.keep (loc : Local) (w : Word40) : Local := { loc with caps := loc.caps ++ [w] }

/-- The locals after one read of the poll loop that returned the status `sr` (R244, R251). -/
def Local.polled (loc : Local) (p : Params) (bus : BusWidth) (sr : Word32) : Local :=
  { loc with status := sr, polls := loc.polls + 1, timedOut := !ready p.statusMasks bus sr }

/-- The poll loop goes on after a read that leaves the locals so: the status is not ready and no finite POLL_LIMIT is
reached (R251, R252). -/
def pollAgain (p : Params) (loc : Local) : Bool :=
  loc.timedOut && (match p.pollLimit with | none => true | some limit => loc.polls != limit)

/-- Where the body stands after a primitive. -/
inductive After where
  /-- The body goes on behind it. -/
  | onward
  /-- The body stays at it. -/
  | again
  /-- The body waits for ever for the bus access the primitive issued. -/
  | waits
  deriving DecidableEq, Repr

/-- Perform one primitive: the state after it, the locals after it, and where the body stands. -/
def perform (p : Params) (q : Prim) (s : State) (loc : Local) : State × Local × After :=
  match q with
  | .tapTLR => (s.emit .tapTLR, loc, .onward)
  | .tapIdle => (s.emit .tapIdle, loc, .onward)
  | .tmcIR v => (s.tmcIR v, loc, .onward)
  | .sdirWrite op => (s.sdirWrite op, loc, .onward)
  | .dsuIR pat => (s.dsuIR pat, loc, .onward)
  | .drWrite sh => (s.tapDR sh.width sh.value, loc, .onward)
  | .drRead n => (s.tapDR n 0, loc.keep ((s.answer n).setWidth 40), .onward)
  | .dataWrite d => (s.dataWrite p d, loc, .onward)
  | .rawSignal mask value => (s.drawn.emit (.rawSignal mask value s.rawOk), loc, .onward)
  | .delay us => (s.emit (.delay us), loc, .onward)
  | .memWrite bus addr v =>
    (s.memWrite bus addr (v.setWidth bus.bits), loc,
      match s.busOutcome p bus addr (.write (v.setWidth bus.bits)) with
      | .completes _ => .onward
      | .never => .waits)
  | .memRead bus addr =>
    match s.memRead p bus addr with
    | (s', some w) => (s', loc.keep (w.setWidth 40), .onward)
    | (s', none) => (s', loc, .waits)
  | .pollReady bus addr =>
    match s.memRead p bus addr with
    | (s', some w) =>
      let loc' := loc.polled p bus (maskedStatus bus w)
      (s', loc', if pollAgain p loc' then .again else .onward)
    | (s', none) => (s', loc, .waits)
  | .busWait => (s, loc, .again)

/-! ### Pieces of command bodies -/

/-- `WriteAseram(boot, words)` after its SDIR write: the descriptor and the code words, as raw shifts (R202, R203). -/
def aseramShifts (p : Params) (boot : Word32) (words : List Word32) : List MicroOp :=
  .prim (.drWrite ⟨32, aseramDescriptor p.aseramEndRule boot words.length⟩)
    :: words.map fun w => .prim (.drWrite ⟨32, w⟩)

/-- `WriteAseram(boot, words)` (R202). -/
def writeAseram (p : Params) (boot : Word32) (words : List Word32) : List MicroOp :=
  .prim (.sdirWrite 0x50) :: aseramShifts p boot words

/-- The upload of `LoadOverlay(id)` once its first AseramWrite is issued: the segments in order, one Bypass, and then
`S.cur_ovl <- id` (R205). -/
def uploadAfterSelect (p : Params) (id : Fin 27) (g : Segment) (gs : List Segment) : List MicroOp :=
  aseramShifts p g.boot g.code ++ (gs.flatMap fun h => writeAseram p h.boot h.code)
    ++ [.prim (.sdirWrite 0xFF), .setCurrent id]

/-! ### Running a command -/

/-- Where a body stands once everything up to its next primitive is done. -/
inductive Settled where
  /-- The body is over: it returns. -/
  | ended (s : State) (loc : Local)
  /-- A step of the body failed: the command ends with this kind (R12 `raise`, fail fast). -/
  | failed (s : State) (k : FailKind)
  /-- The next primitive is `q`. -/
  | ready (s : State) (loc : Local) (q : Prim) (rest : List MicroOp)

/-- Do what stands before the next primitive of a body: `Resync()` (R167), `LoadOverlay(id)` (R205) and the
assignments, none of which is an event of its own. -/
def settle (p : Params) (s : State) (loc : Local) : List MicroOp → Settled
  | [] => .ended s loc
  | .prim q :: rest => .ready s loc q rest
  | .resync :: rest =>
    if s.mode then settle p s loc rest else .ready s loc .tapTLR (.prim (.sdirWrite 0x60) :: rest)
  | .loadOverlay id :: rest =>
    if s.curOvl = id then settle p s loc rest
    else
      match s.ovl[id] with
      | [] => .failed s .noOverlay
      | g :: gs => .ready s loc (.sdirWrite 0x50) (uploadAfterSelect p id g gs ++ rest)
  | .setCurrent id :: rest => settle p { s with curOvl := id } loc rest
  | .stub :: rest => settle p s { loc with ni := true } rest

/-- End the command: write `S.res`, return it on the host port, and become idle (R22, R315). -/
def State.finish (s : State) (r : Result) : State :=
  { s with seq := .idle, res := r, results := s.results ++ [r] }

/-- The code of a flash command whose poll ended (R251): TIMEOUT when the limit cut it, else the classification. -/
def flashResult (loc : Local) (code : FlashCode) : Result :=
  Result.flash (if loc.timedOut then .timeout else code)

/-- The eight raw words of the snapshot (R171). -/
def Local.rawWords (loc : Local) : Vector Word32 8 := Vector.ofFn fun k => (loc.caps.getD k.val 0).setWidth 32

/-- The `n`-th captured word at 32 bits. -/
def Local.cap (loc : Local) (n : Nat) : Word32 := (loc.caps.getD n 0).setWidth 32

/-- The result a body returns at its end. -/
def Local.result (p : Params) (loc : Local) : Result :=
  match loc.fin with
  | .done => Result.ok .none
  | .fail k => Result.fail k
  | .notImpl n => Result.notImpl n
  | .word => Result.ok (.word (loc.cap 0))
  | .status => Result.ok (.status loc.rawWords (p.isrFields loc.rawWords))
  | .words => Result.ok (.words loc.caps)
  | .ids =>
    Result.ok (.ids (loc.cap 0) (loc.cap 1) ((loc.cap 0).setWidth 8) ((loc.cap 1).setWidth 16)
      (chipName p ((loc.cap 1).setWidth 16)))
  | .driver d => Result.ok (.driver d)
  | .erase bus => flashResult loc (classifyErase p.statusMasks bus loc.status)
  | .exact bus => flashResult loc (classifyExact p.statusMasks bus loc.status)
  | .attach => if loc.ni then Result.notImpl .attach else Result.ok .none

/-- Leave a settled body: the command's end, or the wait at its next primitive, the `k`-th (R21). -/
def pause (p : Params) (cmd : Instr) (k : Nat) : Settled → State
  | .ended s loc => s.finish (loc.result p)
  | .failed s kind => s.finish (.fail kind)
  | .ready s loc q rest => { s with seq := .busy cmd k q rest loc }

/-- One step of a running command: perform its `k`-th primitive, then go on to the next one or to the end (R21), or
stay. -/
def advance (p : Params) (cmd : Instr) (k : Nat) (q : Prim) (rest : List MicroOp) (loc : Local) (s : State) : State :=
  match perform p q s loc with
  | (s', loc', .onward) => pause p cmd (k + 1) (settle p s' loc' rest)
  | (s', loc', .again) => { s' with seq := .busy cmd k q rest loc' }
  | (s', loc', .waits) => { s' with seq := .busy cmd k .busWait rest loc' }

/-- A command's body at its start: the state after its checks and its lazy init, its steps, and its return. -/
structure Body where
  state : State
  ops   : List MicroOp
  fin   : Finish

/-- `raise Fail(kind)` at an argument check: no event and no state change (R317). -/
def Body.refuse (s : State) (k : FailKind) : Body := ⟨s, [], .fail k⟩

/-- Start a body: with its first primitive, or straight to its end when it has none. -/
def start (p : Params) (cmd : Instr) (b : Body) : State :=
  match settle p b.state (Local.start b.fin) b.ops with
  | .ready s loc q rest => advance p cmd 0 q rest loc s
  | r => pause p cmd 0 r

/-- A command that arrives while another runs is held until the sequencer is idle (R347). -/
def State.hold (s : State) (cmd : Instr) : State := { s with inbox := s.inbox ++ [encode cmd] }

/-- One step of command `cmd` with body `body`: its start when the sequencer is idle, its next primitive when it is
the running command, and a wait when another command runs. -/
def command (p : Params) (cmd : Instr) (body : Params → State → Body) (s : State) : State :=
  match s.seq with
  | .idle => start p cmd (body p s)
  | .busy c k q rest loc => if c = cmd then advance p c k q rest loc s else s.hold cmd

/-! ### The host port and reset -/

/-- The failure kind of a byte string that is no command (R165, R318). -/
def failKindOf : DecodeError → FailKind
  | .badCommand => .badCommand
  | .badOpcode => .badOpcode

/-- What an idle sequencer finds on the host command port. -/
inductive Fetched where
  /-- No command waits. -/
  | nothing
  /-- The message is the command `i`; `s` is the state with it taken off the port. -/
  | run (i : Instr) (s : State)
  /-- The message is no command and is refused (R318); `s` is the state with it taken off the port. -/
  | refuse (k : FailKind) (s : State)

/-- Take the oldest message off the host command port and decode it (R90, R347). -/
def State.fetch (s : State) : Fetched :=
  match s.inbox with
  | [] => .nothing
  | msg :: rest =>
    match decode msg with
    | .ok (i, _) => .run i { s with inbox := rest }
    | .error e => .refuse (failKindOf e) { s with inbox := rest }

/-- A sequencer reset (R340): every element of R39 takes its reset value; no event, and the ports' history, the
commands still held and the model's book of draws stay. -/
def State.sequencerReset (s : State) : State :=
  { State.reset with
    trace := s.trace, results := s.results, inbox := s.inbox
    answers := s.answers, draws := s.draws, frees := s.frees }

end Sys2Proof.Machine
end

