-- ==== Sys2Proof/Machine/Dsu.lean ====
section
/-! DEFINITION. The DSU peek unit (spec/44_dsu.md). -/

namespace Sys2Proof.Machine

/-- The five poll reads of one sweep length, `Delay(1000)` between consecutive ones (R293, R295). -/
def dsuPolls : List MicroOp :=
  (List.range 5).flatMap fun q =>
    (if q > 0 then [MicroOp.prim (.delay 1000)] else []) ++ [.prim (.drRead 40)]

/-- One length of the sweep (R293): the IR pattern, the forward and the reversed word, the polls. -/
def dsuLength (p : Params) (cmd : Word40) (len : Nat) : List MicroOp :=
  [.prim (.dsuIR ⟨len, p.dsuIrPattern len⟩), .prim (.drWrite ⟨40, cmd⟩), .prim (.drWrite ⟨40, reverse40 cmd⟩)]
    ++ dsuPolls

/-- DSU_PEEK (R293): the lengths 1 to 40. -/
def bodyDsuPeek (reg : Word32) (p : Params) (s : State) : Body :=
  { state := s.dsuInit
    ops := (List.range 40).flatMap fun l => dsuLength p (dsuCommand reg.toNat) (l + 1)
    fin := .words }

/-- One step of DSU_PEEK (R293). -/
def execDsuPeek (reg : Word32) (s : State) : Host.Outcome State Fault Refusal :=
  .next (command Config.params (.dsuPeek reg) (bodyDsuPeek reg) s)

/-- The body of a DSU stub (R296 to R298, R300): `return NotImpl(name)`, without DsuInit. -/
def bodyDsuStub (name : StubName) (_ : Params) (s : State) : Body := { state := s, ops := [], fin := .notImpl name }

/-- DSU_DBREAK (R296): a stub, NOT_IMPLEMENTED with no event. -/
def execDsuDbreak (s : State) : Host.Outcome State Fault Refusal :=
  .next (command Config.params .dsuDbreak (bodyDsuStub .dbreak) s)

/-- DSU_DPOKE (R297): a stub, NOT_IMPLEMENTED with no event. -/
def execDsuDpoke (s : State) : Host.Outcome State Fault Refusal :=
  .next (command Config.params .dsuDpoke (bodyDsuStub .dpoke) s)

/-- DSU_FLUSH (R298): a stub, NOT_IMPLEMENTED with no event. -/
def execDsuFlush (s : State) : Host.Outcome State Fault Refusal :=
  .next (command Config.params .dsuFlush (bodyDsuStub .flush) s)

/-- DSU_IBREAK (R300): a stub, NOT_IMPLEMENTED with no event. -/
def execDsuIbreak (s : State) : Host.Outcome State Fault Refusal :=
  .next (command Config.params .dsuIbreak (bodyDsuStub .ibreak) s)

/-- DSU_TEARDOWN (R299). -/
def bodyDsuTeardown (_ : Params) (s : State) : Body := { state := s.dsuFree, ops := [], fin := .done }

/-- One step of DSU_TEARDOWN (R299). -/
def execDsuTeardown (s : State) : Host.Outcome State Fault Refusal :=
  .next (command Config.params .dsuTeardown bodyDsuTeardown s)

end Sys2Proof.Machine
end

