-- ==== Sys2Proof/Machine/Flash.lean ====
section
/-! DEFINITION. The CFI Intel flash command engine (spec/43_flash.md). W, Cmd and the status tests of R240 are those of the driver
selected; the engine keeps no state between commands (R35). -/

namespace Sys2Proof.Machine

/-- FLASH_AUTODETECT (R258): the first driver of the registered list whose predicate holds. -/
def bodyFlashAutodetect (cfiId : Word16) (p : Params) (s : State) : Body :=
  match [Driver.intel16, .intel32].find? (fun d => cfiId == p.cfiIntelId && d.bus? == some p.busWidth) with
  | some d => { state := { s with driver := d }, ops := [], fin := .driver d }
  | none => { state := { s with driver := .none }, ops := [], fin := .fail .noDriver }

/-- One step of FLASH_AUTODETECT (R258). -/
def execFlashAutodetect (cfiId : Word16) (s : State) : Host.Outcome State Fault Refusal :=
  .next (command Config.params (.flashAutodetect cfiId) (bodyFlashAutodetect cfiId) s)

/-- `RequireDriver()` (R249), and then the body for the driver's bus. -/
def withDriver (s : State) (body : BusWidth → Body) : Body :=
  match s.driver.bus? with
  | none => Body.refuse s .noDriver
  | some bus => body bus

/-- `MemWrite(addr, W, Cmd(code))` (R240, R241). -/
def commandWrite (bus : BusWidth) (addr : Word32) (code : Byte) : MicroOp :=
  .prim (.memWrite bus addr (busPattern bus code))

/-- FLASH_PRINT_INFO (R256). -/
def bodyFlashPrintInfo (base : Word32) (p : Params) (s : State) : Body :=
  withDriver s fun bus =>
    { state := s
      ops := [commandWrite bus base p.flashCodes.clearStatus, commandWrite bus base p.flashCodes.readId,
              .prim (.memRead bus (base + p.flMidOff bus)), .prim (.memRead bus (base + p.flCidOff bus)),
              commandWrite bus base p.flashCodes.readArray]
      fin := .ids }

/-- One step of FLASH_PRINT_INFO (R256). -/
def execFlashPrintInfo (base : Word32) (s : State) : Host.Outcome State Fault Refusal :=
  .next (command Config.params (.flashPrintInfo base) (bodyFlashPrintInfo base) s)

/-- FLASH_ERASE_BLOCK (R250). -/
def bodyFlashEraseBlock (addr : Word32) (p : Params) (s : State) : Body :=
  withDriver s fun bus =>
    { state := s
      ops := [commandWrite bus addr p.flashCodes.clearStatus, commandWrite bus addr p.flashCodes.blockErase,
              commandWrite bus addr p.flashCodes.confirm, .prim (.pollReady bus addr)]
      fin := .erase bus }

/-- One step of FLASH_ERASE_BLOCK (R250). -/
def execFlashEraseBlock (addr : Word32) (s : State) : Host.Outcome State Fault Refusal :=
  .next (command Config.params (.flashEraseBlock addr) (bodyFlashEraseBlock addr) s)

/-- FLASH_UNLOCK_BLOCK (R253). -/
def bodyFlashUnlockBlock (addr : Word32) (p : Params) (s : State) : Body :=
  withDriver s fun bus =>
    { state := s
      ops := [commandWrite bus addr p.flashCodes.clearStatus, commandWrite bus addr p.flashCodes.lockSetup,
              commandWrite bus addr p.flashCodes.unlockBlock, .prim (.pollReady bus addr)]
      fin := .exact bus }

/-- One step of FLASH_UNLOCK_BLOCK (R253). -/
def execFlashUnlockBlock (addr : Word32) (s : State) : Host.Outcome State Fault Refusal :=
  .next (command Config.params (.flashUnlockBlock addr) (bodyFlashUnlockBlock addr) s)

/-- FLASH_PROGRAM (R254): the data word is written modulo 2^W and is not doubled. -/
def bodyFlashProgram (addr data : Word32) (p : Params) (s : State) : Body :=
  withDriver s fun bus =>
    { state := s
      ops := [commandWrite bus addr p.flashCodes.clearStatus, commandWrite bus addr p.flashCodes.program,
              .prim (.memWrite bus addr data), .prim (.pollReady bus addr)]
      fin := .exact bus }

/-- One step of FLASH_PROGRAM (R254). -/
def execFlashProgram (addr data : Word32) (s : State) : Host.Outcome State Fault Refusal :=
  .next (command Config.params (.flashProgram addr data) (bodyFlashProgram addr data) s)

/-- FLASH_READ_ARRAY (R255). -/
def bodyFlashReadArray (base : Word32) (p : Params) (s : State) : Body :=
  withDriver s fun bus =>
    { state := s, ops := [commandWrite bus base p.flashCodes.readArray], fin := .done }

/-- One step of FLASH_READ_ARRAY (R255). -/
def execFlashReadArray (base : Word32) (s : State) : Host.Outcome State Fault Refusal :=
  .next (command Config.params (.flashReadArray base) (bodyFlashReadArray base) s)

end Sys2Proof.Machine
end

