-- ==== Sys2Proof/Machine/HudiData.lean ====
section
/-! DEFINITION. The HUDI data register (spec/41_hudi.md R166 to R171). Every data access starts with `Resync()` (R167), which is
a step of the body and looks at the mode when the body reaches it. -/

namespace Sys2Proof.Machine

/-- `ReadData()` (R168): the re-synchronisation gate and a 32-bit read. -/
def readData : List MicroOp := [.resync, .prim (.drRead 32)]

/-- HUDI_READ_DATA (R168). -/
def bodyHudiReadData (_ : Params) (s : State) : Body := { state := s.hudiInit, ops := readData, fin := .word }

/-- One step of HUDI_READ_DATA (R168). -/
def execHudiReadData (s : State) : Host.Outcome State Fault Refusal :=
  .next (command Config.params .hudiReadData bodyHudiReadData s)

/-- HUDI_WRITE_DATA (R169): the gate, the shift of `d`, and the unlocked mode update. -/
def bodyHudiWriteData (d : Word32) (_ : Params) (s : State) : Body :=
  { state := s.hudiInit, ops := [.resync, .prim (.dataWrite d)], fin := .done }

/-- One step of HUDI_WRITE_DATA (R169). -/
def execHudiWriteData (d : Word32) (s : State) : Host.Outcome State Fault Refusal :=
  .next (command Config.params (.hudiWriteData d) (bodyHudiWriteData d) s)

/-- HUDI_INITIAL_STATE (R166): Test-Logic-Reset and ResetNegate. -/
def bodyHudiInitialState (_ : Params) (s : State) : Body :=
  { state := s.hudiInit, ops := [.prim .tapTLR, .prim (.sdirWrite 0x60)], fin := .done }

/-- One step of HUDI_INITIAL_STATE (R166). -/
def execHudiInitialState (s : State) : Host.Outcome State Fault Refusal :=
  .next (command Config.params .hudiInitialState bodyHudiInitialState s)

/-- HUDI_READ_INTERNAL_STATUS (R171): eight reads (ISR_READ_COUNT, R7) in a ReadStart/ReadEnd bracket. -/
def bodyHudiReadInternalStatus (_ : Params) (s : State) : Body :=
  { state := s.hudiInit
    ops := .prim (.sdirWrite 0x20) :: ((List.replicate 8 readData).flatten ++ [.prim (.sdirWrite 0x21)])
    fin := .status }

/-- One step of HUDI_READ_INTERNAL_STATUS (R171). -/
def execHudiReadInternalStatus (s : State) : Host.Outcome State Fault Refusal :=
  .next (command Config.params .hudiReadInternalStatus bodyHudiReadInternalStatus s)

end Sys2Proof.Machine
end

