-- ==== Sys2Proof/Machine/Overlay.lean ====
section
/-! DEFINITION. The HUDI unit's ASE RAM, overlays and attach (spec/42_hudi_overlay.md). -/

namespace Sys2Proof.Machine

/-- HUDI_WRITE_ASERAM (R202). -/
def bodyHudiWriteAseram (boot : Word32) (words : List Word32) (p : Params) (s : State) : Body :=
  { state := s.hudiInit, ops := writeAseram p boot words, fin := .done }

/-- One step of HUDI_WRITE_ASERAM (R202). -/
def execHudiWriteAseram (boot : Word32) (words : List Word32) (s : State) : Host.Outcome State Fault Refusal :=
  .next (command Config.params (.hudiWriteAseram boot words) (bodyHudiWriteAseram boot words) s)

/-- HUDI_LOAD_OVERLAY (R205): the id check of R204 before HudiInit, then `LoadOverlay(id)`. -/
def bodyHudiLoadOverlay (id : Byte) (_ : Params) (s : State) : Body :=
  match overlayId? id with
  | none => Body.refuse s .badOverlayId
  | some n => { state := s.hudiInit, ops := [.loadOverlay n], fin := .done }

/-- One step of HUDI_LOAD_OVERLAY (R205). -/
def execHudiLoadOverlay (id : Byte) (s : State) : Host.Outcome State Fault Refusal :=
  .next (command Config.params (.hudiLoadOverlay id) (bodyHudiLoadOverlay id) s)

/-- `StartOverlay(id, payload)` (R207): load, payload if there is one, signal, ResetNegate. -/
def startOverlay (p : Params) (id : Fin 27) (payload : List Word32) : List MicroOp :=
  .loadOverlay id ::
    ((if payload.length > 0 then writeAseram p aseramPayloadAddr payload else [])
      ++ writeAseram p aseramSignalAddr [p.signalWord] ++ [.prim (.sdirWrite 0x60)])

/-- HUDI_START_OVERLAY (R207): the id check of R204 before HudiInit. -/
def bodyHudiStartOverlay (id : Byte) (payload : List Word32) (p : Params) (s : State) : Body :=
  match overlayId? id with
  | none => Body.refuse s .badOverlayId
  | some n => { state := s.hudiInit, ops := startOverlay p n payload, fin := .done }

/-- One step of HUDI_START_OVERLAY (R207). -/
def execHudiStartOverlay (id : Byte) (payload : List Word32) (s : State) : Host.Outcome State Fault Refusal :=
  .next (command Config.params (.hudiStartOverlay id payload) (bodyHudiStartOverlay id payload) s)

/-- HUDI_ATTACH (R208): the fixed choreography, each stub of it marked by `.stub`. -/
def bodyHudiAttach (p : Params) (s : State) : Body :=
  { state := s.hudiInit
    ops := startOverlay p p.ovlBootInit [] ++
      [.stub, .loadOverlay p.ovlBootReset, .prim (.sdirWrite 0x60), .stub, .prim (.sdirWrite 0x80), .stub,
       .prim (.sdirWrite 0x70)]
    fin := .attach }

/-- One step of HUDI_ATTACH (R208). -/
def execHudiAttach (s : State) : Host.Outcome State Fault Refusal :=
  .next (command Config.params .hudiAttach bodyHudiAttach s)

/-- The body of a HUDI stub (R209 to R213): `HudiInit(); return NotImpl(name)`. -/
def bodyHudiStub (name : StubName) (_ : Params) (s : State) : Body :=
  { state := s.hudiInit, ops := [], fin := .notImpl name }

/-- HUDI_DETACH (R209): a stub, NOT_IMPLEMENTED with no event. -/
def execHudiDetach (s : State) : Host.Outcome State Fault Refusal :=
  .next (command Config.params .hudiDetach (bodyHudiStub .detach) s)

/-- HUDI_SERVICE_ASEMODE (R210): a stub, NOT_IMPLEMENTED with no event. -/
def execHudiServiceAsemode (s : State) : Host.Outcome State Fault Refusal :=
  .next (command Config.params .hudiServiceAsemode (bodyHudiStub .serviceAsemode) s)

/-- HUDI_WAIT_ASEMODE (R211): a stub, NOT_IMPLEMENTED with no event. -/
def execHudiWaitAsemode (s : State) : Host.Outcome State Fault Refusal :=
  .next (command Config.params .hudiWaitAsemode (bodyHudiStub .waitAsemode) s)

/-- HUDI_INIT_ASEMODE (R212): a stub, NOT_IMPLEMENTED with no event. -/
def execHudiInitAsemode (s : State) : Host.Outcome State Fault Refusal :=
  .next (command Config.params .hudiInitAsemode (bodyHudiStub .initAsemode) s)

/-- HUDI_INTERRUPT_TARGET (R213): a stub, NOT_IMPLEMENTED with no event. -/
def execHudiInterruptTarget (s : State) : Host.Outcome State Fault Refusal :=
  .next (command Config.params .hudiInterruptTarget (bodyHudiStub .interruptTarget) s)

/-- HUDI_LOAD_TABLE (R214): every slot is freed and no overlay is current; a failed host load leaves it so. -/
def bodyHudiLoadTable (table : Option OverlayTable) (_ : Params) (s : State) : Body :=
  match table with
  | none => { state := { s with ovl := OverlayTable.empty, curOvl := 0 }, ops := [], fin := .fail .loadFailed }
  | some t => { state := { s with ovl := t, curOvl := 0 }, ops := [], fin := .done }

/-- One step of HUDI_LOAD_TABLE (R214). -/
def execHudiLoadTable (table : Option OverlayTable) (s : State) : Host.Outcome State Fault Refusal :=
  .next (command Config.params (.hudiLoadTable table) (bodyHudiLoadTable table) s)

/-- HUDI_TEARDOWN (R216): the mode flags, the table and the current overlay are kept. -/
def bodyHudiTeardown (_ : Params) (s : State) : Body := { state := s.hudiFree, ops := [], fin := .done }

/-- One step of HUDI_TEARDOWN (R216). -/
def execHudiTeardown (s : State) : Host.Outcome State Fault Refusal :=
  .next (command Config.params .hudiTeardown bodyHudiTeardown s)

end Sys2Proof.Machine
end

