-- ==== Sys2Proof/Machine/Sdir.lean ====
section
/-! DEFINITION. HUDI_SDIR (spec/41_hudi.md R152 to R164): one command per defined opcode, all with the body R152's section
gives: `HudiInit(); SdirWrite(op); return Ok(none)`. A reserved opcode is no command (R165, Decode.lean). -/

namespace Sys2Proof.Machine

/-- The shared body of the SDIR instructions (41_hudi.md section 2). -/
def bodySdir (op : Byte) (_ : Params) (s : State) : Body :=
  { state := s.hudiInit, ops := [.prim (.sdirWrite op)], fin := .done }

/-- SDIR_EXTEST (R152): HUDI_SDIR 0x00. -/
def execSdirExtest (s : State) : Host.Outcome State Fault Refusal :=
  .next (command Config.params .sdirExtest (bodySdir 0x00) s)

/-- SDIR_SAMPLE_PRELOAD (R153): HUDI_SDIR 0x04. -/
def execSdirSamplePreload (s : State) : Host.Outcome State Fault Refusal :=
  .next (command Config.params .sdirSamplePreload (bodySdir 0x04) s)

/-- SDIR_ISR_START (R154): HUDI_SDIR 0x20. -/
def execSdirIsrStart (s : State) : Host.Outcome State Fault Refusal :=
  .next (command Config.params .sdirIsrStart (bodySdir 0x20) s)

/-- SDIR_ISR_END (R155): HUDI_SDIR 0x21. -/
def execSdirIsrEnd (s : State) : Host.Outcome State Fault Refusal :=
  .next (command Config.params .sdirIsrEnd (bodySdir 0x21) s)

/-- SDIR_TDO_TIMING_CHANGE (R156): HUDI_SDIR 0x22. -/
def execSdirTdoTimingChange (s : State) : Host.Outcome State Fault Refusal :=
  .next (command Config.params .sdirTdoTimingChange (bodySdir 0x22) s)

/-- SDIR_WAIT_CANCEL (R157): HUDI_SDIR 0x23. -/
def execSdirWaitCancel (s : State) : Host.Outcome State Fault Refusal :=
  .next (command Config.params .sdirWaitCancel (bodySdir 0x23) s)

/-- SDIR_ASERAM_WRITE (R158): HUDI_SDIR 0x50. -/
def execSdirAseramWrite (s : State) : Host.Outcome State Fault Refusal :=
  .next (command Config.params .sdirAseramWrite (bodySdir 0x50) s)

/-- SDIR_RESET_NEGATE (R159): HUDI_SDIR 0x60. -/
def execSdirResetNegate (s : State) : Host.Outcome State Fault Refusal :=
  .next (command Config.params .sdirResetNegate (bodySdir 0x60) s)

/-- SDIR_RESET_ASSERT (R160): HUDI_SDIR 0x70. -/
def execSdirResetAssert (s : State) : Host.Outcome State Fault Refusal :=
  .next (command Config.params .sdirResetAssert (bodySdir 0x70) s)

/-- SDIR_BOOT (R161): HUDI_SDIR 0x80. -/
def execSdirBoot (s : State) : Host.Outcome State Fault Refusal :=
  .next (command Config.params .sdirBoot (bodySdir 0x80) s)

/-- SDIR_INTERRUPT (R162): HUDI_SDIR 0xA0. -/
def execSdirInterrupt (s : State) : Host.Outcome State Fault Refusal :=
  .next (command Config.params .sdirInterrupt (bodySdir 0xA0) s)

/-- SDIR_BREAK (R163): HUDI_SDIR 0xC0. -/
def execSdirBreak (s : State) : Host.Outcome State Fault Refusal :=
  .next (command Config.params .sdirBreak (bodySdir 0xC0) s)

/-- SDIR_BYPASS (R164): HUDI_SDIR 0xFF. -/
def execSdirBypass (s : State) : Host.Outcome State Fault Refusal :=
  .next (command Config.params .sdirBypass (bodySdir 0xFF) s)

end Sys2Proof.Machine
end

