-- ==== Sys2Proof/Machine/Tmc.lean ====
section
/-! DEFINITION. The TAP-Mux unit (spec/40_tapmux.md). Each command is a body over the shared operations and one step of it. -/

namespace Sys2Proof.Machine

/-- TMC_RESET_BYPASS (R122): the raw sequence of the channel's routing code, a settle delay after each signal. A failed
`RawSignal` is in the trace and changes nothing else (R123). -/
def bodyTmcResetBypass (ch : Byte) (p : Params) (s : State) : Body :=
  match channel? ch with
  | none => Body.refuse s .invalidChannel
  | some c =>
    { state := s.tmcInit
      ops := (p.rawSeq (p.bypassTable c).1 (p.bypassTable c).2).flatMap fun r =>
        [.prim (.rawSignal r.mask r.value), .prim (.delay r.delayUs)]
      fin := .done }

/-- One step of TMC_RESET_BYPASS (R122). -/
def execTmcResetBypass (ch : Byte) (s : State) : Host.Outcome State Fault Refusal :=
  .next (command Config.params (.tmcResetBypass ch) (bodyTmcResetBypass ch) s)

/-- TMC_READ_DEVICE_ID (R124): Run-Test/Idle, the select pattern, the ID-code instruction, the 32-bit read, deselect. -/
def bodyTmcReadDeviceId (sel : Word32) (p : Params) (s : State) : Body :=
  { state := s.tmcInit
    ops := [.prim .tapIdle, .prim (.drWrite (p.tmcSelectPattern sel s.tmcPad)), .prim (.tmcIR p.tmcIdcodeOp),
            .prim (.drRead 32), .prim (.drWrite (p.tmcDeselectPattern s.tmcPad))]
    fin := .word }

/-- One step of TMC_READ_DEVICE_ID (R124). -/
def execTmcReadDeviceId (sel : Word32) (s : State) : Host.Outcome State Fault Refusal :=
  .next (command Config.params (.tmcReadDeviceId sel) (bodyTmcReadDeviceId sel) s)

/-- TMC_READ_CHIP_ID (R125): the chip-id instruction 0x04 and the 32-bit read. -/
def bodyTmcReadChipId (_ : Params) (s : State) : Body :=
  { state := s.tmcInit, ops := [.prim (.tmcIR 0x04), .prim (.drRead 32)], fin := .word }

/-- One step of TMC_READ_CHIP_ID (R125). -/
def execTmcReadChipId (s : State) : Host.Outcome State Fault Refusal :=
  .next (command Config.params .tmcReadChipId bodyTmcReadChipId s)

/-- TMC_SET_PADDING (R126); it does not run TmcInit. -/
def bodyTmcSetPadding (pad : Word16) (_ : Params) (s : State) : Body :=
  { state := { s with tmcPad := pad }, ops := [], fin := .done }

/-- One step of TMC_SET_PADDING (R126). -/
def execTmcSetPadding (pad : Word16) (s : State) : Host.Outcome State Fault Refusal :=
  .next (command Config.params (.tmcSetPadding pad) (bodyTmcSetPadding pad) s)

/-- TMC_TEARDOWN (R127). -/
def bodyTmcTeardown (_ : Params) (s : State) : Body := { state := s.tmcFree, ops := [], fin := .done }

/-- One step of TMC_TEARDOWN (R127). -/
def execTmcTeardown (s : State) : Host.Outcome State Fault Refusal :=
  .next (command Config.params .tmcTeardown bodyTmcTeardown s)

end Sys2Proof.Machine
end

