-- ==== Sys2Proof/Machine/Dispatch.lean ====
section
/-! DEFINITION. The one step of each command (spec/30_encoding.md R92): one arm per row of opcode_table.json. -/

namespace Sys2Proof.Machine

def exec (i : Instr) (s : State) : Host.Outcome State Fault Refusal :=
  match i with
  | .tmcResetBypass ch => Sys2Proof.Machine.execTmcResetBypass ch s
  | .tmcReadDeviceId sel => Sys2Proof.Machine.execTmcReadDeviceId sel s
  | .tmcReadChipId => Sys2Proof.Machine.execTmcReadChipId s
  | .tmcSetPadding pad => Sys2Proof.Machine.execTmcSetPadding pad s
  | .tmcTeardown => Sys2Proof.Machine.execTmcTeardown s
  | .sdirExtest => Sys2Proof.Machine.execSdirExtest s
  | .sdirSamplePreload => Sys2Proof.Machine.execSdirSamplePreload s
  | .sdirIsrStart => Sys2Proof.Machine.execSdirIsrStart s
  | .sdirIsrEnd => Sys2Proof.Machine.execSdirIsrEnd s
  | .sdirTdoTimingChange => Sys2Proof.Machine.execSdirTdoTimingChange s
  | .sdirWaitCancel => Sys2Proof.Machine.execSdirWaitCancel s
  | .sdirAseramWrite => Sys2Proof.Machine.execSdirAseramWrite s
  | .sdirResetNegate => Sys2Proof.Machine.execSdirResetNegate s
  | .sdirResetAssert => Sys2Proof.Machine.execSdirResetAssert s
  | .sdirBoot => Sys2Proof.Machine.execSdirBoot s
  | .sdirInterrupt => Sys2Proof.Machine.execSdirInterrupt s
  | .sdirBreak => Sys2Proof.Machine.execSdirBreak s
  | .sdirBypass => Sys2Proof.Machine.execSdirBypass s
  | .hudiReadData => Sys2Proof.Machine.execHudiReadData s
  | .hudiWriteData d => Sys2Proof.Machine.execHudiWriteData d s
  | .hudiInitialState => Sys2Proof.Machine.execHudiInitialState s
  | .hudiReadInternalStatus => Sys2Proof.Machine.execHudiReadInternalStatus s
  | .hudiWriteAseram boot words => Sys2Proof.Machine.execHudiWriteAseram boot words s
  | .hudiLoadOverlay id => Sys2Proof.Machine.execHudiLoadOverlay id s
  | .hudiStartOverlay id payload => Sys2Proof.Machine.execHudiStartOverlay id payload s
  | .hudiAttach => Sys2Proof.Machine.execHudiAttach s
  | .hudiDetach => Sys2Proof.Machine.execHudiDetach s
  | .hudiServiceAsemode => Sys2Proof.Machine.execHudiServiceAsemode s
  | .hudiWaitAsemode => Sys2Proof.Machine.execHudiWaitAsemode s
  | .hudiInitAsemode => Sys2Proof.Machine.execHudiInitAsemode s
  | .hudiInterruptTarget => Sys2Proof.Machine.execHudiInterruptTarget s
  | .hudiLoadTable table => Sys2Proof.Machine.execHudiLoadTable table s
  | .hudiTeardown => Sys2Proof.Machine.execHudiTeardown s
  | .flashAutodetect cfiId => Sys2Proof.Machine.execFlashAutodetect cfiId s
  | .flashPrintInfo base => Sys2Proof.Machine.execFlashPrintInfo base s
  | .flashEraseBlock addr => Sys2Proof.Machine.execFlashEraseBlock addr s
  | .flashUnlockBlock addr => Sys2Proof.Machine.execFlashUnlockBlock addr s
  | .flashProgram addr data => Sys2Proof.Machine.execFlashProgram addr data s
  | .flashReadArray base => Sys2Proof.Machine.execFlashReadArray base s
  | .dsuPeek reg => Sys2Proof.Machine.execDsuPeek reg s
  | .dsuDbreak => Sys2Proof.Machine.execDsuDbreak s
  | .dsuDpoke => Sys2Proof.Machine.execDsuDpoke s
  | .dsuFlush => Sys2Proof.Machine.execDsuFlush s
  | .dsuIbreak => Sys2Proof.Machine.execDsuIbreak s
  | .dsuTeardown => Sys2Proof.Machine.execDsuTeardown s

end Sys2Proof.Machine
end

