-- ==== Sys2Proof/Machine/Step.lean ====
section
/-! DEFINITION. One step of the machine: a sequencer reset if the host applies one (spec/70_reset_and_hazards.md R340,
R348), the next primitive of the running command (spec/10_state.md R21), or the start of the next command waiting on the
host port (R347). An idle sequencer with no command waiting stays as it is. -/

namespace Sys2Proof.Machine

/-- One step. -/
def step (s : State) : Host.Outcome State Fault Refusal :=
  if s.resetReq then .next s.sequencerReset
  else
    match s.seq with
    | .busy cmd _ _ _ _ => exec cmd s
    | .idle =>
      match s.fetch with
      | .nothing => .next s
      | .run i s' => exec i s'
      | .refuse k s' => .next (s'.finish (.fail k))

/-- `s` with the instruction of an opcode-table word as the oldest message on the host command port, the sequencer
idle and no reset applied, so that the next step starts it (log entry 9). -/
def State.withFetchWord (s : State) (nbits w : Nat) : State :=
  { s with seq := .idle, resetReq := false, inbox := tableBytes nbits w :: s.inbox }

end Sys2Proof.Machine
end

