-- ==== Sys2Proof/Safety.lean ====
section
/-! DEFINITION. What claims about the machine are stated in: a command's body by its constructor, runs of one command,
the expected events of a run of shifts, and the invariant of the machine. -/

namespace Sys2Proof.Machine

/-! ### Commands and their runs -/

/-- The body of each command (the one its meaning runs). -/
def bodyOf (i : Instr) : Params → State → Body :=
  match i with
  | .tmcResetBypass ch => bodyTmcResetBypass ch
  | .tmcReadDeviceId sel => bodyTmcReadDeviceId sel
  | .tmcReadChipId => bodyTmcReadChipId
  | .tmcSetPadding pad => bodyTmcSetPadding pad
  | .tmcTeardown => bodyTmcTeardown
  | .sdirExtest => bodySdir 0x00
  | .sdirSamplePreload => bodySdir 0x04
  | .sdirIsrStart => bodySdir 0x20
  | .sdirIsrEnd => bodySdir 0x21
  | .sdirTdoTimingChange => bodySdir 0x22
  | .sdirWaitCancel => bodySdir 0x23
  | .sdirAseramWrite => bodySdir 0x50
  | .sdirResetNegate => bodySdir 0x60
  | .sdirResetAssert => bodySdir 0x70
  | .sdirBoot => bodySdir 0x80
  | .sdirInterrupt => bodySdir 0xA0
  | .sdirBreak => bodySdir 0xC0
  | .sdirBypass => bodySdir 0xFF
  | .hudiReadData => bodyHudiReadData
  | .hudiWriteData d => bodyHudiWriteData d
  | .hudiInitialState => bodyHudiInitialState
  | .hudiReadInternalStatus => bodyHudiReadInternalStatus
  | .hudiWriteAseram boot words => bodyHudiWriteAseram boot words
  | .hudiLoadOverlay id => bodyHudiLoadOverlay id
  | .hudiStartOverlay id payload => bodyHudiStartOverlay id payload
  | .hudiAttach => bodyHudiAttach
  | .hudiDetach => bodyHudiStub .detach
  | .hudiServiceAsemode => bodyHudiStub .serviceAsemode
  | .hudiWaitAsemode => bodyHudiStub .waitAsemode
  | .hudiInitAsemode => bodyHudiStub .initAsemode
  | .hudiInterruptTarget => bodyHudiStub .interruptTarget
  | .hudiLoadTable table => bodyHudiLoadTable table
  | .hudiTeardown => bodyHudiTeardown
  | .flashAutodetect cfiId => bodyFlashAutodetect cfiId
  | .flashPrintInfo base => bodyFlashPrintInfo base
  | .flashEraseBlock addr => bodyFlashEraseBlock addr
  | .flashUnlockBlock addr => bodyFlashUnlockBlock addr
  | .flashProgram addr data => bodyFlashProgram addr data
  | .flashReadArray base => bodyFlashReadArray base
  | .dsuPeek reg => bodyDsuPeek reg
  | .dsuDbreak => bodyDsuStub .dbreak
  | .dsuDpoke => bodyDsuStub .dpoke
  | .dsuFlush => bodyDsuStub .flush
  | .dsuIbreak => bodyDsuStub .ibreak
  | .dsuTeardown => bodyDsuTeardown

/-- One step of a command under the parameters `p`; `exec` is this at `Config.params`. -/
def execWith (p : Params) (i : Instr) (s : State) : State := command p i (bodyOf i) s

/-- `n` steps of a command under the parameters `p`. -/
def execTimesWith (p : Params) : Nat → Instr → State → State
  | 0, _, s => s
  | n + 1, i, s => execTimesWith p n i (execWith p i s)

/-- `n` steps of one command, stopping at the first fault or refusal. -/
def execTimes : Nat → Instr → State → Host.Outcome State Fault Refusal
  | 0, _, s => .next s
  | n + 1, i, s =>
    match exec i s with
    | .next t => execTimes n i t
    | .fault r => .fault r
    | .refused r => .refused r

/-- One step of each command of a list, one after another. -/
def execEach : List Instr → State → Host.Outcome State Fault Refusal
  | [], s => .next s
  | i :: is, s =>
    match exec i s with
    | .next t => execEach is t
    | .fault r => .fault r
    | .refused r => .refused r

/-! ### The events of a run of shifts -/

/-- A shift the sequencer issues: an IR shift or a DR shift of a width and a value. -/
inductive Shot where
  | ir (n : Nat) (v : BitVec n)
  | dr (n : Nat) (v : BitVec n)
  deriving DecidableEq, Repr

/-- The state once `n` draws are taken. -/
def State.drawnBy : Nat → State → State
  | 0, s => s
  | n + 1, s => State.drawnBy n s.drawn

/-- The events of the shifts in order, each with the draw that answers it (R60). -/
def shotEvents (s : State) : List Shot → List Event
  | [] => []
  | .ir n v :: rest => .tapIR n v (s.answer n) :: shotEvents s.drawn rest
  | .dr n v :: rest => .tapDR n v (s.answer n) :: shotEvents s.drawn rest

/-- The shifts of `WriteAseram(boot, words)` (R202) under the parameters `p`. -/
def aseramShots (p : Params) (boot : Word32) (words : List Word32) : List Shot :=
  .ir 8 0x50 :: .dr 32 (aseramDescriptor p.aseramEndRule boot words.length) :: words.map fun w => .dr 32 w

/-- The shifts of `LoadOverlay` of an entry that is not current (R205): each segment, then one Bypass. -/
def overlayShots (p : Params) (segs : List Segment) : List Shot :=
  (segs.flatMap fun g => aseramShots p g.boot g.code) ++ [.ir 8 0xFF]

/-- The shifts of `LoadOverlay(id)` at a state: none when `id` is current (R205). -/
def loadShots (p : Params) (s : State) (id : Fin 27) : List Shot :=
  if s.curOvl = id then [] else overlayShots p s.ovl[id]

/-- The shifts of `start_overlay` after its load (R207): the payload if there is one, the signal word, ResetNegate. -/
def startShots (p : Params) (payload : List Word32) : List Shot :=
  (if payload = [] then [] else aseramShots p 0xFC0002A0 payload)
    ++ aseramShots p 0xFC0003FC [p.signalWord] ++ [.ir 8 0x60]

/-- The masked status (R244) that the next read of the driver `bus` returns at an aligned address. -/
def State.pollStatus (s : State) (bus : BusWidth) : Word32 := maskedStatus bus (s.answer bus.bits)

/-- The masked statuses of the next `n` reads at an aligned address. -/
def pollStatuses (bus : BusWidth) : Nat → State → List Word32
  | 0, _ => []
  | n + 1, s => s.pollStatus bus :: pollStatuses bus n s.drawn

/-- The events of `n` reads of the bus at one aligned address. -/
def readEvents (bus : BusWidth) (addr : Word32) : Nat → State → List Event
  | 0, _ => []
  | n + 1, s => .memRead addr bus.bits (s.answer bus.bits) :: readEvents bus addr n s.drawn

/-- The events of RAW_SEQ (R122): each signal with its outcome, and its settle delay. -/
def rawEvents (s : State) : List RawStep → List Event
  | [] => []
  | r :: rest => .rawSignal r.mask r.value (s.answer 1 == 1) :: .delay r.delayUs :: rawEvents s.drawn rest

/-- The twelve events of one length of the DSU sweep (R293), the eight draws they take starting at `s`. -/
def sweepEvents (p : Params) (s : State) (cmd : Word40) (len : Nat) : List Event :=
  [.tapIR len (p.dsuIrPattern len) (s.answer len), .tapDR 40 cmd ((s.drawnBy 1).answer 40),
   .tapDR 40 (reverse40 cmd) ((s.drawnBy 2).answer 40),
   .tapDR 40 0 ((s.drawnBy 3).answer 40), .delay 1000, .tapDR 40 0 ((s.drawnBy 4).answer 40), .delay 1000,
   .tapDR 40 0 ((s.drawnBy 5).answer 40), .delay 1000, .tapDR 40 0 ((s.drawnBy 6).answer 40), .delay 1000,
   .tapDR 40 0 ((s.drawnBy 7).answer 40)]

/-- The state a command that ran to its end leaves, when it wrote nothing but its events and its result: `k` draws are
taken, the events `es` are in the trace, and the sequencer is idle with result `r`, returned to the host. -/
def State.completed (s : State) (k : Nat) (es : List Event) (r : Result) : State :=
  { s.drawnBy k with seq := .idle, trace := s.trace ++ es, res := r, results := s.results ++ [r] }

/-- The state after one read of the ready poll (R251) at an aligned address, the `k`-th primitive of `cmd`: the
classified result when the status is ready, TIMEOUT when a finite POLL_LIMIT is reached, and the same poll again
otherwise. -/
def afterPoll (p : Params) (cmd : Instr) (k : Nat) (bus : BusWidth) (addr : Word32) (loc : Local) (s : State) : State :=
  let sr := s.pollStatus bus
  let e : Event := .memRead addr bus.bits (s.answer bus.bits)
  if ready p.statusMasks bus sr then
    s.completed 1 [e] (Result.flash (match loc.fin with
      | .erase _ => classifyErase p.statusMasks bus sr
      | _ => if sr = readyPattern p.statusMasks bus then .ok else .unknown))
  else if p.pollLimit = some (loc.polls + 1) then s.completed 1 [e] (Result.flash .timeout)
  else
    { s.drawn with
      trace := s.trace ++ [e]
      seq := .busy cmd k (.pollReady bus addr) [] { loc with status := sr, polls := loc.polls + 1, timedOut := true } }

/-- The state once the `k`-th primitive of `cmd` issued a bus access, the event `e`, that never completes (R69). -/
def State.waiting (s : State) (cmd : Instr) (k : Nat) (rest : List MicroOp) (loc : Local) (e : Event) : State :=
  { s with trace := s.trace ++ [e], seq := .busy cmd k .busWait rest loc }

/-- The mode an unlocked write of `d` leaves where the mode was 1 (R169): bit 0 of `d`, or its negation. -/
def modeAfterData (rule : ModeUpdate) (d : Word32) : Bool :=
  match rule with
  | .copyBit0 => d.getLsbD 0
  | .xorBit0 => !d.getLsbD 0

/-- The driver variant of a bus width (R240). -/
def driverOf : BusWidth → Driver
  | .w16 => .intel16
  | .w32 => .intel32

/-- The command ids of R92. -/
def commandIds : List Byte :=
  [0x01, 0x02, 0x03, 0x04, 0x0F, 0x10, 0x11, 0x12, 0x13, 0x14, 0x15, 0x16, 0x17, 0x18, 0x19, 0x1A, 0x1B, 0x1C, 0x1D,
   0x1E, 0x1F, 0x20, 0x21, 0x22, 0x23, 0x24, 0x25, 0x30, 0x31, 0x32, 0x33, 0x34, 0x3F]

/-! ### Units -/

/-- The four units of R1. -/
inductive UnitName where
  | tmc
  | hudi
  | flash
  | dsu
  deriving DecidableEq, Repr

/-- The unit a command belongs to (R92, by its id's block). -/
def unitOf : Instr → UnitName
  | .tmcResetBypass _ | .tmcReadDeviceId _ | .tmcReadChipId | .tmcSetPadding _ | .tmcTeardown => .tmc
  | .flashAutodetect _ | .flashPrintInfo _ | .flashEraseBlock _ | .flashUnlockBlock _ | .flashProgram _ _
  | .flashReadArray _ => .flash
  | .dsuPeek _ | .dsuDbreak | .dsuDpoke | .dsuFlush | .dsuIbreak | .dsuTeardown => .dsu
  | _ => .hudi

/-- The 13 opcodes of R98. -/
def sdirOpcodes : List Byte :=
  [0x00, 0x04, 0x20, 0x21, 0x22, 0x23, 0x50, 0x60, 0x70, 0x80, 0xA0, 0xC0, 0xFF]

/-- The primitives each unit issues, with the widths of R62 and R70 and the opcodes of R98. -/
def Prim.allowed (p : Params) (u : UnitName) (q : Prim) : Prop :=
  match q with
  | .tapTLR => u = .hudi
  | .tapIdle => u = .tmc
  | .tmcIR _ => u = .tmc
  | .sdirWrite op => u = .hudi ∧ op ∈ sdirOpcodes
  | .dsuIR pat => u = .dsu ∧ 1 ≤ pat.width ∧ pat.width ≤ 40
  | .drWrite sh =>
    match u with
    | .tmc => (∃ sel pad, sh = p.tmcSelectPattern sel pad) ∨ ∃ pad, sh = p.tmcDeselectPattern pad
    | .hudi => sh.width = 32
    | .flash => False
    | .dsu => sh.width = 40
  | .drRead n =>
    match u with
    | .tmc => n = 32
    | .hudi => n = 32
    | .flash => False
    | .dsu => n = 40
  | .dataWrite _ => u = .hudi
  | .rawSignal _ _ => u = .tmc
  | .delay _ => u = .tmc ∨ u = .dsu
  | .memWrite bus _ _ => u = .flash ∧ bus = p.busWidth
  | .memRead bus _ => u = .flash ∧ bus = p.busWidth
  | .pollReady bus _ => u = .flash ∧ bus = p.busWidth
  | .busWait => u = .flash

/-- What may stand in the body of a command of unit `u` at a table `ovl`: primitives of that unit, and in a HUDI command
the calls of R167, R205 and R208; an overlay is made current only if its entry is not EMPTY. -/
def MicroOp.allowed (p : Params) (ovl : OverlayTable) (u : UnitName) : MicroOp → Prop
  | .prim q => q.allowed p u
  | .resync => u = .hudi
  | .loadOverlay _ => u = .hudi
  | .setCurrent id => u = .hudi ∧ ovl[id] ≠ []
  | .stub => u = .hudi

/-- The events R62 and R70 allow: the shift and access widths that are issued. -/
def Event.allowed (p : Params) : Event → Prop
  | .tapIR n _ _ => 1 ≤ n ∧ n ≤ 40
  | .tapDR n _ _ =>
    n = 32 ∨ n = 40 ∨ (∃ sel pad, n = (p.tmcSelectPattern sel pad).width)
      ∨ ∃ pad, n = (p.tmcDeselectPattern pad).width
  | .memRead _ n _ => n = p.busWidth.bits
  | .memReadOpen _ n => n = p.busWidth.bits
  | .memWrite _ n _ => n = p.busWidth.bits
  | _ => True

/-! ### The invariant -/

/-- What every step of the machine keeps. -/
structure Inv (s : State) : Prop where
  /-- R29: `S.locked = 1` implies `S.mode = 1`. -/
  locked_mode : s.locked = true → s.mode = true
  /-- R31, R205, R214: a current overlay's entry is not EMPTY. -/
  current_loaded : s.curOvl ≠ 0 → s.ovl[s.curOvl] ≠ []
  /-- R32, R94: the table's segments and entries have sizes their fields can spell. -/
  table_wellFormed : s.ovl.wellFormed = true
  /-- R258: a selected driver has the bus width of the platform. -/
  driver_width : s.driver = .none ∨ s.driver.bus? = some Config.params.busWidth
  /-- R21: what is left of a running command belongs to its unit. -/
  running : ∀ cmd k q rest loc, s.seq = .busy cmd k q rest loc →
    q.allowed Config.params (unitOf cmd) ∧ ∀ op ∈ rest, op.allowed Config.params s.ovl (unitOf cmd)
  /-- R62, R70: no other width was issued. -/
  trace_widths : ∀ e ∈ s.trace, e.allowed Config.params

end Sys2Proof.Machine
end

