-- ==== Sys2Proof/Certificates/Slice0/Obligations.lean ====
section
/-! DEFINITION. The statements about the machine, for the provers. Each docstring names the rule of spec/ it formalises,
and says where the spec marks the rule as its own choice (a decision D<n> of spec/92_eei_decisions.md) or the model
chose (a log entry). "`exec` of a command" is one step of it (R21); `execTimes n` is n steps, the whole command.
`Config.params`, `Config.draw` and `Config.unspecified` are opaque, so each statement holds for all their values. -/

open Sys2Proof Sys2Proof.Machine

/-! ### Commands as bytes (spec/30_encoding.md) -/

/-- R90 to R94: decoding the bytes of a well-formed command, whatever follows them, gives it back. -/
def Obligations.DecodeEncodeAgree : Prop :=
  ∀ (i : Instr) (rest : List Byte), i.wellFormed = true → decode (encode i ++ rest) = .ok (i, rest)

/-- R90 to R95: what the decoder accepts is a well-formed command's bytes and then the rest, so no byte string has two
readings and no bit of a command is dropped. -/
def Obligations.DecodeAcceptsOnlyEncodings : Prop :=
  ∀ (bytes : List Byte) (i : Instr) (rest : List Byte), decode bytes = .ok (i, rest) →
    i.wellFormed = true ∧ bytes = encode i ++ rest

/-- R93: a command has the length its fields spell, and a byte string shorter than that is no command (D2). -/
def Obligations.LengthOfCommands : Prop :=
  ∀ i : Instr, i.wellFormed = true →
    (encode i).length = i.byteLength ∧
      ∀ n, n < i.byteLength → decode ((encode i).take n) = .error .badCommand

/-- R95, R318 (D48): an idle sequencer refuses a reserved id, a truncated command and a bad `valid` byte with
FAIL(BAD_COMMAND), no event and no other change. THE MODEL'S CHOICE (log entry 7): that an empty message is refused so
too, and that a refused message is taken off the port whole, whatever bytes follow in it. -/
def Obligations.MalformedMessagesRefused : Prop :=
  ∀ (s : State) (msg : List Byte) (rest : List (List Byte)),
    s.resetReq = false → s.seq = .idle → s.inbox = msg :: rest →
    (msg = [] ∨ (∃ c bs, msg = c :: bs ∧ c ∉ commandIds) ∨ (∃ v bs, msg = 0x1E :: v :: bs ∧ v ≠ 0 ∧ v ≠ 1)
      ∨ ∃ (i : Instr) (n : Nat), i.wellFormed = true ∧ n < i.byteLength ∧ msg = (encode i).take n) →
    step s = .next
      { s with inbox := rest, res := ⟨.fail, .kind .badCommand, .none⟩,
               results := s.results ++ [⟨.fail, .kind .badCommand, .none⟩] }

/-- R165 (D29): HUDI_SDIR with one of the 243 other opcodes is refused with FAIL(BAD_OPCODE), no event and no other
change, so it never reaches the TAP port. THE MODEL'S CHOICE (log entry 7): bytes `bs` after the opcode are ignored with
their message. -/
def Obligations.ReservedOpcodesRefused : Prop :=
  ∀ (s : State) (op : Byte) (bs : List Byte) (rest : List (List Byte)),
    s.resetReq = false → s.seq = .idle → s.inbox = (0x10 :: op :: bs) :: rest → op ∉ sdirOpcodes →
    step s = .next
      { s with inbox := rest, res := ⟨.fail, .kind .badOpcode, .none⟩,
               results := s.results ++ [⟨.fail, .kind .badOpcode, .none⟩] }

/-- spec/95_test_vectors.md 2.7 and section 3: words written out there decode to the commands they stand for. -/
def Obligations.SpecWordsDecode : Prop :=
  decode [0x01, 0x02] = .ok (.tmcResetBypass 2, [])
    ∧ decode [0x04, 0x00, 0x02] = .ok (.tmcSetPadding 512, [])
    ∧ decode [0x24, 0x00, 0x00, 0x01, 0x00, 0xEF, 0xBE, 0x00, 0x00] = .ok (.flashProgram 0x00010000 0x0000BEEF, [])
    ∧ decode [0x15, 0xA0, 0x02, 0x00, 0xFC, 0x02, 0x00, 0x01, 0x00, 0x00, 0x00, 0x02, 0x00, 0x00, 0x00]
        = .ok (.hudiWriteAseram 0xFC0002A0 [0x1, 0x2], [])
    ∧ decode [0x17, 0x15, 0x01, 0x00, 0x55, 0x55, 0xAA, 0xAA] = .ok (.hudiStartOverlay 21 [0xAAAA5555], [])
    ∧ decode [0x10, 0xFF] = .ok (.sdirBypass, [])
    ∧ decode [0x1E, 0x00] = .ok (.hudiLoadTable none, [])
    ∧ decode [0x30, 0x78, 0x56, 0x34, 0x12] = .ok (.dsuPeek 0x12345678, [])
    ∧ decode [0x22, 0x00, 0x00, 0x02, 0x00] = .ok (.flashEraseBlock 0x00020000, [])

/-- R109: no 16-bit key matches the rows of two different mnemonics. -/
def Obligations.OpcodeRowsDoNotOverlap : Prop :=
  ∀ (i j : Instr) (key : Word16),
    key &&& i.rowMask = i.rowMatch → key &&& j.rowMask = j.rowMatch → i.mnemonic = j.mnemonic

/-! ### Reset, the step and the host port -/

/-- R39: every element R39 gives a value has it (the padding, `cur_ovl`, the empty table and the free pairs are the
source's, the others the spec's own: D3, D17, D28, D44), and nothing has happened at the ports. -/
def Obligations.ResetStateValues : Prop :=
  State.reset.seq = .idle ∧ State.reset.res = ⟨.ok, .zero, .none⟩ ∧ State.reset.tmcAlloc = false
    ∧ State.reset.tmcPad = 512 ∧ State.reset.hudiAlloc = false ∧ State.reset.locked = false
    ∧ State.reset.mode = false ∧ State.reset.savedMode = false ∧ State.reset.curOvl = 0
    ∧ (∀ id : Fin 27, State.reset.ovl[id] = []) ∧ State.reset.driver = .none ∧ State.reset.dsuAlloc = false
    ∧ State.reset.trace = []

/-- The invariant `Inv` (R29, R31, R32, R258, R21, R62) holds right after reset. -/
def Obligations.InvHoldsAtReset : Prop := Inv State.reset

/-- Every step of the machine keeps `Inv`: `locked` implies `mode` (R29), the current overlay's entry is not EMPTY (R205,
R214), the table is well-formed, a driver has the platform's width (R258), a running command issues only its own unit's
primitives, and only the widths of R62 and R70 are issued. -/
def Obligations.StepKeepsInv : Prop :=
  ∀ s t : State, Inv s → step s = .next t → Inv t

/-- R90, R347: with no reset applied, an idle sequencer takes the oldest message and runs one step of the command it
decodes to, and of nothing else. THE MODEL'S CHOICE (log entry 7): bytes `tail` after the command are dropped with
their message. -/
def Obligations.StepRunsDecodedCommand : Prop :=
  ∀ (s : State) (msg : List Byte) (rest : List (List Byte)) (i : Instr) (tail : List Byte),
    s.resetReq = false → s.seq = .idle → s.inbox = msg :: rest → decode msg = .ok (i, tail) →
    step s = exec i { s with inbox := rest }

/-- R21, R347 (D3): with no reset applied, a busy sequencer runs the next step of the running command, whatever
waits on the port, and leaves the port alone. -/
def Obligations.StepContinuesRunningCommand : Prop :=
  ∀ (s : State) (cmd : Instr) (k : Nat) (q : Prim) (rest : List MicroOp) (loc : Local),
    s.resetReq = false → s.seq = .busy cmd k q rest loc →
    step s = exec cmd s ∧ ∃ t, exec cmd s = .next t ∧ t.inbox = s.inbox

/-- R340 (D46), R348: a sequencer reset is taken before anything else, in any position, emits no event, and leaves R39's
values. THE MODEL'S CHOICE (log entry 8): the commands still held stay, and no result is returned for a command that the
reset cuts off. -/
def Obligations.SequencerResetTaken : Prop :=
  ∀ s : State, s.resetReq = true →
    ∃ t, step s = .next t ∧ t.seq = .idle ∧ t.res = ⟨.ok, .zero, .none⟩ ∧ t.tmcAlloc = false ∧ t.tmcPad = 512
      ∧ t.hudiAlloc = false ∧ t.locked = false ∧ t.mode = false ∧ t.savedMode = false ∧ t.curOvl = 0
      ∧ (∀ id : Fin 27, t.ovl[id] = []) ∧ t.driver = .none ∧ t.dsuAlloc = false
      ∧ t.trace = s.trace ∧ t.results = s.results ∧ t.inbox = s.inbox ∧ t.resetReq = false

/-- R340, R325: an idle sequencer with no command waits and keeps all its state. -/
def Obligations.IdleSequencerWaits : Prop :=
  ∀ s : State, s.resetReq = false → s.seq = .idle → s.inbox = [] → step s = .next s

/-- R347 (D3): a message that arrives while a command runs, one for the same command among them, is held: the step is
the running command's, the same as without it, and the message still waits at the end of the port. THE MODEL'S CHOICE
(log entry 11): `exec` of a command other than the running one, which `step` never calls, puts it there. -/
def Obligations.CommandWhileBusyIsHeld : Prop :=
  ∀ (s : State) (cmd : Instr) (k : Nat) (q : Prim) (rest : List MicroOp) (loc : Local),
    s.seq = .busy cmd k q rest loc →
    (s.resetReq = false → ∀ msg : List Byte, ∃ t, step s = .next t ∧ t.inbox = s.inbox
        ∧ step { s with inbox := s.inbox ++ [msg] } = .next { t with inbox := s.inbox ++ [msg] })
      ∧ ∀ i : Instr, i ≠ cmd → exec i s = .next { s with inbox := s.inbox ++ [encode i] }

/-- R315 (D44), R321: no state and no message stops the machine: every step has a next state. -/
def Obligations.EveryStepHasNext : Prop :=
  ∀ s : State, ∃ t, step s = .next t

/-- R21 (D3), R22, R69: one step of a running command emits exactly one event; then either the command ended, idle with
one more result that is `S.res`, or it is busy, with no result yet, at its next primitive, at the same one in a poll, or
in the wait for a misaligned bus access that the platform never completes, whose steps change nothing. DEDUCED (log
entry 13), the model's inference from R69: that a misaligned access either completes, and the command goes on as after
an aligned one, or leaves the command in that wait, and does nothing else. -/
def Obligations.RunningStepEmitsOneEvent : Prop :=
  ∀ (s : State) (cmd : Instr) (k : Nat) (q : Prim) (rest : List MicroOp) (loc : Local),
    s.seq = .busy cmd k q rest loc →
    (q = .busWait → exec cmd s = .next s)
    ∧ (q ≠ .busWait → ∃ t e, exec cmd s = .next t ∧ t.trace = s.trace ++ [e] ∧
      ((t.seq = .idle ∧ t.results = s.results ++ [t.res])
        ∨ (t.results = s.results ∧ t.res = s.res ∧ ∃ k' q' rest' loc', t.seq = .busy cmd k' q' rest' loc' ∧
            (k' = k + 1 ∨ (k' = k ∧ q' = q ∧ ∃ bus addr, q = .pollReady bus addr)
              ∨ (k' = k ∧ q' = .busWait ∧ ∃ bus addr, aligned bus addr = false ∧
                  (q = .memRead bus addr ∨ q = .pollReady bus addr ∨ ∃ v, q = .memWrite bus addr v))))))

/-! ### TAP-Mux unit (spec/40_tapmux.md) -/

/-- R105, R122: TMC_RESET_BYPASS with a channel above 3 fails with INVALID_CHANNEL, no event and no state change. -/
def Obligations.InvalidChannelFails : Prop :=
  ∀ (s : State) (ch : Byte), s.seq = .idle → 3 < ch.toNat →
    exec (.tmcResetBypass ch) s = .next (s.completed 0 [] ⟨.fail, .kind .invalidChannel, .none⟩)

/-- R122 (D20, D51), R123: TMC_RESET_BYPASS of a channel 0..3 emits the raw sequence of the channel's routing code, each
signal with its outcome and its settle delay, and returns Ok whatever the outcomes. -/
def Obligations.ResetBypassRuns : Prop :=
  ∀ (s : State) (c : Fin 4), s.seq = .idle →
    let raws := Config.params.rawSeq (Config.params.bypassTable c).1 (Config.params.bypassTable c).2
    encode (.tmcResetBypass (BitVec.ofNat 8 c.val)) = [0x01, BitVec.ofNat 8 c.val] ∧
    execTimes (max 1 (2 * raws.length)) (.tmcResetBypass (BitVec.ofNat 8 c.val)) s = .next
      { s.completed raws.length (rawEvents s raws) ⟨.ok, .zero, .none⟩ with
        tmcAlloc := true
        rir := if s.tmcAlloc then s.rir else 0
        wir := if s.tmcAlloc then s.wir else 0 }

/-- R124 (D21): TMC_READ_DEVICE_ID is five events: Run-Test/Idle, the select pattern of the padding, the ID-code
instruction, the 32-bit read, the deselect pattern; its result is the word read. -/
def Obligations.ReadDeviceIdRuns : Prop :=
  ∀ (s : State) (sel : Word32), s.seq = .idle →
    let w1 := Config.params.tmcSelectPattern sel s.tmcPad
    let w2 := Config.params.tmcDeselectPattern s.tmcPad
    execTimes 5 (.tmcReadDeviceId sel) s = .next
      { s.completed 4
          [.tapIdle, .tapDR w1.width w1.value (s.answer w1.width),
           .tapIR 5 Config.params.tmcIdcodeOp ((s.drawnBy 1).answer 5), .tapDR 32 0 ((s.drawnBy 2).answer 32),
           .tapDR w2.width w2.value ((s.drawnBy 3).answer w2.width)]
          ⟨.ok, .zero, .word ((s.drawnBy 2).answer 32)⟩ with
        tmcAlloc := true, wir := Config.params.tmcIdcodeOp, rir := (s.drawnBy 1).answer 5 }

/-- R125 (D50): TMC_READ_CHIP_ID is TapIR(5, 0x04) and TapDR(32, 0); its result is the word read. -/
def Obligations.ReadChipIdRuns : Prop :=
  ∀ s : State, s.seq = .idle →
    execTimes 2 .tmcReadChipId s = .next
      { s.completed 2 [.tapIR 5 0x04 (s.answer 5), .tapDR 32 0 ((s.drawnBy 1).answer 32)]
          ⟨.ok, .zero, .word ((s.drawnBy 1).answer 32)⟩ with
        tmcAlloc := true, wir := 0x04, rir := s.answer 5 }

/-- R126 (D22): TMC_SET_PADDING sets the padding and nothing else: no event and no TmcInit. -/
def Obligations.SetPaddingRuns : Prop :=
  ∀ (s : State) (pad : Word16), s.seq = .idle →
    exec (.tmcSetPadding pad) s = .next { s.completed 0 [] ⟨.ok, .zero, .none⟩ with tmcPad := pad }

/-- R127, R216, R299: a teardown frees its unit's pair, whose values become unspecified, and is Ok with no event,
whether or not the pair was allocated; every other element is kept. The two values are free (log entry 3). -/
def Obligations.TeardownsFreePairs : Prop :=
  ∀ s : State, s.seq = .idle →
    (∃ a b, exec .tmcTeardown s = .next
      { s.completed 0 [] ⟨.ok, .zero, .none⟩ with tmcAlloc := false, rir := a, wir := b, frees := s.frees + 2 })
    ∧ (∃ a b, exec .hudiTeardown s = .next
      { s.completed 0 [] ⟨.ok, .zero, .none⟩ with hudiAlloc := false, rsdir := a, wsdir := b, frees := s.frees + 2 })
    ∧ ∃ a b, exec .dsuTeardown s = .next
      { s.completed 0 [] ⟨.ok, .zero, .none⟩ with dsuAlloc := false, dsurir := a, dsuwir := b, frees := s.frees + 2 }

/-- R129: no TAP-Mux command changes the HUDI or the DSU unit's state, and no other unit's command changes the TAP-Mux
unit's; each unit's state is its own, and only a flash command emits a bus event (R61). -/
def Obligations.UnitsAreIsolated : Prop :=
  ∀ (s t : State) (i : Instr), Inv s → exec i s = .next t →
    (unitOf i ≠ .tmc → t.tmcAlloc = s.tmcAlloc ∧ t.rir = s.rir ∧ t.wir = s.wir ∧ t.tmcPad = s.tmcPad)
    ∧ (unitOf i ≠ .hudi → t.hudiAlloc = s.hudiAlloc ∧ t.rsdir = s.rsdir ∧ t.wsdir = s.wsdir ∧ t.locked = s.locked
        ∧ t.mode = s.mode ∧ t.savedMode = s.savedMode ∧ t.curOvl = s.curOvl ∧ t.ovl = s.ovl)
    ∧ (unitOf i ≠ .dsu → t.dsuAlloc = s.dsuAlloc ∧ t.dsurir = s.dsurir ∧ t.dsuwir = s.dsuwir)
    ∧ (unitOf i ≠ .flash → t.driver = s.driver ∧ ∃ es, t.trace = s.trace ++ es ∧
        ∀ e ∈ es, ∀ addr n, (∀ v, e ≠ .memRead addr n v) ∧ e ≠ .memReadOpen addr n ∧ ∀ v, e ≠ .memWrite addr n v)

/-! ### HUDI unit: instruction and data registers (spec/41_hudi.md) -/

/-- R152, R153, R156 to R164 (the mode rows are the spec's choice, D23): each of the eleven opcodes other than 0x20 and
0x21 is one event TapIR(8, op); an unlocked mode becomes 1, a locked one stays. -/
def Obligations.SdirOpcodesRun : Prop :=
  ∀ (s : State) (i : Instr) (op : Byte), s.seq = .idle →
    (i, op) ∈ [(Instr.sdirExtest, (0x00 : Byte)), (.sdirSamplePreload, 0x04), (.sdirTdoTimingChange, 0x22),
      (.sdirWaitCancel, 0x23), (.sdirAseramWrite, 0x50), (.sdirResetNegate, 0x60), (.sdirResetAssert, 0x70),
      (.sdirBoot, 0x80), (.sdirInterrupt, 0xA0), (.sdirBreak, 0xC0), (.sdirBypass, 0xFF)] →
    encode i = [0x10, op] ∧
    exec i s = .next
      { s.completed 1 [.tapIR 8 op (s.answer 8)] ⟨.ok, .zero, .none⟩ with
        hudiAlloc := true, wsdir := op, rsdir := s.answer 8, mode := if s.locked then s.mode else true }

/-- R154: SDIR_ISR_START is one event TapIR(8, 0x20); it saves the mode, locks, and makes the mode 1. -/
def Obligations.IsrStartRuns : Prop :=
  ∀ s : State, s.seq = .idle →
    encode .sdirIsrStart = [0x10, 0x20] ∧
    exec .sdirIsrStart s = .next
      { s.completed 1 [.tapIR 8 0x20 (s.answer 8)] ⟨.ok, .zero, .none⟩ with
        hudiAlloc := true, wsdir := 0x20, rsdir := s.answer 8, savedMode := s.mode, locked := true, mode := true }

/-- R155: SDIR_ISR_END is one event TapIR(8, 0x21); it unlocks and restores the saved mode, which keeps its value. -/
def Obligations.IsrEndRuns : Prop :=
  ∀ s : State, s.seq = .idle →
    encode .sdirIsrEnd = [0x10, 0x21] ∧
    exec .sdirIsrEnd s = .next
      { s.completed 1 [.tapIR 8 0x21 (s.answer 8)] ⟨.ok, .zero, .none⟩ with
        hudiAlloc := true, wsdir := 0x21, rsdir := s.answer 8, locked := false, mode := s.savedMode }

/-- R170: SDIR 0x20 and then 0x21, with any data reads and writes between them, leaves the mode as it was, unlocked, and
saves that mode; each of the commands between is one step. -/
def Obligations.StatusBracketRestoresMode : Prop :=
  ∀ (s : State) (between : List Instr), s.seq = .idle →
    (∀ c ∈ between, c = .hudiReadData ∨ ∃ d, c = .hudiWriteData d) →
    ∃ t, execEach (.sdirIsrStart :: between ++ [.sdirIsrEnd]) s = .next t ∧ t.seq = .idle ∧ t.mode = s.mode
      ∧ t.savedMode = s.mode ∧ t.locked = false

/-- R26, R27, R28 (who writes the flags): one step changes `locked` only with a TapIR(8, 0x20) or TapIR(8, 0x21) event,
`saved_mode` only with TapIR(8, 0x20), and `mode` only with a TapIR(8, _) event or, unlocked, a TapDR(32, _) event; and,
from a state that meets `Inv`, only a HUDI command's step changes one of them. -/
def Obligations.ModeFlagsChangeOnlyByHudiShifts : Prop :=
  ∀ (s t : State) (i : Instr), exec i s = .next t →
    (t.locked ≠ s.locked →
      ∃ op c, (op = 0x20 ∨ op = 0x21) ∧ t.trace = s.trace ++ [.tapIR 8 op c])
    ∧ (t.savedMode ≠ s.savedMode → ∃ c, t.trace = s.trace ++ [.tapIR 8 0x20 c])
    ∧ (t.mode ≠ s.mode →
      (∃ op c, t.trace = s.trace ++ [.tapIR 8 op c])
        ∨ (s.locked = false ∧ ∃ d c, t.trace = s.trace ++ [.tapDR 32 d c]))
    ∧ (Inv s → t.locked ≠ s.locked ∨ t.savedMode ≠ s.savedMode ∨ t.mode ≠ s.mode → unitOf i = .hudi)

/-- R165, R98: a step of a HUDI command that shifts an instruction register shifts one of the 13 defined opcodes. -/
def Obligations.HudiSendsOnlyDefinedOpcodes : Prop :=
  ∀ (s t : State) (i : Instr) (n : Nat) (v c : BitVec n), Inv s → unitOf i = .hudi → exec i s = .next t →
    t.trace = s.trace ++ [.tapIR n v c] → n = 8 ∧ v.setWidth 8 ∈ sdirOpcodes

/-- R166 (D27): HUDI_INITIAL_STATE is TapTLR and TapIR(8, 0x60); an unlocked mode becomes 1, a locked one stays. -/
def Obligations.InitialStateRuns : Prop :=
  ∀ s : State, s.seq = .idle →
    execTimes 2 .hudiInitialState s = .next
      { s.completed 1 [.tapTLR, .tapIR 8 0x60 (s.answer 8)] ⟨.ok, .zero, .none⟩ with
        hudiAlloc := true, wsdir := 0x60, rsdir := s.answer 8, mode := if s.locked then s.mode else true }

/-- R167, R168 (D25, D26): HUDI_READ_DATA is one 32-bit read when the mode is 1, and the two events of `initial_state`
before it when the mode is 0; its result is the word read, and the read itself changes no flag. -/
def Obligations.ReadDataRuns : Prop :=
  ∀ s : State, s.seq = .idle →
    (s.mode = true → exec .hudiReadData s = .next
      { s.completed 1 [.tapDR 32 0 (s.answer 32)] ⟨.ok, .zero, .word (s.answer 32)⟩ with
        hudiAlloc := true
        rsdir := if s.hudiAlloc then s.rsdir else 0
        wsdir := if s.hudiAlloc then s.wsdir else 0 })
    ∧ (s.mode = false → execTimes 3 .hudiReadData s = .next
      { s.completed 2 [.tapTLR, .tapIR 8 0x60 (s.answer 8), .tapDR 32 0 ((s.drawnBy 1).answer 32)]
          ⟨.ok, .zero, .word ((s.drawnBy 1).answer 32)⟩ with
        hudiAlloc := true, rsdir := s.answer 8, wsdir := 0x60, mode := !s.locked })

/-- R167, R169 (D24, conflict C11): HUDI_WRITE_DATA is the shift of `d`, after `initial_state` when the mode is 0; then
an unlocked mode is `d[0]` under COPY_BIT0 and `NOT d[0]` under XOR_BIT0, and a locked one stays. -/
def Obligations.WriteDataRuns : Prop :=
  ∀ (s : State) (d : Word32), s.seq = .idle →
    let m := modeAfterData Config.params.unlockedModeUpdate d
    (s.mode = true → exec (.hudiWriteData d) s = .next
      { s.completed 1 [.tapDR 32 d (s.answer 32)] ⟨.ok, .zero, .none⟩ with
        hudiAlloc := true
        rsdir := if s.hudiAlloc then s.rsdir else 0
        wsdir := if s.hudiAlloc then s.wsdir else 0
        mode := if s.locked then true else m })
    ∧ (s.mode = false → execTimes 3 (.hudiWriteData d) s = .next
      { s.completed 2 [.tapTLR, .tapIR 8 0x60 (s.answer 8), .tapDR 32 d ((s.drawnBy 1).answer 32)]
          ⟨.ok, .zero, .none⟩ with
        hudiAlloc := true, rsdir := s.answer 8, wsdir := 0x60, mode := if s.locked then false else m })

/-- R171 (D30): HUDI_READ_INTERNAL_STATUS is ten events, eight reads in the 0x20/0x21 bracket; it ends unlocked with the
mode it found, also saved, and returns the eight words and their fields. -/
def Obligations.ReadInternalStatusRuns : Prop :=
  ∀ s : State, s.seq = .idle →
    let raw : Vector Word32 8 := Vector.ofFn fun k => (s.drawnBy (k.val + 1)).answer 32
    execTimes 10 .hudiReadInternalStatus s = .next
      { s.completed 10 (shotEvents s (.ir 8 0x20 :: List.replicate 8 (.dr 32 0) ++ [.ir 8 0x21]))
          ⟨.ok, .zero, .status raw (Config.params.isrFields raw)⟩ with
        hudiAlloc := true, wsdir := 0x21, rsdir := (s.drawnBy 9).answer 8
        locked := false, mode := s.mode, savedMode := s.mode }

/-! ### HUDI unit: ASE RAM, overlays, attach (spec/42_hudi_overlay.md) -/

/-- R99, R200: the descriptor is `(end << 16) | start`, with bits 31:26 and 15:10 zero; and R201 (the spec's choice,
D31): start is boot[9:0]. -/
def Obligations.DescriptorLayout : Prop :=
  ∀ (rule : AseramEndRule) (boot : Word32) (size : Nat),
    let d := aseramDescriptor rule boot size
    d.toNat = (aseramEnd rule boot size).toNat * 65536 + (aseramStart boot).toNat
      ∧ d.extractLsb' 26 6 = 0 ∧ d.extractLsb' 16 10 = aseramEnd rule boot size
      ∧ d.extractLsb' 10 6 = 0 ∧ d.extractLsb' 0 10 = aseramStart boot
      ∧ (aseramStart boot).toNat = boot.toNat % 1024

/-- R201 (D31): the end offset under both readings, modulo 1024. -/
def Obligations.AseramEndOffsets : Prop :=
  ∀ (boot : Word32) (size : Nat),
    (aseramEnd .relativeToStart boot size).toNat = (boot.toNat % 1024 + size * 4 + 1022) % 1024
      ∧ (aseramEnd .relativeToZero boot size).toNat = (size * 4 + 1022) % 1024

/-- R202, R203 (D32): HUDI_WRITE_ASERAM is 2 + size events: AseramWrite, the descriptor, the words in order, as raw
shifts that neither re-synchronise nor touch the mode. -/
def Obligations.WriteAseramRuns : Prop :=
  ∀ (s : State) (boot : Word32) (words : List Word32), s.seq = .idle →
    execTimes (2 + words.length) (.hudiWriteAseram boot words) s = .next
      { s.completed (2 + words.length) (shotEvents s (aseramShots Config.params boot words)) ⟨.ok, .zero, .none⟩ with
        hudiAlloc := true, wsdir := 0x50, rsdir := s.answer 8, mode := if s.locked then s.mode else true }

/-- R204, R205, R207, R317 (D33): an id outside 1..26 fails with BAD_OVERLAY_ID and changes nothing; a valid id whose
entry is EMPTY and not current fails with NO_OVERLAY and no event. -/
def Obligations.OverlayRefusals : Prop :=
  ∀ (s : State) (payload : List Word32), s.seq = .idle →
    (∀ id : Byte, id = 0 ∨ 26 < id.toNat →
      exec (.hudiLoadOverlay id) s = .next (s.completed 0 [] ⟨.fail, .kind .badOverlayId, .none⟩)
      ∧ exec (.hudiStartOverlay id payload) s = .next (s.completed 0 [] ⟨.fail, .kind .badOverlayId, .none⟩))
    ∧ ∀ id : Fin 27, id ≠ 0 → s.curOvl ≠ id → s.ovl[id] = [] →
      ∀ i ∈ [Instr.hudiLoadOverlay (BitVec.ofNat 8 id.val), .hudiStartOverlay (BitVec.ofNat 8 id.val) payload],
        exec i s = .next
          { s.completed 0 [] ⟨.fail, .kind .noOverlay, .none⟩ with
            hudiAlloc := true
            rsdir := if s.hudiAlloc then s.rsdir else 0
            wsdir := if s.hudiAlloc then s.wsdir else 0 }

/-- R205 (D33, D34), conflict C13: HUDI_LOAD_OVERLAY of a loaded entry that is not current uploads its segments in
order, then one Bypass, and makes it current. -/
def Obligations.LoadOverlayUploads : Prop :=
  ∀ (s : State) (id : Fin 27), s.seq = .idle → id ≠ 0 → s.curOvl ≠ id → s.ovl[id] ≠ [] →
    let shots := overlayShots Config.params s.ovl[id]
    execTimes shots.length (.hudiLoadOverlay (BitVec.ofNat 8 id.val)) s = .next
      { s.completed shots.length (shotEvents s shots) ⟨.ok, .zero, .none⟩ with
        hudiAlloc := true, wsdir := 0xFF, rsdir := (s.drawnBy (shots.length - 1)).answer 8
        mode := if s.locked then s.mode else true, curOvl := id }

/-- R206: loading the same id twice uploads once, the second command emitting no event; an id that is not current always
uploads. -/
def Obligations.LoadOverlayIdempotent : Prop :=
  ∀ (s : State) (id : Fin 27), s.seq = .idle → id ≠ 0 → s.ovl[id] ≠ [] →
    ∃ t u, execTimes (max 1 (loadShots Config.params s id).length) (.hudiLoadOverlay (BitVec.ofNat 8 id.val)) s = .next t
      ∧ t.seq = .idle ∧ t.res = ⟨.ok, .zero, .none⟩ ∧ t.curOvl = id
      ∧ t.trace = s.trace ++ shotEvents s (loadShots Config.params s id)
      ∧ (s.curOvl ≠ id → s.trace.length < t.trace.length)
      ∧ exec (.hudiLoadOverlay (BitVec.ofNat 8 id.val)) t = .next u
      ∧ u.seq = .idle ∧ u.res = ⟨.ok, .zero, .none⟩ ∧ u.curOvl = id ∧ u.trace = t.trace

/-- R207 (D35): HUDI_START_OVERLAY of a loaded (or current) id: the load, the payload at 0xFC0002A0 if there is one, the
signal word at 0xFC0003FC, and ResetNegate. -/
def Obligations.StartOverlayRuns : Prop :=
  ∀ (s : State) (id : Fin 27) (payload : List Word32), s.seq = .idle → id ≠ 0 → (s.curOvl = id ∨ s.ovl[id] ≠ []) →
    let shots := loadShots Config.params s id ++ startShots Config.params payload
    execTimes shots.length (.hudiStartOverlay (BitVec.ofNat 8 id.val) payload) s = .next
      { s.completed shots.length (shotEvents s shots) ⟨.ok, .zero, .none⟩ with
        hudiAlloc := true, wsdir := 0x60, rsdir := (s.drawnBy (shots.length - 1)).answer 8
        mode := if s.locked then s.mode else true, curOvl := id }

/-- R208 (D36), R313: with both boot overlays loaded, HUDI_ATTACH emits its whole choreography, the stubs emitting
nothing, and its result is NOT_IMPLEMENTED(ATTACH). -/
def Obligations.AttachRuns : Prop :=
  ∀ s : State, s.seq = .idle →
    (s.curOvl = Config.params.ovlBootInit ∨ s.ovl[Config.params.ovlBootInit] ≠ []) →
    s.ovl[Config.params.ovlBootReset] ≠ [] →
    let shots := loadShots Config.params s Config.params.ovlBootInit ++ startShots Config.params []
      ++ overlayShots Config.params s.ovl[Config.params.ovlBootReset] ++ [.ir 8 0x60, .ir 8 0x80, .ir 8 0x70]
    execTimes shots.length .hudiAttach s = .next
      { s.completed shots.length (shotEvents s shots) ⟨.notImplemented, .stub .attach, .none⟩ with
        hudiAlloc := true, wsdir := 0x70, rsdir := (s.drawnBy (shots.length - 1)).answer 8
        mode := if s.locked then s.mode else true, curOvl := Config.params.ovlBootReset }

/-- R208, R315: HUDI_ATTACH whose BOOT_INIT entry is EMPTY fails with NO_OVERLAY and no event; whose BOOT_RESET entry
alone is EMPTY, it fails so after the events of the BOOT_INIT start, which stay, and emits nothing more. -/
def Obligations.AttachFailsFast : Prop :=
  ∀ s : State, s.seq = .idle →
    (s.curOvl ≠ Config.params.ovlBootInit → s.ovl[Config.params.ovlBootInit] = [] →
      exec .hudiAttach s = .next
        { s.completed 0 [] ⟨.fail, .kind .noOverlay, .none⟩ with
          hudiAlloc := true
          rsdir := if s.hudiAlloc then s.rsdir else 0
          wsdir := if s.hudiAlloc then s.wsdir else 0 })
    ∧ ((s.curOvl = Config.params.ovlBootInit ∨ s.ovl[Config.params.ovlBootInit] ≠ []) →
      s.ovl[Config.params.ovlBootReset] = [] →
      let shots := loadShots Config.params s Config.params.ovlBootInit ++ startShots Config.params []
      execTimes shots.length .hudiAttach s = .next
        { s.completed shots.length (shotEvents s shots) ⟨.fail, .kind .noOverlay, .none⟩ with
          hudiAlloc := true, wsdir := 0x60, rsdir := (s.drawnBy (shots.length - 1)).answer 8
          mode := if s.locked then s.mode else true, curOvl := Config.params.ovlBootInit })

/-- R209 to R213, R313 (D37, D38): the HUDI stubs return NOT_IMPLEMENTED with their own name, emit no event and change
nothing but the lazy init of the pair. -/
def Obligations.HudiStubsReturnNotImplemented : Prop :=
  ∀ (s : State) (i : Instr) (n : StubName), s.seq = .idle →
    (i, n) ∈ [(Instr.hudiDetach, StubName.detach), (.hudiServiceAsemode, .serviceAsemode),
      (.hudiWaitAsemode, .waitAsemode), (.hudiInitAsemode, .initAsemode), (.hudiInterruptTarget, .interruptTarget)] →
    exec i s = .next
      { s.completed 0 [] ⟨.notImplemented, .stub n, .none⟩ with
        hudiAlloc := true
        rsdir := if s.hudiAlloc then s.rsdir else 0
        wsdir := if s.hudiAlloc then s.wsdir else 0 }

/-- R214 (D34, D45), conflict C5: HUDI_LOAD_TABLE replaces the whole table and clears the current overlay; a failed host
load (`valid = 0`) fails with LOAD_FAILED and leaves every entry EMPTY. No event, no lazy init. -/
def Obligations.LoadTableRuns : Prop :=
  ∀ (s : State) (table : OverlayTable), s.seq = .idle →
    exec (.hudiLoadTable (some table)) s = .next
      { s.completed 0 [] ⟨.ok, .zero, .none⟩ with ovl := table, curOvl := 0 }
    ∧ ∃ t, exec (.hudiLoadTable none) s = .next t ∧ (∀ id : Fin 27, t.ovl[id] = [])
      ∧ { t with ovl := s.ovl } = { s.completed 0 [] ⟨.fail, .kind .loadFailed, .none⟩ with curOvl := 0 }

/-! ### Flash engine (spec/43_flash.md) -/

/-- R243, R245, R246: a 32-bit transfer is `(c << 16) | c`, and a 32-bit status is ready, or exactly ready, just when
both 16-bit halves are; so a half-ready status is not ready. -/
def Obligations.DualChipLanes : Prop :=
  (∀ c : Word16, dbl c = (c.setWidth 32 <<< 16) ||| c.setWidth 32 ∧ (dbl c).extractLsb' 0 16 = c
      ∧ (dbl c).extractLsb' 16 16 = c)
    ∧ ∀ (m : StatusMasks) (sr : Word32),
      let lo : Word32 := (sr.extractLsb' 0 16).setWidth 32
      let hi : Word32 := (sr.extractLsb' 16 16).setWidth 32
      (ready m .w32 sr = (ready m .w16 lo && ready m .w16 hi))
        ∧ (exact m .w32 sr = (exact m .w16 lo && exact m .w16 hi))

/-- R247 (the doubling on the 32-bit bus is D13): under any masks R103 allows, a ready masked status is OK with no error
bit, one of the three codes with exactly its two error bits, and UNKNOWN otherwise. -/
def Obligations.EraseClassification : Prop :=
  ∀ (m : StatusMasks) (bus : BusWidth) (sr : Word32), m.valid = true → ready m bus sr = true →
    let rdy := readyPattern m bus
    (classifyErase m bus sr = .ok ↔ sr = rdy)
    ∧ (classifyErase m bus sr = .invalidCommandSequence ↔ sr = rdy ||| busPattern bus (m.eraseError ||| m.programError))
    ∧ (classifyErase m bus sr = .lowVpen ↔ sr = rdy ||| busPattern bus (m.eraseError ||| m.vpenError))
    ∧ (classifyErase m bus sr = .blockLocked ↔ sr = rdy ||| busPattern bus (m.eraseError ||| m.blockLocked))
    ∧ classifyErase m bus sr ≠ .timeout

/-- R249, R343 (D17): with no driver selected, the five other flash commands fail with NO_DRIVER and no bus event. -/
def Obligations.FlashNeedsDriver : Prop :=
  ∀ (s : State) (addr data : Word32), s.seq = .idle → s.driver = .none →
    ∀ i ∈ [Instr.flashPrintInfo addr, .flashEraseBlock addr, .flashUnlockBlock addr, .flashProgram addr data,
      .flashReadArray addr],
      exec i s = .next (s.completed 0 [] ⟨.fail, .kind .noDriver, .none⟩)

/-- R258 (D17): FLASH_AUTODETECT selects the driver of the platform's bus width when the identification is
CFI_INTEL_ID, and none, with FAIL(NO_DRIVER), otherwise; no event. -/
def Obligations.AutodetectRuns : Prop :=
  ∀ (s : State) (cfiId : Word16), s.seq = .idle →
    let d := driverOf Config.params.busWidth
    exec (.flashAutodetect cfiId) s = .next
      (if cfiId = Config.params.cfiIntelId then
        { s.completed 0 [] ⟨.ok, .zero, .driver d⟩ with driver := d }
      else { s.completed 0 [] ⟨.fail, .kind .noDriver, .none⟩ with driver := .none })

/-- R250 (D12), R251: at an aligned address (R69), FLASH_ERASE_BLOCK writes Clear-Status, Block-Erase and Confirm there
in three steps, and its fourth step is the first read of the ready poll. -/
def Obligations.EraseBlockRuns : Prop :=
  ∀ (s : State) (addr : Word32) (bus : BusWidth), s.seq = .idle → s.driver.bus? = some bus → aligned bus addr = true →
    let w := fun c : Byte => Event.memWrite addr bus.bits ((busPattern bus c).setWidth bus.bits)
    let cs := Config.params.flashCodes
    let loc := Local.start (.erase bus)
    let s3 := { s with trace := s.trace ++ [w cs.clearStatus, w cs.blockErase, w cs.confirm]
                       seq := .busy (.flashEraseBlock addr) 3 (.pollReady bus addr) [] loc }
    execTimes 3 (.flashEraseBlock addr) s = .next s3
      ∧ execTimes 4 (.flashEraseBlock addr) s
        = .next (afterPoll Config.params (.flashEraseBlock addr) 3 bus addr loc s3)

/-- R253, R254 (D12, D14, D53), R251: at an aligned address (R69), FLASH_UNLOCK_BLOCK writes Clear-Status, Lock-Setup and
Unlock-Block, and FLASH_PROGRAM writes Clear-Status, Program-setup and the data modulo 2^W, not doubled; the fourth step
of each is the first read of the ready poll. -/
def Obligations.UnlockAndProgramRun : Prop :=
  ∀ (s : State) (addr data : Word32) (bus : BusWidth),
    s.seq = .idle → s.driver.bus? = some bus → aligned bus addr = true →
    let w := fun c : Byte => Event.memWrite addr bus.bits ((busPattern bus c).setWidth bus.bits)
    let cs := Config.params.flashCodes
    let loc := Local.start (.exact bus)
    let s3 := fun (i : Instr) (es : List Event) =>
      { s with trace := s.trace ++ es, seq := .busy i 3 (.pollReady bus addr) [] loc }
    let unlock := Instr.flashUnlockBlock addr
    let program := Instr.flashProgram addr data
    let us := s3 unlock [w cs.clearStatus, w cs.lockSetup, w cs.unlockBlock]
    let ps := s3 program [w cs.clearStatus, w cs.program, .memWrite addr bus.bits (data.setWidth bus.bits)]
    execTimes 3 unlock s = .next us ∧ execTimes 4 unlock s = .next (afterPoll Config.params unlock 3 bus addr loc us)
      ∧ execTimes 3 program s = .next ps
      ∧ execTimes 4 program s = .next (afterPoll Config.params program 3 bus addr loc ps)

/-- R251, R252 (D16), R348, for all parameters, at an aligned address (R69): while the first n reads are not ready and
the limit is not reached, the poll reads the address n times, stays at the same primitive and returns no result; a
finite POLL_LIMIT reached at n gives TIMEOUT; a ready read ends the command with its classification, erase's (R250, D13)
or that of unlock and program (R253, R254, D14). -/
def Obligations.ReadyPollLoops : Prop :=
  ∀ (p : Params) (n : Nat) (s : State) (cmd : Instr) (k : Nat) (bus : BusWidth) (addr : Word32) (loc : Local),
    s.seq = .busy cmd k (.pollReady bus addr) [] loc → aligned bus addr = true →
    loc.polls = 0 → (loc.fin = .erase bus ∨ loc.fin = .exact bus) →
    (∀ sr ∈ pollStatuses bus n s, ready p.statusMasks bus sr = false) →
    ((∀ m, p.pollLimit = some m → n < m) →
      ∃ loc', { execTimesWith p n cmd s with seq := s.seq } = { s.drawnBy n with trace := s.trace ++ readEvents bus addr n s }
        ∧ (execTimesWith p n cmd s).seq = .busy cmd k (.pollReady bus addr) [] loc' ∧ loc'.polls = n
        ∧ (ready p.statusMasks bus ((s.drawnBy n).pollStatus bus) = true →
            execTimesWith p (n + 1) cmd s = s.completed (n + 1) (readEvents bus addr (n + 1) s)
              (Result.flash (if loc.fin = .erase bus
                then classifyErase p.statusMasks bus ((s.drawnBy n).pollStatus bus)
                else if exact p.statusMasks bus ((s.drawnBy n).pollStatus bus) then .ok else .unknown))))
    ∧ (p.pollLimit = some n →
      execTimesWith p n cmd s = s.completed n (readEvents bus addr n s) ⟨.fail, .flash .timeout, .none⟩)

/-- R256 (D18): under any parameters, where the base and the two id addresses are aligned (R69), FLASH_PRINT_INFO is five
bus events: Clear-Status, read-id, the two id reads at their offsets, and read-array; its result holds both raw words,
the ids and the chip's name. The machine's parameters are `Config.params`. THE MODEL'S CHOICE (log entry 15): the raw
words stand zero-extended to 32 bits. -/
def Obligations.PrintInfoRuns : Prop :=
  ∀ (s : State) (base : Word32) (bus : BusWidth), s.seq = .idle → s.driver.bus? = some bus → aligned bus base = true →
    execTimes 5 (.flashPrintInfo base) s = .next (execTimesWith Config.params 5 (.flashPrintInfo base) s)
    ∧ ∀ p : Params,
      let w := fun c : Byte => Event.memWrite base bus.bits ((busPattern bus c).setWidth bus.bits)
      let cs := p.flashCodes
      let am := base + p.flMidOff bus
      let ac := base + p.flCidOff bus
      let m := s.answer bus.bits
      let c := (s.drawnBy 1).answer bus.bits
      aligned bus am = true → aligned bus ac = true →
      execTimesWith p 5 (.flashPrintInfo base) s =
        s.completed 2 [w cs.clearStatus, w cs.readId, .memRead am bus.bits m, .memRead ac bus.bits c, w cs.readArray]
          ⟨.ok, .zero, .ids (m.setWidth 32) (c.setWidth 32) (m.setWidth 8) (c.setWidth 16)
            (chipName p (c.setWidth 16))⟩

/-- R255 (D18): at an aligned base (R69), FLASH_READ_ARRAY is one bus write of the read-array command there. -/
def Obligations.ReadArrayRuns : Prop :=
  ∀ (s : State) (base : Word32) (bus : BusWidth), s.seq = .idle → s.driver.bus? = some bus → aligned bus base = true →
    exec (.flashReadArray base) s = .next
      (s.completed 0 [.memWrite base bus.bits ((busPattern bus Config.params.flashCodes.readArray).setWidth bus.bits)]
        ⟨.ok, .zero, .none⟩)

/-- R69 (D8), U13: under any parameters, BUS_MISALIGNED decides an access at a misaligned address, which goes to the bus
unchanged. One that completes is in the trace and the command goes on behind it, a read with the platform's word; one
that never completes is in the trace and the command waits, a step of the wait changing nothing. The machine's
parameters are `Config.params`. DEDUCED (log entry 13): an access can have no other effect on the sequencer. -/
def Obligations.MisalignedAccessIsThePlatforms : Prop :=
  (∀ (i : Instr) (s : State), exec i s = .next (execWith Config.params i s))
  ∧ ∀ (p : Params) (s : State) (addr : Word32) (bus : BusWidth), aligned bus addr = false →
    let made := fun access => p.busMisaligned s.trace.length addr bus access
    let w := fun v : Word32 => v.setWidth bus.bits
    let write := fun v : Word32 => Event.memWrite addr bus.bits (w v)
    let drawn := s.answer bus.bits
    (∀ (cmd : Instr) (k : Nat) (q : Prim) (rest : List MicroOp) (loc : Local), s.seq = .busy cmd k q rest loc →
      (∀ v, q = .memWrite bus addr v →
        (made (.write (w v)) = .never → execWith p cmd s = s.waiting cmd k rest loc (write v))
        ∧ ∀ x, made (.write (w v)) = .completes x →
          execWith p cmd s = pause p cmd (k + 1) (settle p { s with trace := s.trace ++ [write v] } loc rest))
      ∧ (q = .memRead bus addr ∨ q = .pollReady bus addr → made (.read drawn) = .never →
          execWith p cmd s = s.waiting cmd k rest loc (.memReadOpen addr bus.bits))
      ∧ (q = .memRead bus addr → ∀ x, made (.read drawn) = .completes x →
          execWith p cmd s = pause p cmd (k + 1)
            (settle p { s.drawn with trace := s.trace ++ [.memRead addr bus.bits x] }
              { loc with caps := loc.caps ++ [x.setWidth 40] } rest))
      ∧ (q = .pollReady bus addr → ∀ x, made (.read drawn) = .completes x →
          (execWith p cmd s).trace = s.trace ++ [.memRead addr bus.bits x]
          ∧ (ready p.statusMasks bus (maskedStatus bus x) = false → p.pollLimit = none →
            ∃ loc', (execWith p cmd s).seq = .busy cmd k q rest loc')
          ∧ (ready p.statusMasks bus (maskedStatus bus x) = true → ∃ loc', loc'.status = maskedStatus bus x
            ∧ loc'.fin = loc.fin ∧ loc'.timedOut = false ∧ execWith p cmd s = pause p cmd (k + 1)
              (settle p { s.drawn with trace := s.trace ++ [.memRead addr bus.bits x] } loc' rest)))
      ∧ (q = .busWait → execWith p cmd s = s))
    ∧ (s.seq = .idle → s.driver.bus? = some bus →
      (∀ v, v = busPattern bus p.flashCodes.readArray →
        (made (.write (w v)) = .never →
          execWith p (.flashReadArray addr) s = s.waiting (.flashReadArray addr) 0 [] (Local.start .done) (write v))
        ∧ ∀ x, made (.write (w v)) = .completes x →
          execWith p (.flashReadArray addr) s = s.completed 0 [write v] ⟨.ok, .zero, .none⟩)
      ∧ ∀ (data v : Word32), v = busPattern bus p.flashCodes.clearStatus →
        ∀ i ∈ [Instr.flashPrintInfo addr, .flashEraseBlock addr, .flashUnlockBlock addr, .flashProgram addr data],
          (made (.write (w v)) = .never → ∃ rest loc, execWith p i s = s.waiting i 0 rest loc (write v))
          ∧ ∀ x, made (.write (w v)) = .completes x → ∃ q rest loc,
            execWith p i s = { s with trace := s.trace ++ [write v], seq := .busy i 1 q rest loc })

/-- R257: the chip's name is the table's entry, "28F320J3A" for 0x0016, and "unknown" where there is none, 0x9999 among
them; the lookup never fails. -/
def Obligations.ChipNameDecoding : Prop :=
  ∀ p : Params, chipName p 0x0016 = "28F320J3A" ∧ chipName p 0x9999 = "unknown"
    ∧ ∀ cid, (∀ name, p.chipNames cid = some name → chipName p cid = name)
      ∧ (p.chipNames cid = none → chipName p cid = "unknown")

/-! ### DSU peek unit (spec/44_dsu.md) -/

/-- R290: the command word is `((reg << 3) | 0x19) mod 2^40`: bits 0, 3 and 4 are 1, bits 1 and 2 are 0, and bits 39:5
are bits 36:2 of reg; so reg 0 to 3 give 0x19, and 4 and 7 give 0x39. -/
def Obligations.DsuCommandWord : Prop :=
  (∀ reg : Nat, (dsuCommand reg).toNat = ((reg <<< 3) ||| 0x19) % 2 ^ 40
    ∧ ∀ i, i < 40 → (dsuCommand reg).getLsbD i
        = (decide (i = 0 ∨ i = 3 ∨ i = 4) || (decide (5 ≤ i) && reg.testBit (i - 3))))
  ∧ dsuCommand 0 = 0x19 ∧ dsuCommand 1 = 0x19 ∧ dsuCommand 2 = 0x19 ∧ dsuCommand 3 = 0x19
  ∧ dsuCommand 4 = 0x39 ∧ dsuCommand 7 = 0x39

/-- R291, R292: the reversal is the mirror image of the 40 bits, and so its own inverse. -/
def Obligations.ReverseMirrorsBits : Prop :=
  ∀ x : Word40, (∀ i, i < 40 → (reverse40 x).getLsbD i = x.getLsbD (39 - i)) ∧ reverse40 (reverse40 x) = x

/-- R293, R295 (D40): DSU_PEEK is 480 events: for each length 1..40 the IR pattern, the forward and the reversed word,
and five reads with Delay(1000) between consecutive ones; it returns the 200 words read, in order. -/
def Obligations.DsuPeekRuns : Prop :=
  ∀ (s : State) (reg : Word32), s.seq = .idle →
    execTimes 480 (.dsuPeek reg) s = .next
      { s.completed 320
          ((List.range 40).flatMap fun l =>
            sweepEvents Config.params (s.drawnBy (8 * l)) (dsuCommand reg.toNat) (l + 1))
          ⟨.ok, .zero, .words ((List.range 40).flatMap fun l =>
            (List.range 5).map fun q => (s.drawnBy (8 * l + 3 + q)).answer 40)⟩ with
        dsuAlloc := true, dsuwir := Config.params.dsuIrPattern 40, dsurir := (s.drawnBy 312).answer 40 }

/-- R296, R297, R298, R300, R313 (D41): the DSU stubs return NOT_IMPLEMENTED with their own name, emit no event and
change no other state. -/
def Obligations.DsuStubsReturnNotImplemented : Prop :=
  ∀ (s : State) (i : Instr) (n : StubName), s.seq = .idle →
    (i, n) ∈ [(Instr.dsuDbreak, StubName.dbreak), (.dsuDpoke, .dpoke), (.dsuFlush, .flush), (.dsuIbreak, .ibreak)] →
    exec i s = .next (s.completed 0 [] ⟨.notImplemented, .stub n, .none⟩)
end

