-- ==== Sys2Proof/Laws/State.lean ====
section
/-! SUPPORT. What each update of the state leaves alone and what it writes, field by field, so that no later proof
unfolds a record update. -/

namespace Sys2Proof.Machine

/-! ### Draws -/

@[simp] theorem State.drawn_seq (s : State) : (s.drawn).seq = s.seq := rfl
@[simp] theorem State.drawn_res (s : State) : (s.drawn).res = s.res := rfl
@[simp] theorem State.drawn_tmcAlloc (s : State) : (s.drawn).tmcAlloc = s.tmcAlloc := rfl
@[simp] theorem State.drawn_rir (s : State) : (s.drawn).rir = s.rir := rfl
@[simp] theorem State.drawn_wir (s : State) : (s.drawn).wir = s.wir := rfl
@[simp] theorem State.drawn_tmcPad (s : State) : (s.drawn).tmcPad = s.tmcPad := rfl
@[simp] theorem State.drawn_hudiAlloc (s : State) : (s.drawn).hudiAlloc = s.hudiAlloc := rfl
@[simp] theorem State.drawn_rsdir (s : State) : (s.drawn).rsdir = s.rsdir := rfl
@[simp] theorem State.drawn_wsdir (s : State) : (s.drawn).wsdir = s.wsdir := rfl
@[simp] theorem State.drawn_locked (s : State) : (s.drawn).locked = s.locked := rfl
@[simp] theorem State.drawn_mode (s : State) : (s.drawn).mode = s.mode := rfl
@[simp] theorem State.drawn_savedMode (s : State) : (s.drawn).savedMode = s.savedMode := rfl
@[simp] theorem State.drawn_curOvl (s : State) : (s.drawn).curOvl = s.curOvl := rfl
@[simp] theorem State.drawn_ovl (s : State) : (s.drawn).ovl = s.ovl := rfl
@[simp] theorem State.drawn_driver (s : State) : (s.drawn).driver = s.driver := rfl
@[simp] theorem State.drawn_dsuAlloc (s : State) : (s.drawn).dsuAlloc = s.dsuAlloc := rfl
@[simp] theorem State.drawn_dsurir (s : State) : (s.drawn).dsurir = s.dsurir := rfl
@[simp] theorem State.drawn_dsuwir (s : State) : (s.drawn).dsuwir = s.dsuwir := rfl
@[simp] theorem State.drawn_trace (s : State) : (s.drawn).trace = s.trace := rfl
@[simp] theorem State.drawn_results (s : State) : (s.drawn).results = s.results := rfl
@[simp] theorem State.drawn_inbox (s : State) : (s.drawn).inbox = s.inbox := rfl
@[simp] theorem State.drawn_resetReq (s : State) : (s.drawn).resetReq = s.resetReq := rfl
@[simp] theorem State.drawn_frees (s : State) : (s.drawn).frees = s.frees := rfl

/-! ### Events -/

@[simp] theorem State.emit_seq (s : State) (e : Event) : (s.emit e).seq = s.seq := rfl
@[simp] theorem State.emit_res (s : State) (e : Event) : (s.emit e).res = s.res := rfl
@[simp] theorem State.emit_tmcAlloc (s : State) (e : Event) : (s.emit e).tmcAlloc = s.tmcAlloc := rfl
@[simp] theorem State.emit_rir (s : State) (e : Event) : (s.emit e).rir = s.rir := rfl
@[simp] theorem State.emit_wir (s : State) (e : Event) : (s.emit e).wir = s.wir := rfl
@[simp] theorem State.emit_tmcPad (s : State) (e : Event) : (s.emit e).tmcPad = s.tmcPad := rfl
@[simp] theorem State.emit_hudiAlloc (s : State) (e : Event) : (s.emit e).hudiAlloc = s.hudiAlloc := rfl
@[simp] theorem State.emit_rsdir (s : State) (e : Event) : (s.emit e).rsdir = s.rsdir := rfl
@[simp] theorem State.emit_wsdir (s : State) (e : Event) : (s.emit e).wsdir = s.wsdir := rfl
@[simp] theorem State.emit_locked (s : State) (e : Event) : (s.emit e).locked = s.locked := rfl
@[simp] theorem State.emit_mode (s : State) (e : Event) : (s.emit e).mode = s.mode := rfl
@[simp] theorem State.emit_savedMode (s : State) (e : Event) : (s.emit e).savedMode = s.savedMode := rfl
@[simp] theorem State.emit_curOvl (s : State) (e : Event) : (s.emit e).curOvl = s.curOvl := rfl
@[simp] theorem State.emit_ovl (s : State) (e : Event) : (s.emit e).ovl = s.ovl := rfl
@[simp] theorem State.emit_driver (s : State) (e : Event) : (s.emit e).driver = s.driver := rfl
@[simp] theorem State.emit_dsuAlloc (s : State) (e : Event) : (s.emit e).dsuAlloc = s.dsuAlloc := rfl
@[simp] theorem State.emit_dsurir (s : State) (e : Event) : (s.emit e).dsurir = s.dsurir := rfl
@[simp] theorem State.emit_dsuwir (s : State) (e : Event) : (s.emit e).dsuwir = s.dsuwir := rfl
@[simp] theorem State.emit_results (s : State) (e : Event) : (s.emit e).results = s.results := rfl
@[simp] theorem State.emit_inbox (s : State) (e : Event) : (s.emit e).inbox = s.inbox := rfl
@[simp] theorem State.emit_resetReq (s : State) (e : Event) : (s.emit e).resetReq = s.resetReq := rfl
@[simp] theorem State.emit_answers (s : State) (e : Event) : (s.emit e).answers = s.answers := rfl
@[simp] theorem State.emit_draws (s : State) (e : Event) : (s.emit e).draws = s.draws := rfl
@[simp] theorem State.emit_frees (s : State) (e : Event) : (s.emit e).frees = s.frees := rfl
@[simp] theorem State.emit_trace (s : State) (e : Event) : (s.emit e).trace = s.trace ++ [e] := rfl
@[simp] theorem State.emit_answer (s : State) (e : Event) (w : Nat) : (s.emit e).answer w = s.answer w := rfl
@[simp] theorem State.emit_drawn (s : State) (e : Event) : (s.emit e).drawn = s.drawn.emit e := rfl

/-! ### Ending a command -/

@[simp] theorem State.finish_tmcAlloc (s : State) (r : Result) : (s.finish r).tmcAlloc = s.tmcAlloc := rfl
@[simp] theorem State.finish_rir (s : State) (r : Result) : (s.finish r).rir = s.rir := rfl
@[simp] theorem State.finish_wir (s : State) (r : Result) : (s.finish r).wir = s.wir := rfl
@[simp] theorem State.finish_tmcPad (s : State) (r : Result) : (s.finish r).tmcPad = s.tmcPad := rfl
@[simp] theorem State.finish_hudiAlloc (s : State) (r : Result) : (s.finish r).hudiAlloc = s.hudiAlloc := rfl
@[simp] theorem State.finish_rsdir (s : State) (r : Result) : (s.finish r).rsdir = s.rsdir := rfl
@[simp] theorem State.finish_wsdir (s : State) (r : Result) : (s.finish r).wsdir = s.wsdir := rfl
@[simp] theorem State.finish_locked (s : State) (r : Result) : (s.finish r).locked = s.locked := rfl
@[simp] theorem State.finish_mode (s : State) (r : Result) : (s.finish r).mode = s.mode := rfl
@[simp] theorem State.finish_savedMode (s : State) (r : Result) : (s.finish r).savedMode = s.savedMode := rfl
@[simp] theorem State.finish_curOvl (s : State) (r : Result) : (s.finish r).curOvl = s.curOvl := rfl
@[simp] theorem State.finish_ovl (s : State) (r : Result) : (s.finish r).ovl = s.ovl := rfl
@[simp] theorem State.finish_driver (s : State) (r : Result) : (s.finish r).driver = s.driver := rfl
@[simp] theorem State.finish_dsuAlloc (s : State) (r : Result) : (s.finish r).dsuAlloc = s.dsuAlloc := rfl
@[simp] theorem State.finish_dsurir (s : State) (r : Result) : (s.finish r).dsurir = s.dsurir := rfl
@[simp] theorem State.finish_dsuwir (s : State) (r : Result) : (s.finish r).dsuwir = s.dsuwir := rfl
@[simp] theorem State.finish_trace (s : State) (r : Result) : (s.finish r).trace = s.trace := rfl
@[simp] theorem State.finish_inbox (s : State) (r : Result) : (s.finish r).inbox = s.inbox := rfl
@[simp] theorem State.finish_resetReq (s : State) (r : Result) : (s.finish r).resetReq = s.resetReq := rfl
@[simp] theorem State.finish_answers (s : State) (r : Result) : (s.finish r).answers = s.answers := rfl
@[simp] theorem State.finish_draws (s : State) (r : Result) : (s.finish r).draws = s.draws := rfl
@[simp] theorem State.finish_frees (s : State) (r : Result) : (s.finish r).frees = s.frees := rfl
@[simp] theorem State.finish_seq (s : State) (r : Result) : (s.finish r).seq = .idle := rfl
@[simp] theorem State.finish_res (s : State) (r : Result) : (s.finish r).res = r := rfl
@[simp] theorem State.finish_results (s : State) (r : Result) : (s.finish r).results = s.results ++ [r] := rfl

/-! ### Lazy init -/

/-- Lazy init as one update: the pair is allocated, and zeroed if it was not. -/
theorem State.tmcInit_eq (s : State) :
    s.tmcInit = { s with tmcAlloc := true, rir := if s.tmcAlloc then s.rir else 0, wir := if s.tmcAlloc then s.wir else 0 } := by
  cases s; simp only [State.tmcInit]; split <;> simp_all

@[simp] theorem State.tmcInit_tmcAlloc (s : State) : s.tmcInit.tmcAlloc = true := by rw [State.tmcInit_eq]
@[simp] theorem State.tmcInit_rir (s : State) : s.tmcInit.rir = if s.tmcAlloc then s.rir else 0 := by
  rw [State.tmcInit_eq]
@[simp] theorem State.tmcInit_wir (s : State) : s.tmcInit.wir = if s.tmcAlloc then s.wir else 0 := by
  rw [State.tmcInit_eq]
@[simp] theorem State.tmcInit_seq (s : State) : (s.tmcInit).seq = s.seq := by rw [State.tmcInit_eq]
@[simp] theorem State.tmcInit_res (s : State) : (s.tmcInit).res = s.res := by rw [State.tmcInit_eq]
@[simp] theorem State.tmcInit_tmcPad (s : State) : (s.tmcInit).tmcPad = s.tmcPad := by rw [State.tmcInit_eq]
@[simp] theorem State.tmcInit_hudiAlloc (s : State) : (s.tmcInit).hudiAlloc = s.hudiAlloc := by rw [State.tmcInit_eq]
@[simp] theorem State.tmcInit_rsdir (s : State) : (s.tmcInit).rsdir = s.rsdir := by rw [State.tmcInit_eq]
@[simp] theorem State.tmcInit_wsdir (s : State) : (s.tmcInit).wsdir = s.wsdir := by rw [State.tmcInit_eq]
@[simp] theorem State.tmcInit_locked (s : State) : (s.tmcInit).locked = s.locked := by rw [State.tmcInit_eq]
@[simp] theorem State.tmcInit_mode (s : State) : (s.tmcInit).mode = s.mode := by rw [State.tmcInit_eq]
@[simp] theorem State.tmcInit_savedMode (s : State) : (s.tmcInit).savedMode = s.savedMode := by rw [State.tmcInit_eq]
@[simp] theorem State.tmcInit_curOvl (s : State) : (s.tmcInit).curOvl = s.curOvl := by rw [State.tmcInit_eq]
@[simp] theorem State.tmcInit_ovl (s : State) : (s.tmcInit).ovl = s.ovl := by rw [State.tmcInit_eq]
@[simp] theorem State.tmcInit_driver (s : State) : (s.tmcInit).driver = s.driver := by rw [State.tmcInit_eq]
@[simp] theorem State.tmcInit_dsuAlloc (s : State) : (s.tmcInit).dsuAlloc = s.dsuAlloc := by rw [State.tmcInit_eq]
@[simp] theorem State.tmcInit_dsurir (s : State) : (s.tmcInit).dsurir = s.dsurir := by rw [State.tmcInit_eq]
@[simp] theorem State.tmcInit_dsuwir (s : State) : (s.tmcInit).dsuwir = s.dsuwir := by rw [State.tmcInit_eq]
@[simp] theorem State.tmcInit_trace (s : State) : (s.tmcInit).trace = s.trace := by rw [State.tmcInit_eq]
@[simp] theorem State.tmcInit_results (s : State) : (s.tmcInit).results = s.results := by rw [State.tmcInit_eq]
@[simp] theorem State.tmcInit_inbox (s : State) : (s.tmcInit).inbox = s.inbox := by rw [State.tmcInit_eq]
@[simp] theorem State.tmcInit_resetReq (s : State) : (s.tmcInit).resetReq = s.resetReq := by rw [State.tmcInit_eq]
@[simp] theorem State.tmcInit_answers (s : State) : (s.tmcInit).answers = s.answers := by rw [State.tmcInit_eq]
@[simp] theorem State.tmcInit_draws (s : State) : (s.tmcInit).draws = s.draws := by rw [State.tmcInit_eq]
@[simp] theorem State.tmcInit_frees (s : State) : (s.tmcInit).frees = s.frees := by rw [State.tmcInit_eq]

/-- Lazy init as one update: the pair is allocated, and zeroed if it was not. -/
theorem State.hudiInit_eq (s : State) :
    s.hudiInit = { s with hudiAlloc := true, rsdir := if s.hudiAlloc then s.rsdir else 0, wsdir := if s.hudiAlloc then s.wsdir else 0 } := by
  cases s; simp only [State.hudiInit]; split <;> simp_all

@[simp] theorem State.hudiInit_hudiAlloc (s : State) : s.hudiInit.hudiAlloc = true := by rw [State.hudiInit_eq]
@[simp] theorem State.hudiInit_rsdir (s : State) : s.hudiInit.rsdir = if s.hudiAlloc then s.rsdir else 0 := by
  rw [State.hudiInit_eq]
@[simp] theorem State.hudiInit_wsdir (s : State) : s.hudiInit.wsdir = if s.hudiAlloc then s.wsdir else 0 := by
  rw [State.hudiInit_eq]
@[simp] theorem State.hudiInit_seq (s : State) : (s.hudiInit).seq = s.seq := by rw [State.hudiInit_eq]
@[simp] theorem State.hudiInit_res (s : State) : (s.hudiInit).res = s.res := by rw [State.hudiInit_eq]
@[simp] theorem State.hudiInit_tmcAlloc (s : State) : (s.hudiInit).tmcAlloc = s.tmcAlloc := by rw [State.hudiInit_eq]
@[simp] theorem State.hudiInit_rir (s : State) : (s.hudiInit).rir = s.rir := by rw [State.hudiInit_eq]
@[simp] theorem State.hudiInit_wir (s : State) : (s.hudiInit).wir = s.wir := by rw [State.hudiInit_eq]
@[simp] theorem State.hudiInit_tmcPad (s : State) : (s.hudiInit).tmcPad = s.tmcPad := by rw [State.hudiInit_eq]
@[simp] theorem State.hudiInit_locked (s : State) : (s.hudiInit).locked = s.locked := by rw [State.hudiInit_eq]
@[simp] theorem State.hudiInit_mode (s : State) : (s.hudiInit).mode = s.mode := by rw [State.hudiInit_eq]
@[simp] theorem State.hudiInit_savedMode (s : State) : (s.hudiInit).savedMode = s.savedMode := by rw [State.hudiInit_eq]
@[simp] theorem State.hudiInit_curOvl (s : State) : (s.hudiInit).curOvl = s.curOvl := by rw [State.hudiInit_eq]
@[simp] theorem State.hudiInit_ovl (s : State) : (s.hudiInit).ovl = s.ovl := by rw [State.hudiInit_eq]
@[simp] theorem State.hudiInit_driver (s : State) : (s.hudiInit).driver = s.driver := by rw [State.hudiInit_eq]
@[simp] theorem State.hudiInit_dsuAlloc (s : State) : (s.hudiInit).dsuAlloc = s.dsuAlloc := by rw [State.hudiInit_eq]
@[simp] theorem State.hudiInit_dsurir (s : State) : (s.hudiInit).dsurir = s.dsurir := by rw [State.hudiInit_eq]
@[simp] theorem State.hudiInit_dsuwir (s : State) : (s.hudiInit).dsuwir = s.dsuwir := by rw [State.hudiInit_eq]
@[simp] theorem State.hudiInit_trace (s : State) : (s.hudiInit).trace = s.trace := by rw [State.hudiInit_eq]
@[simp] theorem State.hudiInit_results (s : State) : (s.hudiInit).results = s.results := by rw [State.hudiInit_eq]
@[simp] theorem State.hudiInit_inbox (s : State) : (s.hudiInit).inbox = s.inbox := by rw [State.hudiInit_eq]
@[simp] theorem State.hudiInit_resetReq (s : State) : (s.hudiInit).resetReq = s.resetReq := by rw [State.hudiInit_eq]
@[simp] theorem State.hudiInit_answers (s : State) : (s.hudiInit).answers = s.answers := by rw [State.hudiInit_eq]
@[simp] theorem State.hudiInit_draws (s : State) : (s.hudiInit).draws = s.draws := by rw [State.hudiInit_eq]
@[simp] theorem State.hudiInit_frees (s : State) : (s.hudiInit).frees = s.frees := by rw [State.hudiInit_eq]

/-- Lazy init as one update: the pair is allocated, and zeroed if it was not. -/
theorem State.dsuInit_eq (s : State) :
    s.dsuInit = { s with dsuAlloc := true, dsurir := if s.dsuAlloc then s.dsurir else 0, dsuwir := if s.dsuAlloc then s.dsuwir else 0 } := by
  cases s; simp only [State.dsuInit]; split <;> simp_all

@[simp] theorem State.dsuInit_dsuAlloc (s : State) : s.dsuInit.dsuAlloc = true := by rw [State.dsuInit_eq]
@[simp] theorem State.dsuInit_dsurir (s : State) : s.dsuInit.dsurir = if s.dsuAlloc then s.dsurir else 0 := by
  rw [State.dsuInit_eq]
@[simp] theorem State.dsuInit_dsuwir (s : State) : s.dsuInit.dsuwir = if s.dsuAlloc then s.dsuwir else 0 := by
  rw [State.dsuInit_eq]
@[simp] theorem State.dsuInit_seq (s : State) : (s.dsuInit).seq = s.seq := by rw [State.dsuInit_eq]
@[simp] theorem State.dsuInit_res (s : State) : (s.dsuInit).res = s.res := by rw [State.dsuInit_eq]
@[simp] theorem State.dsuInit_tmcAlloc (s : State) : (s.dsuInit).tmcAlloc = s.tmcAlloc := by rw [State.dsuInit_eq]
@[simp] theorem State.dsuInit_rir (s : State) : (s.dsuInit).rir = s.rir := by rw [State.dsuInit_eq]
@[simp] theorem State.dsuInit_wir (s : State) : (s.dsuInit).wir = s.wir := by rw [State.dsuInit_eq]
@[simp] theorem State.dsuInit_tmcPad (s : State) : (s.dsuInit).tmcPad = s.tmcPad := by rw [State.dsuInit_eq]
@[simp] theorem State.dsuInit_hudiAlloc (s : State) : (s.dsuInit).hudiAlloc = s.hudiAlloc := by rw [State.dsuInit_eq]
@[simp] theorem State.dsuInit_rsdir (s : State) : (s.dsuInit).rsdir = s.rsdir := by rw [State.dsuInit_eq]
@[simp] theorem State.dsuInit_wsdir (s : State) : (s.dsuInit).wsdir = s.wsdir := by rw [State.dsuInit_eq]
@[simp] theorem State.dsuInit_locked (s : State) : (s.dsuInit).locked = s.locked := by rw [State.dsuInit_eq]
@[simp] theorem State.dsuInit_mode (s : State) : (s.dsuInit).mode = s.mode := by rw [State.dsuInit_eq]
@[simp] theorem State.dsuInit_savedMode (s : State) : (s.dsuInit).savedMode = s.savedMode := by rw [State.dsuInit_eq]
@[simp] theorem State.dsuInit_curOvl (s : State) : (s.dsuInit).curOvl = s.curOvl := by rw [State.dsuInit_eq]
@[simp] theorem State.dsuInit_ovl (s : State) : (s.dsuInit).ovl = s.ovl := by rw [State.dsuInit_eq]
@[simp] theorem State.dsuInit_driver (s : State) : (s.dsuInit).driver = s.driver := by rw [State.dsuInit_eq]
@[simp] theorem State.dsuInit_trace (s : State) : (s.dsuInit).trace = s.trace := by rw [State.dsuInit_eq]
@[simp] theorem State.dsuInit_results (s : State) : (s.dsuInit).results = s.results := by rw [State.dsuInit_eq]
@[simp] theorem State.dsuInit_inbox (s : State) : (s.dsuInit).inbox = s.inbox := by rw [State.dsuInit_eq]
@[simp] theorem State.dsuInit_resetReq (s : State) : (s.dsuInit).resetReq = s.resetReq := by rw [State.dsuInit_eq]
@[simp] theorem State.dsuInit_answers (s : State) : (s.dsuInit).answers = s.answers := by rw [State.dsuInit_eq]
@[simp] theorem State.dsuInit_draws (s : State) : (s.dsuInit).draws = s.draws := by rw [State.dsuInit_eq]
@[simp] theorem State.dsuInit_frees (s : State) : (s.dsuInit).frees = s.frees := by rw [State.dsuInit_eq]

/-! ### Several draws -/

@[simp] theorem State.drawnBy_seq (s : State) (n : Nat) : (State.drawnBy n s).seq = s.seq := by
  induction n generalizing s with
  | zero => rfl
  | succ n ih => simp [State.drawnBy, ih]
@[simp] theorem State.drawnBy_res (s : State) (n : Nat) : (State.drawnBy n s).res = s.res := by
  induction n generalizing s with
  | zero => rfl
  | succ n ih => simp [State.drawnBy, ih]
@[simp] theorem State.drawnBy_tmcAlloc (s : State) (n : Nat) : (State.drawnBy n s).tmcAlloc = s.tmcAlloc := by
  induction n generalizing s with
  | zero => rfl
  | succ n ih => simp [State.drawnBy, ih]
@[simp] theorem State.drawnBy_rir (s : State) (n : Nat) : (State.drawnBy n s).rir = s.rir := by
  induction n generalizing s with
  | zero => rfl
  | succ n ih => simp [State.drawnBy, ih]
@[simp] theorem State.drawnBy_wir (s : State) (n : Nat) : (State.drawnBy n s).wir = s.wir := by
  induction n generalizing s with
  | zero => rfl
  | succ n ih => simp [State.drawnBy, ih]
@[simp] theorem State.drawnBy_tmcPad (s : State) (n : Nat) : (State.drawnBy n s).tmcPad = s.tmcPad := by
  induction n generalizing s with
  | zero => rfl
  | succ n ih => simp [State.drawnBy, ih]
@[simp] theorem State.drawnBy_hudiAlloc (s : State) (n : Nat) : (State.drawnBy n s).hudiAlloc = s.hudiAlloc := by
  induction n generalizing s with
  | zero => rfl
  | succ n ih => simp [State.drawnBy, ih]
@[simp] theorem State.drawnBy_rsdir (s : State) (n : Nat) : (State.drawnBy n s).rsdir = s.rsdir := by
  induction n generalizing s with
  | zero => rfl
  | succ n ih => simp [State.drawnBy, ih]
@[simp] theorem State.drawnBy_wsdir (s : State) (n : Nat) : (State.drawnBy n s).wsdir = s.wsdir := by
  induction n generalizing s with
  | zero => rfl
  | succ n ih => simp [State.drawnBy, ih]
@[simp] theorem State.drawnBy_locked (s : State) (n : Nat) : (State.drawnBy n s).locked = s.locked := by
  induction n generalizing s with
  | zero => rfl
  | succ n ih => simp [State.drawnBy, ih]
@[simp] theorem State.drawnBy_mode (s : State) (n : Nat) : (State.drawnBy n s).mode = s.mode := by
  induction n generalizing s with
  | zero => rfl
  | succ n ih => simp [State.drawnBy, ih]
@[simp] theorem State.drawnBy_savedMode (s : State) (n : Nat) : (State.drawnBy n s).savedMode = s.savedMode := by
  induction n generalizing s with
  | zero => rfl
  | succ n ih => simp [State.drawnBy, ih]
@[simp] theorem State.drawnBy_curOvl (s : State) (n : Nat) : (State.drawnBy n s).curOvl = s.curOvl := by
  induction n generalizing s with
  | zero => rfl
  | succ n ih => simp [State.drawnBy, ih]
@[simp] theorem State.drawnBy_ovl (s : State) (n : Nat) : (State.drawnBy n s).ovl = s.ovl := by
  induction n generalizing s with
  | zero => rfl
  | succ n ih => simp [State.drawnBy, ih]
@[simp] theorem State.drawnBy_driver (s : State) (n : Nat) : (State.drawnBy n s).driver = s.driver := by
  induction n generalizing s with
  | zero => rfl
  | succ n ih => simp [State.drawnBy, ih]
@[simp] theorem State.drawnBy_dsuAlloc (s : State) (n : Nat) : (State.drawnBy n s).dsuAlloc = s.dsuAlloc := by
  induction n generalizing s with
  | zero => rfl
  | succ n ih => simp [State.drawnBy, ih]
@[simp] theorem State.drawnBy_dsurir (s : State) (n : Nat) : (State.drawnBy n s).dsurir = s.dsurir := by
  induction n generalizing s with
  | zero => rfl
  | succ n ih => simp [State.drawnBy, ih]
@[simp] theorem State.drawnBy_dsuwir (s : State) (n : Nat) : (State.drawnBy n s).dsuwir = s.dsuwir := by
  induction n generalizing s with
  | zero => rfl
  | succ n ih => simp [State.drawnBy, ih]
@[simp] theorem State.drawnBy_trace (s : State) (n : Nat) : (State.drawnBy n s).trace = s.trace := by
  induction n generalizing s with
  | zero => rfl
  | succ n ih => simp [State.drawnBy, ih]
@[simp] theorem State.drawnBy_results (s : State) (n : Nat) : (State.drawnBy n s).results = s.results := by
  induction n generalizing s with
  | zero => rfl
  | succ n ih => simp [State.drawnBy, ih]
@[simp] theorem State.drawnBy_inbox (s : State) (n : Nat) : (State.drawnBy n s).inbox = s.inbox := by
  induction n generalizing s with
  | zero => rfl
  | succ n ih => simp [State.drawnBy, ih]
@[simp] theorem State.drawnBy_resetReq (s : State) (n : Nat) : (State.drawnBy n s).resetReq = s.resetReq := by
  induction n generalizing s with
  | zero => rfl
  | succ n ih => simp [State.drawnBy, ih]
@[simp] theorem State.drawnBy_frees (s : State) (n : Nat) : (State.drawnBy n s).frees = s.frees := by
  induction n generalizing s with
  | zero => rfl
  | succ n ih => simp [State.drawnBy, ih]
@[simp] theorem State.drawnBy_zero (s : State) : State.drawnBy 0 s = s := rfl
theorem State.drawnBy_succ (n : Nat) (s : State) : State.drawnBy (n + 1) s = State.drawnBy n s.drawn := rfl
theorem State.drawnBy_drawn (n : Nat) (s : State) : (State.drawnBy n s).drawn = State.drawnBy n s.drawn := by
  induction n generalizing s with
  | zero => rfl
  | succ n ih => exact ih s.drawn
theorem State.drawnBy_add (m n : Nat) (s : State) : State.drawnBy (m + n) s = State.drawnBy n (State.drawnBy m s) := by
  induction m generalizing s with
  | zero => simp
  | succ m ih => rw [Nat.succ_add]; exact ih s.drawn

/-- `n` draws in closed form: the first `n` lined-up answers are used up, and the rest of the `n` are counted. -/
theorem State.drawnBy_eq (n : Nat) (s : State) :
    State.drawnBy n s = { s with answers := s.answers.drop n, draws := s.draws + (n - s.answers.length) } := by
  induction n generalizing s with
  | zero => simp
  | succ n ih =>
    rw [State.drawnBy_succ, ih]
    cases h : s.answers with
    | nil => simp [State.drawn, h, Nat.add_assoc, Nat.add_comm 1 n]
    | cons a as => simp [State.drawn, h, Nat.add_sub_add_right]

/-! ### The mode flags (R151, R169): only the three flags are written -/

/-- `ModeUpdateIR` as one update of the three flags. -/
theorem modeUpdateIR_eq (op : Byte) (s : State) :
    modeUpdateIR op s = { s with
      savedMode := if op = 0x20 then s.mode else s.savedMode
      locked := if op = 0x20 then true else if op = 0x21 then false else s.locked
      mode := if op = 0x20 then true else if op = 0x21 then s.savedMode else if s.locked then s.mode else true } := by
  cases s; simp only [modeUpdateIR]; split <;> [skip; split <;> [skip; split]] <;> simp_all

/-- `WriteData`'s mode update as one update. -/
theorem modeUpdateData_eq (rule : ModeUpdate) (d : Word32) (s : State) :
    modeUpdateData rule d s = { s with mode := if s.locked then s.mode else unlockedMode rule s.mode d } := by
  cases s; simp only [modeUpdateData]; split <;> simp_all

end Sys2Proof.Machine
end

