-- ==== Sys2Proof/Laws/Exec.lean ====
section
/-! SUPPORT. What one step of a command is, and how a run of it goes: `exec` is `execWith` at the machine's parameters;
an idle sequencer starts the command, a busy one performs its next primitive; a run of primitives folds. -/

namespace Sys2Proof.Machine

/-! ### One step -/

/-- Every command answers a next state: one step of its body. -/
theorem exec_eq (i : Instr) (s : State) : exec i s = .next (execWith Config.params i s) := by cases i <;> rfl

theorem execWith_idle (p : Params) (i : Instr) (s : State) (h : s.seq = .idle) :
    execWith p i s = start p i (bodyOf i p s) := by simp [execWith, command, h]

theorem execWith_busy (p : Params) {cmd : Instr} {k : Nat} {q : Prim} {rest : List MicroOp} {loc : Local} (s : State)
    (h : s.seq = .busy cmd k q rest loc) : execWith p cmd s = advance p cmd k q rest loc s := by
  simp [execWith, command, h]

theorem execWith_held (p : Params) {i cmd : Instr} {k : Nat} {q : Prim} {rest : List MicroOp} {loc : Local} (s : State)
    (h : s.seq = .busy cmd k q rest loc) (hi : cmd ≠ i) : execWith p i s = s.hold i := by
  simp [execWith, command, h, hi]

/-- What one step of any command can be: its start, its next primitive, or a wait. -/
theorem execWith_cases (p : Params) (i : Instr) (s : State) :
    (s.seq = .idle ∧ execWith p i s = start p i (bodyOf i p s))
      ∨ (∃ k q rest loc, s.seq = .busy i k q rest loc ∧ execWith p i s = advance p i k q rest loc s)
      ∨ ∃ cmd k q rest loc, s.seq = .busy cmd k q rest loc ∧ cmd ≠ i ∧ execWith p i s = s.hold i := by
  rcases hs : s.seq with _ | ⟨cmd, k, q, rest, loc⟩
  · exact .inl ⟨rfl, execWith_idle p i s hs⟩
  · by_cases hc : cmd = i
    · subst hc; exact .inr (.inl ⟨k, q, rest, loc, rfl, execWith_busy p s hs⟩)
    · exact .inr (.inr ⟨cmd, k, q, rest, loc, rfl, hc, execWith_held p s hs hc⟩)

/-! ### Several steps -/

@[simp] theorem execTimesWith_zero (p : Params) (i : Instr) (s : State) : execTimesWith p 0 i s = s := rfl

theorem execTimesWith_succ (p : Params) (n : Nat) (i : Instr) (s : State) :
    execTimesWith p (n + 1) i s = execTimesWith p n i (execWith p i s) := rfl

theorem execTimesWith_add (p : Params) (m n : Nat) (i : Instr) (s : State) :
    execTimesWith p (m + n) i s = execTimesWith p n i (execTimesWith p m i s) := by
  induction m generalizing s with
  | zero => simp
  | succ m ih => rw [Nat.succ_add]; exact ih _

/-- A run of a command never stops: it is the run under the machine's parameters. -/
theorem execTimes_eq (n : Nat) (i : Instr) (s : State) :
    execTimes n i s = .next (execTimesWith Config.params n i s) := by
  induction n generalizing s with
  | zero => rfl
  | succ n ih => simp only [execTimes, exec_eq, execTimesWith_succ, ih]

/-! ### Settling -/

@[simp] theorem settle_nil (p : Params) (s : State) (loc : Local) : settle p s loc [] = .ended s loc := rfl
@[simp] theorem settle_prim (p : Params) (s : State) (loc : Local) (q : Prim) (rest : List MicroOp) :
    settle p s loc (.prim q :: rest) = .ready s loc q rest := rfl
theorem settle_resync_one (p : Params) (s : State) (loc : Local) (rest : List MicroOp) (h : s.mode = true) :
    settle p s loc (.resync :: rest) = settle p s loc rest := by simp [settle, h]
theorem settle_resync_zero (p : Params) (s : State) (loc : Local) (rest : List MicroOp) (h : s.mode = false) :
    settle p s loc (.resync :: rest) = .ready s loc .tapTLR (.prim (.sdirWrite 0x60) :: rest) := by simp [settle, h]
theorem settle_load_current (p : Params) (s : State) (loc : Local) (id : Fin 27) (rest : List MicroOp)
    (h : s.curOvl = id) : settle p s loc (.loadOverlay id :: rest) = settle p s loc rest := by simp [settle, h]
theorem settle_load_empty (p : Params) (s : State) (loc : Local) (id : Fin 27) (rest : List MicroOp)
    (h : s.curOvl ≠ id) (he : s.ovl[id] = []) : settle p s loc (.loadOverlay id :: rest) = .failed s .noOverlay := by
  simp only [settle, if_neg h, he]
theorem settle_load_upload (p : Params) (s : State) (loc : Local) (id : Fin 27) (rest : List MicroOp) (g : Segment)
    (gs : List Segment) (h : s.curOvl ≠ id) (he : s.ovl[id] = g :: gs) :
    settle p s loc (.loadOverlay id :: rest)
      = .ready s loc (.sdirWrite 0x50) (uploadAfterSelect p id g gs ++ rest) := by
  simp only [settle, if_neg h, he]
@[simp] theorem settle_setCurrent (p : Params) (s : State) (loc : Local) (id : Fin 27) (rest : List MicroOp) :
    settle p s loc (.setCurrent id :: rest) = settle p { s with curOvl := id } loc rest := rfl
@[simp] theorem settle_stub (p : Params) (s : State) (loc : Local) (rest : List MicroOp) :
    settle p s loc (.stub :: rest) = settle p s { loc with ni := true } rest := rfl

/-- What settling can do to the state: at most make an overlay current whose `setCurrent` stands in the body. -/
def SettlesWithin (p : Params) (s : State) (loc : Local) (ops : List MicroOp) : Prop :=
  ∃ id : Fin 27, (id = s.curOvl ∨ MicroOp.setCurrent id ∈ ops) ∧
    ((∃ loc', settle p s loc ops = .ended { s with curOvl := id } loc')
      ∨ (∃ kind, settle p s loc ops = .failed { s with curOvl := id } kind)
      ∨ ∃ loc' q rest, settle p s loc ops = .ready { s with curOvl := id } loc' q rest)

theorem settle_within (p : Params) (ops : List MicroOp) (s : State) (loc : Local) : SettlesWithin p s loc ops := by
  induction ops generalizing s loc with
  | nil => exact ⟨s.curOvl, .inl rfl, .inl ⟨loc, rfl⟩⟩
  | cons op rest ih =>
    have skip : ∀ loc', settle p s loc (op :: rest) = settle p s loc' rest → SettlesWithin p s loc (op :: rest) := by
      intro loc' heq
      obtain ⟨id, hid, h⟩ := ih s loc'
      exact ⟨id, hid.imp_right (.tail _), by rwa [heq]⟩
    cases op with
    | prim q => exact ⟨s.curOvl, .inl rfl, .inr (.inr ⟨loc, q, rest, rfl⟩)⟩
    | resync =>
      cases hm : s.mode with
      | true => exact skip loc (settle_resync_one p s loc rest hm)
      | false => exact ⟨s.curOvl, .inl rfl, .inr (.inr ⟨loc, _, _, settle_resync_zero p s loc rest hm⟩)⟩
    | loadOverlay id =>
      by_cases hc : s.curOvl = id
      · exact skip loc (settle_load_current p s loc id rest hc)
      · cases he : s.ovl[id] with
        | nil => exact ⟨s.curOvl, .inl rfl, .inr (.inl ⟨_, settle_load_empty p s loc id rest hc he⟩)⟩
        | cons g gs => exact ⟨s.curOvl, .inl rfl, .inr (.inr ⟨loc, _, _, settle_load_upload p s loc id rest g gs hc he⟩)⟩
    | setCurrent id =>
      obtain ⟨id', hid, h⟩ := ih { s with curOvl := id } loc
      exact ⟨id', hid.elim (fun h => .inr (by rw [h]; exact .head _)) (fun h => .inr (.tail _ h)), h⟩
    | stub => exact skip { loc with ni := true } rfl

/-! ### Performing -/

/-- At an aligned address a read completes with what the device answers (R69). -/
theorem State.memRead_aligned (s : State) (p : Params) (bus : BusWidth) (addr : Word32) (h : aligned bus addr = true) :
    s.memRead p bus addr
      = (s.drawn.emit (.memRead addr bus.bits (s.answer bus.bits)), some (s.answer bus.bits)) := by
  simp [State.memRead, State.busOutcome, h]

/-- At an aligned address every access completes. -/
theorem State.busOutcome_aligned (s : State) (p : Params) (bus : BusWidth) (addr : Word32) (a : BusAccess bus.bits)
    (h : aligned bus addr = true) : ∃ w, s.busOutcome p bus addr a = .completes w := by
  cases a <;> simp [State.busOutcome, h]

/-- At a misaligned address the platform decides (R69). -/
theorem State.busOutcome_misaligned (s : State) (p : Params) (bus : BusWidth) (addr : Word32) (a : BusAccess bus.bits)
    (h : aligned bus addr = false) : s.busOutcome p bus addr a = p.busMisaligned s.trace.length addr bus a := by
  simp [State.busOutcome, h]

/-- What a read can be: it completes and takes an answer, or, at a misaligned address, it never completes. -/
theorem State.memRead_cases (s : State) (p : Params) (bus : BusWidth) (addr : Word32) :
    (∃ w, s.memRead p bus addr = (s.drawn.emit (.memRead addr bus.bits w), some w))
      ∨ (aligned bus addr = false ∧ s.memRead p bus addr = (s.emit (.memReadOpen addr bus.bits), none)) := by
  by_cases ha : aligned bus addr = true
  · exact .inl ⟨_, s.memRead_aligned p bus addr ha⟩
  · simp only [State.memRead]
    cases s.busOutcome p bus addr (.read (s.answer bus.bits)) with
    | completes w => exact .inl ⟨w, rfl⟩
    | never => exact .inr ⟨by simpa using ha, rfl⟩

/-- A read looks at nothing but the answers and the count of events. -/
theorem State.memRead_seq (s : State) (p : Params) (bus : BusWidth) (addr : Word32) (x : Seq) :
    State.memRead { s with seq := x } p bus addr
      = ({ (s.memRead p bus addr).1 with seq := x }, (s.memRead p bus addr).2) := by
  have ha : State.answer { s with seq := x } bus.bits = s.answer bus.bits := rfl
  have ho : State.busOutcome { s with seq := x } p bus addr (.read (s.answer bus.bits))
      = s.busOutcome p bus addr (.read (s.answer bus.bits)) := rfl
  simp only [State.memRead, ha, ho]
  cases s.busOutcome p bus addr (.read (s.answer bus.bits)) <;> rfl

/-- A primitive that the body leaves after one step: all but the ready poll, the wait, and a misaligned bus access. -/
def Prim.plain : Prim → Bool
  | .memWrite bus addr _ => aligned bus addr
  | .memRead bus addr => aligned bus addr
  | .pollReady _ _ => false
  | .busWait => false
  | _ => true

/-- The state after a primitive. -/
def Prim.state (p : Params) (q : Prim) (s : State) : State := (perform p q s (Local.start .done)).1

/-- The locals after a plain primitive. -/
def Prim.locals (p : Params) (q : Prim) (s : State) (loc : Local) : Local := (perform p q s loc).2.1

theorem perform_plain (p : Params) (q : Prim) (s : State) (loc : Local) (h : q.plain = true) :
    perform p q s loc = (q.state p s, q.locals p s loc, .onward) := by
  cases q with
  | memWrite bus addr v =>
    obtain ⟨w, hw⟩ := s.busOutcome_aligned p bus addr (.write (v.setWidth bus.bits)) h
    simp [Prim.state, Prim.locals, perform, hw]
  | memRead bus addr => simp [Prim.state, Prim.locals, perform, s.memRead_aligned p bus addr h]
  | pollReady bus addr => cases h
  | busWait => cases h
  | _ => rfl

/-- The state after a read is the bus's, whatever the body makes of the word. -/
theorem Prim.state_memRead (p : Params) (bus : BusWidth) (addr : Word32) (s : State) :
    (Prim.memRead bus addr).state p s = (s.memRead p bus addr).1 := by
  simp only [Prim.state, perform]
  rcases s.memRead_cases p bus addr with ⟨w, h⟩ | ⟨-, h⟩ <;> simp only [h]

theorem Prim.state_pollReady (p : Params) (bus : BusWidth) (addr : Word32) (s : State) :
    (Prim.pollReady bus addr).state p s = (s.memRead p bus addr).1 := by
  simp only [Prim.state, perform]
  rcases s.memRead_cases p bus addr with ⟨w, h⟩ | ⟨-, h⟩ <;> simp only [h]

/-- The position of the sequencer is neither read nor written by a primitive. -/
theorem Prim.state_seq (p : Params) (q : Prim) (s : State) (x : Seq) :
    q.state p { s with seq := x } = { q.state p s with seq := x } := by
  cases q with
  | memRead bus addr => simp only [Prim.state_memRead, State.memRead_seq]
  | pollReady bus addr => simp only [Prim.state_pollReady, State.memRead_seq]
  | sdirWrite op => simp only [Prim.state, perform, State.sdirWrite, modeUpdateIR_eq]; rfl
  | dataWrite d => simp only [Prim.state, perform, State.dataWrite, modeUpdateData_eq]; rfl
  | _ => rfl

theorem Prim.locals_seq (p : Params) (q : Prim) (s : State) (loc : Local) (x : Seq) :
    q.locals p { s with seq := x } loc = q.locals p s loc := by
  cases q with
  | memRead bus addr =>
    simp only [Prim.locals, perform, State.memRead_seq]
    rcases s.memRead_cases p bus addr with ⟨w, h⟩ | ⟨-, h⟩ <;> simp only [h]
  | pollReady bus addr =>
    simp only [Prim.locals, perform, State.memRead_seq]
    rcases s.memRead_cases p bus addr with ⟨w, h⟩ | ⟨-, h⟩ <;> simp only [h]
  | _ => rfl

/-- The state and the locals after a list of plain primitives. -/
def runPrims (p : Params) : List Prim → State × Local → State × Local
  | [], sl => sl
  | q :: qs, sl => runPrims p qs (q.state p sl.1, q.locals p sl.1 sl.2)

theorem runPrims_append (p : Params) (qs rs : List Prim) (sl : State × Local) :
    runPrims p (qs ++ rs) sl = runPrims p rs (runPrims p qs sl) := by
  induction qs generalizing sl with
  | nil => rfl
  | cons q qs ih => exact ih _

theorem runPrims_seq (p : Params) (qs : List Prim) (s : State) (loc : Local) (x : Seq) :
    runPrims p qs ({ s with seq := x }, loc)
      = ({ (runPrims p qs (s, loc)).1 with seq := x }, (runPrims p qs (s, loc)).2) := by
  induction qs generalizing s loc with
  | nil => rfl
  | cons q qs ih => simp only [runPrims, Prim.state_seq, Prim.locals_seq, ih]

/-- What `pause` does with a position `x` of the sequencer that a settled state still holds: it overwrites it. -/
theorem settle_seq (p : Params) (cmd : Instr) (k : Nat) (ops : List MicroOp) (s : State) (loc : Local) (x : Seq) :
    pause p cmd k (settle p { s with seq := x } loc ops) = pause p cmd k (settle p s loc ops) := by
  induction ops generalizing s loc with
  | nil => rfl
  | cons op rest ih =>
    cases op with
    | prim q => rfl
    | resync =>
      simp only [settle]
      split
      · exact ih s loc
      · rfl
    | loadOverlay id =>
      simp only [settle]
      split
      · exact ih s loc
      · split <;> rfl
    | setCurrent id => exact ih { s with curOvl := id } loc
    | stub => exact ih s _

theorem advance_plain (p : Params) (cmd : Instr) (k : Nat) (q : Prim) (rest : List MicroOp) (loc : Local) (s : State)
    (h : q.plain = true) :
    advance p cmd k q rest loc s = pause p cmd (k + 1) (settle p (q.state p s) (q.locals p s loc) rest) := by
  simp only [advance, perform_plain p q s loc h]

/-- A run of plain primitives: after `q :: qs` the body settles at what stands behind them. -/
theorem execTimesWith_prims (p : Params) (cmd : Instr) (qs : List Prim) (tail : List MicroOp) :
    ∀ (k : Nat) (q : Prim) (loc : Local) (s : State), (∀ r ∈ q :: qs, r.plain = true) →
      execTimesWith p qs.length cmd (advance p cmd k q (qs.map .prim ++ tail) loc s)
        = pause p cmd (k + qs.length + 1)
            (settle p (runPrims p (q :: qs) (s, loc)).1 (runPrims p (q :: qs) (s, loc)).2 tail) := by
  induction qs with
  | nil =>
    intro k q loc s h
    simp [advance_plain p cmd k q tail loc s (h q (by simp)), runPrims]
  | cons r qs ih =>
    intro k q loc s h
    have hq := h q (by simp)
    rw [advance_plain p cmd k q _ loc s hq]
    simp only [List.map_cons, List.cons_append, settle_prim, pause, List.length_cons]
    rw [execTimesWith_succ, execWith_busy p _ rfl, ih (k + 1) r _ _ (fun x hx => h x (by simp_all))]
    rw [runPrims_seq, settle_seq]
    simp only [runPrims]
    congr 1
    omega

/-- A whole command that starts with plain primitives: the first step starts it. -/
theorem execTimesWith_start (p : Params) (cmd : Instr) (s : State) (h : s.seq = .idle) (q : Prim) (qs : List Prim)
    (tail : List MicroOp) (s0 : State) (loc0 : Local)
    (hb : settle p (bodyOf cmd p s).state (Local.start (bodyOf cmd p s).fin) (bodyOf cmd p s).ops
      = .ready s0 loc0 q (qs.map .prim ++ tail))
    (hp : ∀ r ∈ q :: qs, r.plain = true) :
    execTimesWith p (qs.length + 1) cmd s
      = pause p cmd (qs.length + 1)
          (settle p (runPrims p (q :: qs) (s0, loc0)).1 (runPrims p (q :: qs) (s0, loc0)).2 tail) := by
  rw [execTimesWith_succ, execWith_idle p cmd s h, start, hb]
  have := execTimesWith_prims p cmd qs tail 0 q loc0 s0 hp
  rwa [Nat.zero_add] at this

/-- The poll goes on just when the status read is not ready and the limit is not reached by this read (R251, R252). -/
theorem pollAgain_polled (p : Params) (loc : Local) (bus : BusWidth) (sr : Word32) :
    pollAgain p (loc.polled p bus sr)
      = (!ready p.statusMasks bus sr && decide (p.pollLimit ≠ some (loc.polls + 1))) := by
  unfold pollAgain
  cases p.pollLimit with
  | none => simp [Local.polled]
  | some n => simp [Local.polled, bne, eq_comm, beq_eq_decide]

/-! ### The host port -/

theorem State.memRead_inbox (s : State) (p : Params) (bus : BusWidth) (addr : Word32) (x : List (List Byte)) :
    State.memRead { s with inbox := x } p bus addr
      = ({ (s.memRead p bus addr).1 with inbox := x }, (s.memRead p bus addr).2) := by
  have ha : State.answer { s with inbox := x } bus.bits = s.answer bus.bits := rfl
  have ho : State.busOutcome { s with inbox := x } p bus addr (.read (s.answer bus.bits))
      = s.busOutcome p bus addr (.read (s.answer bus.bits)) := rfl
  simp only [State.memRead, ha, ho]
  cases s.busOutcome p bus addr (.read (s.answer bus.bits)) <;> rfl

/-- The host port is neither read nor written by a primitive. -/
theorem perform_inbox (p : Params) (q : Prim) (s : State) (loc : Local) (x : List (List Byte)) :
    perform p q { s with inbox := x } loc
      = ({ (perform p q s loc).1 with inbox := x }, (perform p q s loc).2) := by
  cases q with
  | memRead bus addr | pollReady bus addr =>
    simp only [perform, State.memRead_inbox]
    rcases s.memRead_cases p bus addr with ⟨w, h⟩ | ⟨-, h⟩ <;> simp only [h]
  | sdirWrite op => simp only [perform, State.sdirWrite, modeUpdateIR_eq]; rfl
  | dataWrite d => simp only [perform, State.dataWrite, modeUpdateData_eq]; rfl
  | _ => rfl

/-- Nor by what stands before the next primitive. -/
theorem settle_inbox (p : Params) (cmd : Instr) (k : Nat) (ops : List MicroOp) (s : State) (loc : Local)
    (x : List (List Byte)) :
    pause p cmd k (settle p { s with inbox := x } loc ops) = { pause p cmd k (settle p s loc ops) with inbox := x } := by
  induction ops generalizing s loc with
  | nil => rfl
  | cons op rest ih =>
    cases op with
    | prim q => rfl
    | resync =>
      simp only [settle]
      split
      · exact ih s loc
      · rfl
    | loadOverlay id =>
      simp only [settle]
      split
      · exact ih s loc
      · split <;> rfl
    | setCurrent id => exact ih { s with curOvl := id } loc
    | stub => exact ih s _

/-- A step of a running command neither reads nor writes the host port (R347). -/
theorem advance_inbox (p : Params) (cmd : Instr) (k : Nat) (q : Prim) (rest : List MicroOp) (loc : Local) (s : State)
    (x : List (List Byte)) :
    advance p cmd k q rest loc { s with inbox := x } = { advance p cmd k q rest loc s with inbox := x } := by
  unfold advance
  rw [perform_inbox]
  rcases perform p q s loc with ⟨s', loc', _ | _ | _⟩
  · exact settle_inbox ..
  · rfl
  · rfl

end Sys2Proof.Machine
end

