-- ==== Sys2Proof/Laws/Ops.lean ====
section
/-! SUPPORT. What each shared operation can do, said once: a primitive appends one event of its unit and writes its
unit's registers alone; settling a body of one unit's primitives stays in that unit; a step of a command is one of
these. -/

namespace Sys2Proof.Machine

/-! ### The parameters' constraints -/

theorem Params.statusMasks_valid (p : Params) : p.statusMasks.valid = true := by
  unfold Params.statusMasks
  split
  · assumption
  · decide

theorem Params.ovlBootInit_ne_zero (p : Params) : p.ovlBootInit ≠ 0 := by
  unfold Params.ovlBootInit
  split
  · rename_i h; simp only [Params.overlaysValid, decide_eq_true_eq] at h; exact h.1
  · decide

theorem Params.ovlBootReset_ne_zero (p : Params) : p.ovlBootReset ≠ 0 := by
  unfold Params.ovlBootReset
  split
  · rename_i h; simp only [Params.overlaysValid, decide_eq_true_eq] at h; exact h.2.1
  · decide

theorem Params.ovlBoot_ne (p : Params) : p.ovlBootInit ≠ p.ovlBootReset := by
  unfold Params.ovlBootInit Params.ovlBootReset
  split
  · rename_i h; simp only [Params.overlaysValid, decide_eq_true_eq] at h; exact h.2.2
  · decide

theorem Params.pollLimit_pos (p : Params) {n : Nat} (h : p.pollLimit = some n) : 0 < n := by
  unfold Params.pollLimit at h
  split at h
  · cases h; omega
  · cases h

theorem sumBelow_le (f : Nat → Nat) {m n : Nat} (h : m ≤ n) : sumBelow f m ≤ sumBelow f n := by
  induction h with
  | refl => exact le_rfl
  | step _ ih => exact ih.trans (Nat.le_add_right _ _)

/-- R128: the select pattern's width grows with the padding. -/
theorem Params.tmcSelectPattern_grows (p : Params) (sel : Word32) {a b : Word16} (h : a.toNat < b.toNat) :
    (p.tmcSelectPattern sel a).width < (p.tmcSelectPattern sel b).width := by
  have := sumBelow_le (p.tmcSelectGrowth sel) h.le
  simp only [Params.tmcSelectPattern, Params.tmcSelectWidth]
  omega

/-- R173: the machine's layout meets the packings' constraint. -/
theorem Params.isrLayout_valid (p : Params) : p.isrLayout.valid = true := by
  unfold Params.isrLayout
  split
  · assumption
  · decide

/-- A field's value depends on its two raw reads alone (R173). -/
theorem IsrField.value_congr (f : IsrField) (raw raw' : Vector Word32 8) (h1 : raw[f.first] = raw'[f.first])
    (h2 : raw[f.second] = raw'[f.second]) : f.value raw = f.value raw' := by
  have hs : ∀ c, raw[f.source c] = raw'[f.source c] := by
    intro c; unfold IsrField.source; split <;> assumption
  simp only [IsrField.value, hs]

/-! ### One primitive -/

/-- The events a primitive appends at a state: one, and none in the wait for a bus access that never completes. -/
def Prim.events (p : Params) (q : Prim) (s : State) : List Event :=
  match q with
  | .tapTLR => [.tapTLR]
  | .tapIdle => [.tapIdle]
  | .tmcIR v => [.tapIR 5 v (s.answer 5)]
  | .sdirWrite op => [.tapIR 8 op (s.answer 8)]
  | .dsuIR pat => [.tapIR pat.width pat.value (s.answer pat.width)]
  | .drWrite sh => [.tapDR sh.width sh.value (s.answer sh.width)]
  | .drRead n => [.tapDR n 0 (s.answer n)]
  | .dataWrite d => [.tapDR 32 d (s.answer 32)]
  | .rawSignal mask value => [.rawSignal mask value s.rawOk]
  | .delay us => [.delay us]
  | .memWrite bus addr v => [.memWrite addr bus.bits (v.setWidth bus.bits)]
  | .memRead bus addr | .pollReady bus addr =>
    match (s.memRead p bus addr).2 with
    | some w => [.memRead addr bus.bits w]
    | none => [.memReadOpen addr bus.bits]
  | .busWait => []

/-- R60: a primitive appends exactly one event, but for the wait. -/
theorem Prim.events_one (p : Params) (q : Prim) (s : State) (h : q ≠ .busWait) : ∃ e, q.events p s = [e] := by
  cases q with
  | busWait => exact absurd rfl h
  | memRead bus addr | pollReady bus addr =>
    simp only [Prim.events]
    split <;> exact ⟨_, rfl⟩
  | _ => exact ⟨_, rfl⟩

/-- The state after a primitive does not depend on the locals. -/
theorem perform_state (p : Params) (q : Prim) (s : State) (loc : Local) : (perform p q s loc).1 = q.state p s := by
  cases q with
  | memRead bus addr | pollReady bus addr =>
    simp only [Prim.state, perform]
    rcases s.memRead_cases p bus addr with ⟨w, h⟩ | ⟨-, h⟩ <;> simp only [h]
  | _ => rfl

/-- A primitive appends its events to the trace (R60). -/
@[simp] theorem Prim.state_trace (p : Params) (q : Prim) (s : State) :
    (q.state p s).trace = s.trace ++ q.events p s := by
  cases q with
  | sdirWrite op => simp only [Prim.state, perform, State.sdirWrite, modeUpdateIR_eq]; rfl
  | dataWrite d => simp only [Prim.state, perform, State.dataWrite, modeUpdateData_eq]; rfl
  | memRead bus addr =>
    simp only [Prim.state_memRead, Prim.events]
    rcases s.memRead_cases p bus addr with ⟨w, h⟩ | ⟨-, h⟩ <;> simp only [h] <;> rfl
  | pollReady bus addr =>
    simp only [Prim.state_pollReady, Prim.events]
    rcases s.memRead_cases p bus addr with ⟨w, h⟩ | ⟨-, h⟩ <;> simp only [h] <;> rfl
  | busWait => exact (List.append_nil _).symm
  | _ => rfl

/-- All a bus read writes is the trace and the book of draws. -/
theorem State.memRead_fields (s : State) (p : Params) (bus : BusWidth) (addr : Word32) :
    ∃ (es : List Event) (as : List Nat) (n : Nat),
      (s.memRead p bus addr).1 = { s with trace := es, answers := as, draws := n } := by
  rcases s.memRead_cases p bus addr with ⟨w, h⟩ | ⟨-, h⟩ <;> exact ⟨_, _, _, by rw [h]; rfl⟩

/-- The same for the two primitives that read the bus. -/
theorem Prim.state_busRead (p : Params) (q : Prim) (s : State) {bus : BusWidth} {addr : Word32}
    (h : q = .memRead bus addr ∨ q = .pollReady bus addr) :
    ∃ (es : List Event) (as : List Nat) (n : Nat), q.state p s = { s with trace := es, answers := as, draws := n } := by
  obtain rfl | rfl := h
  · rw [Prim.state_memRead]; exact s.memRead_fields p bus addr
  · rw [Prim.state_pollReady]; exact s.memRead_fields p bus addr

/-- What no primitive writes: the sequencer's position, the results, the host port, the padding, the table, the current
overlay, the driver, and what is allocated. -/
theorem Prim.state_frame (p : Params) (q : Prim) (s : State) :
    (q.state p s).seq = s.seq ∧ (q.state p s).res = s.res ∧ (q.state p s).results = s.results
      ∧ (q.state p s).inbox = s.inbox ∧ (q.state p s).resetReq = s.resetReq ∧ (q.state p s).tmcPad = s.tmcPad
      ∧ (q.state p s).ovl = s.ovl ∧ (q.state p s).curOvl = s.curOvl ∧ (q.state p s).driver = s.driver
      ∧ (q.state p s).tmcAlloc = s.tmcAlloc ∧ (q.state p s).hudiAlloc = s.hudiAlloc
      ∧ (q.state p s).dsuAlloc = s.dsuAlloc ∧ (q.state p s).frees = s.frees := by
  cases q with
  | sdirWrite op => simp only [Prim.state, perform, State.sdirWrite, modeUpdateIR_eq]; exact ⟨rfl, rfl, rfl, rfl, rfl, rfl, rfl, rfl, rfl, rfl, rfl, rfl, rfl⟩
  | dataWrite d => simp only [Prim.state, perform, State.dataWrite, modeUpdateData_eq]; exact ⟨rfl, rfl, rfl, rfl, rfl, rfl, rfl, rfl, rfl, rfl, rfl, rfl, rfl⟩
  | memRead bus addr => obtain ⟨_, _, _, h⟩ := Prim.state_busRead p _ s (.inl rfl); rw [h]; exact ⟨rfl, rfl, rfl, rfl, rfl, rfl, rfl, rfl, rfl, rfl, rfl, rfl, rfl⟩
  | pollReady bus addr => obtain ⟨_, _, _, h⟩ := Prim.state_busRead p _ s (.inr rfl); rw [h]; exact ⟨rfl, rfl, rfl, rfl, rfl, rfl, rfl, rfl, rfl, rfl, rfl, rfl, rfl⟩
  | _ => exact ⟨rfl, rfl, rfl, rfl, rfl, rfl, rfl, rfl, rfl, rfl, rfl, rfl, rfl⟩

/-- Only the TAP-Mux unit's IR shift writes its pair. -/
theorem Prim.state_tmc (p : Params) (q : Prim) (s : State) (h : ∀ v, q ≠ .tmcIR v) :
    (q.state p s).rir = s.rir ∧ (q.state p s).wir = s.wir := by
  cases q with
  | tmcIR v => exact absurd rfl (h v)
  | sdirWrite op => simp only [Prim.state, perform, State.sdirWrite, modeUpdateIR_eq]; exact ⟨rfl, rfl⟩
  | dataWrite d => simp only [Prim.state, perform, State.dataWrite, modeUpdateData_eq]; exact ⟨rfl, rfl⟩
  | memRead bus addr => obtain ⟨_, _, _, h⟩ := Prim.state_busRead p _ s (.inl rfl); rw [h]; exact ⟨rfl, rfl⟩
  | pollReady bus addr => obtain ⟨_, _, _, h⟩ := Prim.state_busRead p _ s (.inr rfl); rw [h]; exact ⟨rfl, rfl⟩
  | _ => exact ⟨rfl, rfl⟩

/-- Only an SDIR write writes the HUDI pair. -/
theorem Prim.state_hudi (p : Params) (q : Prim) (s : State) (h : ∀ op, q ≠ .sdirWrite op) :
    (q.state p s).rsdir = s.rsdir ∧ (q.state p s).wsdir = s.wsdir ∧ (q.state p s).locked = s.locked
      ∧ (q.state p s).savedMode = s.savedMode := by
  cases q with
  | sdirWrite op => exact absurd rfl (h op)
  | dataWrite d => simp only [Prim.state, perform, State.dataWrite, modeUpdateData_eq]; exact ⟨rfl, rfl, rfl, rfl⟩
  | memRead bus addr => obtain ⟨_, _, _, h⟩ := Prim.state_busRead p _ s (.inl rfl); rw [h]; exact ⟨rfl, rfl, rfl, rfl⟩
  | pollReady bus addr => obtain ⟨_, _, _, h⟩ := Prim.state_busRead p _ s (.inr rfl); rw [h]; exact ⟨rfl, rfl, rfl, rfl⟩
  | _ => exact ⟨rfl, rfl, rfl, rfl⟩

/-- Only the sweep's IR shift writes the DSU pair. -/
theorem Prim.state_dsu (p : Params) (q : Prim) (s : State) (h : ∀ pat, q ≠ .dsuIR pat) :
    (q.state p s).dsurir = s.dsurir ∧ (q.state p s).dsuwir = s.dsuwir := by
  cases q with
  | dsuIR v => exact absurd rfl (h v)
  | sdirWrite op => simp only [Prim.state, perform, State.sdirWrite, modeUpdateIR_eq]; exact ⟨rfl, rfl⟩
  | dataWrite d => simp only [Prim.state, perform, State.dataWrite, modeUpdateData_eq]; exact ⟨rfl, rfl⟩
  | memRead bus addr => obtain ⟨_, _, _, h⟩ := Prim.state_busRead p _ s (.inl rfl); rw [h]; exact ⟨rfl, rfl⟩
  | pollReady bus addr => obtain ⟨_, _, _, h⟩ := Prim.state_busRead p _ s (.inr rfl); rw [h]; exact ⟨rfl, rfl⟩
  | _ => exact ⟨rfl, rfl⟩

/-- Only an SDIR write and a data write change the mode, a data write only when unlocked. -/
theorem Prim.state_mode (p : Params) (q : Prim) (s : State) (h : ∀ op, q ≠ .sdirWrite op)
    (hd : s.locked = true ∨ ∀ d, q ≠ .dataWrite d) : (q.state p s).mode = s.mode := by
  cases q with
  | sdirWrite op => exact absurd rfl (h op)
  | dataWrite d =>
    rcases hd with hl | hd
    · simp only [Prim.state, perform, State.dataWrite, modeUpdateData_eq]; simp [State.tapDR, hl]
    · exact absurd rfl (hd d)
  | memRead bus addr => obtain ⟨_, _, _, h⟩ := Prim.state_busRead p _ s (.inl rfl); rw [h]
  | pollReady bus addr => obtain ⟨_, _, _, h⟩ := Prim.state_busRead p _ s (.inr rfl); rw [h]
  | _ => rfl

/-- R29 at one primitive: `locked` implies `mode`. -/
theorem Prim.state_locked_mode (p : Params) (q : Prim) (s : State) (h : s.locked = true → s.mode = true) :
    (q.state p s).locked = true → (q.state p s).mode = true := by
  cases q with
  | sdirWrite op =>
    simp only [Prim.state, perform, State.sdirWrite, modeUpdateIR_eq]
    simp only [State.tapIR, State.emit_locked, State.drawn_locked, State.emit_mode, State.drawn_mode]
    split
    · simp
    · split
      · simp
      · intro hl; simp_all
  | dataWrite d =>
    simp only [Prim.state, perform, State.dataWrite, modeUpdateData_eq]
    simp only [State.tapDR, State.emit_locked, State.drawn_locked, State.emit_mode, State.drawn_mode]
    intro hl; simp_all
  | memRead bus addr => obtain ⟨_, _, _, hs⟩ := Prim.state_busRead p _ s (.inl rfl); rw [hs]; exact h
  | pollReady bus addr => obtain ⟨_, _, _, hs⟩ := Prim.state_busRead p _ s (.inr rfl); rw [hs]; exact h
  | _ => exact h

/-- A property of the one event a primitive appends is one of all its events. -/
theorem Prim.events_forall {p : Params} {q : Prim} {s : State} {e : Event} {P : Event → Prop} (hq : q.events p s = [e])
    (h : P e) : ∀ e' ∈ q.events p s, P e' := by
  intro e' he'
  rw [hq] at he'
  rwa [List.mem_singleton.mp he']

/-- A primitive of a unit appends events of allowed widths (R62, R70). -/
theorem Prim.events_allowed {p : Params} {u : UnitName} {q : Prim} (s : State) (h : q.allowed p u) :
    ∀ e ∈ q.events p s, e.allowed p := by
  cases q with
  | memRead bus addr | pollReady bus addr =>
    obtain ⟨-, rfl⟩ := h
    simp only [Prim.events]
    split <;> simp [Event.allowed]
  | memWrite bus addr v =>
    obtain ⟨-, rfl⟩ := h
    exact Prim.events_forall rfl rfl
  | busWait => intro e he; cases he
  | tmcIR v => exact Prim.events_forall rfl ⟨by decide, by decide⟩
  | sdirWrite op => exact Prim.events_forall rfl ⟨by decide, by decide⟩
  | dsuIR pat => exact Prim.events_forall rfl h.2
  | drRead n =>
    refine Prim.events_forall rfl ?_
    cases u <;> first | exact h.elim | exact .inl h | exact .inr (.inl h)
  | dataWrite d => exact Prim.events_forall rfl (.inl rfl)
  | drWrite sh =>
    refine Prim.events_forall rfl ?_
    cases u with
    | tmc =>
      obtain ⟨sel, pad, rfl⟩ | ⟨pad, rfl⟩ := h
      · exact .inr (.inr (.inl ⟨sel, pad, rfl⟩))
      · exact .inr (.inr (.inr ⟨pad, rfl⟩))
    | hudi => exact .inl h
    | flash => exact h.elim
    | dsu => exact .inr (.inl h)
  | _ => exact Prim.events_forall rfl trivial

/-- Only a flash command's primitives are bus accesses (R61). -/
theorem Prim.events_bus {p : Params} {u : UnitName} {q : Prim} (s : State) (h : q.allowed p u) (hu : u ≠ .flash) :
    ∀ e ∈ q.events p s, ∀ addr n,
      (∀ v, e ≠ .memRead addr n v) ∧ e ≠ .memReadOpen addr n ∧ ∀ v, e ≠ .memWrite addr n v := by
  cases q with
  | memRead _ _ | pollReady _ _ | memWrite _ _ _ => exact absurd h.1 hu
  | busWait => exact absurd h hu
  | _ => exact Prim.events_forall rfl fun _ _ => ⟨nofun, nofun, nofun⟩

/-! ### Settling within a unit -/

theorem aseramShifts_allowed (p : Params) (ovl : OverlayTable) (boot : Word32) (words : List Word32) :
    ∀ op ∈ aseramShifts p boot words, op.allowed p ovl .hudi := by
  intro op h
  simp only [aseramShifts, List.mem_cons, List.mem_map] at h
  rcases h with rfl | ⟨w, _, rfl⟩ <;> rfl

theorem writeAseram_allowed (p : Params) (ovl : OverlayTable) (boot : Word32) (words : List Word32) :
    ∀ op ∈ writeAseram p boot words, op.allowed p ovl .hudi := by
  intro op h
  rcases List.mem_cons.mp h with rfl | h
  · exact ⟨rfl, by decide⟩
  · exact aseramShifts_allowed p ovl boot words op h

theorem uploadAfterSelect_allowed (p : Params) (ovl : OverlayTable) (id : Fin 27) (g : Segment) (gs : List Segment)
    (h : ovl[id] ≠ []) : ∀ op ∈ uploadAfterSelect p id g gs, op.allowed p ovl .hudi := by
  intro op hop
  simp only [uploadAfterSelect, List.mem_append, List.mem_flatMap, List.mem_cons, List.not_mem_nil, or_false] at hop
  rcases hop with (hop | ⟨g', _, hop⟩) | rfl | rfl
  · exact aseramShifts_allowed p ovl _ _ op hop
  · exact writeAseram_allowed p ovl _ _ op hop
  · exact ⟨rfl, by decide⟩
  · exact ⟨rfl, h⟩

/-- Settling a body whose elements are allowed: the state keeps all but a current overlay that is loaded, and what is
left is allowed. -/
theorem settle_allowed (p : Params) (u : UnitName) (ops : List MicroOp) (s : State) (loc : Local)
    (h : ∀ op ∈ ops, op.allowed p s.ovl u) :
    ∃ id : Fin 27, (id = s.curOvl ∨ (u = .hudi ∧ s.ovl[id] ≠ [])) ∧
      ((∃ loc', settle p s loc ops = .ended { s with curOvl := id } loc')
        ∨ (∃ kind, settle p s loc ops = .failed { s with curOvl := id } kind)
        ∨ ∃ loc' q rest, settle p s loc ops = .ready { s with curOvl := id } loc' q rest ∧ q.allowed p u
            ∧ ∀ op ∈ rest, op.allowed p s.ovl u) := by
  induction ops generalizing s loc with
  | nil => exact ⟨s.curOvl, .inl rfl, .inl ⟨loc, rfl⟩⟩
  | cons op rest ih =>
    have hr : ∀ o ∈ rest, o.allowed p s.ovl u := fun o ho => h o (.tail _ ho)
    have hop := h op (.head _)
    cases op with
    | prim q => exact ⟨s.curOvl, .inl rfl, .inr (.inr ⟨loc, q, rest, rfl, hop, hr⟩)⟩
    | resync =>
      by_cases hm : s.mode = true
      · rw [settle_resync_one p s loc rest hm]; exact ih s loc hr
      · rw [settle_resync_zero p s loc rest (by simpa using hm)]
        have hu : u = .hudi := hop
        subst hu
        refine ⟨s.curOvl, .inl rfl, .inr (.inr ⟨loc, _, _, rfl, rfl, ?_⟩)⟩
        intro o ho
        rcases List.mem_cons.mp ho with rfl | ho
        · exact ⟨rfl, by decide⟩
        · exact hr o ho
    | loadOverlay id =>
      have hu : u = .hudi := hop
      subst hu
      by_cases hc : s.curOvl = id
      · rw [settle_load_current p s loc id rest hc]; exact ih s loc hr
      · cases he : s.ovl[id] with
        | nil => rw [settle_load_empty p s loc id rest hc he]; exact ⟨s.curOvl, .inl rfl, .inr (.inl ⟨_, rfl⟩)⟩
        | cons g gs =>
          rw [settle_load_upload p s loc id rest g gs hc he]
          refine ⟨s.curOvl, .inl rfl, .inr (.inr ⟨loc, _, _, rfl, ⟨rfl, by decide⟩, ?_⟩)⟩
          intro o ho
          rcases List.mem_append.mp ho with ho | ho
          · exact uploadAfterSelect_allowed p s.ovl id g gs (by rw [he]; simp) o ho
          · exact hr o ho
    | setCurrent id =>
      obtain ⟨id', hid, hs⟩ := ih { s with curOvl := id } loc hr
      refine ⟨id', ?_, hs⟩
      rcases hid with rfl | hid
      · exact .inr hop
      · exact .inr hid
    | stub => exact ih s _ hr

/-! ### One step of a running command, and the first step of a command -/

/-- Where a primitive leaves the body: behind it, at it (a poll or the wait), or in the wait (a misaligned access). -/
theorem perform_after (p : Params) (q : Prim) (s : State) (loc : Local) :
    ((perform p q s loc).2.2 = .again → (q = .busWait ∧ (perform p q s loc).2.1 = loc) ∨ ∃ bus addr, q = .pollReady bus addr)
      ∧ ((perform p q s loc).2.2 = .waits → ∃ bus addr, aligned bus addr = false ∧
          (q = .memRead bus addr ∨ q = .pollReady bus addr ∨ ∃ v, q = .memWrite bus addr v)) := by
  cases q with
  | memRead bus addr =>
    simp only [perform]
    rcases s.memRead_cases p bus addr with ⟨w, h⟩ | ⟨ha, h⟩ <;> simp only [h]
    · exact ⟨by simp, by simp⟩
    · exact ⟨by simp, fun _ => ⟨bus, addr, ha, .inl rfl⟩⟩
  | pollReady bus addr =>
    refine ⟨fun _ => .inr ⟨bus, addr, rfl⟩, fun hw => ⟨bus, addr, ?_, .inr (.inl rfl)⟩⟩
    simp only [perform] at hw
    rcases s.memRead_cases p bus addr with ⟨w, h⟩ | ⟨ha, h⟩
    · simp only [h] at hw; split at hw <;> cases hw
    · exact ha
  | memWrite bus addr v =>
    have h0 : (perform p (.memWrite bus addr v) s loc).2.2
        = match s.busOutcome p bus addr (.write (v.setWidth bus.bits)) with
          | .completes _ => .onward
          | .never => .waits := rfl
    rw [h0]
    cases ha : aligned bus addr with
    | true =>
      obtain ⟨w, hw⟩ := s.busOutcome_aligned p bus addr (.write (v.setWidth bus.bits)) ha
      rw [hw]; exact ⟨by simp, by simp⟩
    | false =>
      refine ⟨?_, fun _ => ⟨bus, addr, ha, .inr (.inr ⟨v, rfl⟩)⟩⟩
      split <;> simp
  | busWait => exact ⟨fun _ => .inl ⟨rfl, rfl⟩, by simp [perform]⟩
  | _ => exact ⟨by simp [perform], by simp [perform]⟩

/-- What one step of a running command leaves: the state after its primitive, with an overlay of the body made current
or not, and either the command's end or its next primitive: the one behind, the same in a poll or in the wait, or the
wait for a misaligned access. -/
theorem advance_cases (p : Params) (cmd : Instr) (k : Nat) (q : Prim) (rest : List MicroOp) (loc : Local) (s : State) :
    ∃ id : Fin 27, (id = s.curOvl ∨ MicroOp.setCurrent id ∈ rest) ∧
      ((∃ r, advance p cmd k q rest loc s = State.finish { q.state p s with curOvl := id } r)
        ∨ ∃ k' q' rest' loc', advance p cmd k q rest loc s
              = { q.state p s with curOvl := id, seq := .busy cmd k' q' rest' loc' }
            ∧ (k' = k + 1
              ∨ (k' = k ∧ q' = q ∧ rest' = rest ∧ ((q = .busWait ∧ loc' = loc) ∨ ∃ bus addr, q = .pollReady bus addr))
              ∨ (k' = k ∧ q' = .busWait ∧ rest' = rest ∧ ∃ bus addr, aligned bus addr = false ∧
                  (q = .memRead bus addr ∨ q = .pollReady bus addr ∨ ∃ v, q = .memWrite bus addr v)))) := by
  have hs := perform_state p q s loc
  have ha := perform_after p q s loc
  have hc : (q.state p s).curOvl = s.curOvl := (Prim.state_frame p q s).2.2.2.2.2.2.2.1
  unfold advance
  rcases hp : perform p q s loc with ⟨s', loc', after⟩
  rw [hp] at hs ha
  simp only at hs ha
  subst hs
  cases after with
  | onward =>
    obtain ⟨id, hid, h⟩ := settle_within p rest (q.state p s) loc'
    rw [hc] at hid
    refine ⟨id, hid, ?_⟩
    rcases h with ⟨loc'', h⟩ | ⟨kind, h⟩ | ⟨loc'', q', rest', h⟩ <;> simp only [h, pause]
    · exact .inl ⟨_, rfl⟩
    · exact .inl ⟨_, rfl⟩
    · exact .inr ⟨_, _, _, _, rfl, .inl rfl⟩
  | again =>
    refine ⟨s.curOvl, .inl rfl, .inr ⟨k, q, rest, loc', ?_, .inr (.inl ⟨rfl, rfl, rfl, ha.1 rfl⟩)⟩⟩
    simp only [← hc]
  | waits =>
    refine ⟨s.curOvl, .inl rfl, .inr ⟨k, .busWait, rest, loc', ?_, .inr (.inr ⟨rfl, rfl, rfl, ha.2 rfl⟩)⟩⟩
    simp only [← hc]

/-- The wait for a bus access that never completes changes nothing (R69). -/
theorem execWith_busWait (p : Params) (cmd : Instr) (k : Nat) (rest : List MicroOp) (loc : Local) (s : State)
    (h : s.seq = .busy cmd k .busWait rest loc) : execWith p cmd s = s := by
  rw [execWith_busy p s h]
  show { s with seq := .busy cmd k .busWait rest loc } = s
  rw [← h]

/-- What the first step of a command leaves: a command without a primitive ends, any other performs its first. -/
theorem start_cases (p : Params) (cmd : Instr) (b : Body) :
    ∃ id : Fin 27, (id = b.state.curOvl ∨ MicroOp.setCurrent id ∈ b.ops) ∧
      ((∃ r, start p cmd b = State.finish { b.state with curOvl := id } r)
        ∨ ∃ q rest loc, settle p b.state (Local.start b.fin) b.ops = .ready { b.state with curOvl := id } loc q rest
            ∧ start p cmd b = advance p cmd 0 q rest loc { b.state with curOvl := id }) := by
  obtain ⟨id, hid, h⟩ := settle_within p b.ops b.state (Local.start b.fin)
  refine ⟨id, hid, ?_⟩
  unfold start
  rcases h with ⟨loc, h⟩ | ⟨kind, h⟩ | ⟨loc, q, rest, h⟩ <;> simp only [h, pause]
  · exact .inl ⟨_, rfl⟩
  · exact .inl ⟨_, rfl⟩
  · exact .inr ⟨q, rest, loc, rfl, rfl⟩

end Sys2Proof.Machine
end

