-- ==== Sys2Proof/Laws/Bodies.lean ====
section
/-! SUPPORT. What every command body is: at its start nothing but its own unit's registers is written and no event is
there, and what stands in it is of its own unit. -/

namespace Sys2Proof.Machine

/-- What no body writes at its start: the position, the results, the port, the trace, the flags, the draws. -/
theorem bodyOf_frame (p : Params) (i : Instr) (s : State) :
    (bodyOf i p s).state.seq = s.seq ∧ (bodyOf i p s).state.res = s.res
      ∧ (bodyOf i p s).state.results = s.results ∧ (bodyOf i p s).state.inbox = s.inbox
      ∧ (bodyOf i p s).state.resetReq = s.resetReq ∧ (bodyOf i p s).state.trace = s.trace
      ∧ (bodyOf i p s).state.locked = s.locked ∧ (bodyOf i p s).state.mode = s.mode
      ∧ (bodyOf i p s).state.savedMode = s.savedMode := by
  cases i <;>
    simp only [bodyOf, bodyTmcResetBypass, bodyTmcReadDeviceId, bodyTmcReadChipId, bodyTmcSetPadding, bodyTmcTeardown,
      bodySdir, bodyHudiReadData, bodyHudiWriteData, bodyHudiInitialState, bodyHudiReadInternalStatus,
      bodyHudiWriteAseram, bodyHudiLoadOverlay, bodyHudiStartOverlay, bodyHudiAttach, bodyHudiStub, bodyHudiLoadTable,
      bodyHudiTeardown, bodyFlashAutodetect, bodyFlashPrintInfo, bodyFlashEraseBlock, bodyFlashUnlockBlock,
      bodyFlashProgram, bodyFlashReadArray, bodyDsuPeek, bodyDsuStub, bodyDsuTeardown, withDriver, Body.refuse] <;>
    (try split) <;>
    simp only [State.tmcInit_eq, State.hudiInit_eq, State.dsuInit_eq, State.tmcFree, State.hudiFree, State.dsuFree,
      and_self]

/-- Whose registers a body writes at its start: those of its own unit. -/
theorem bodyOf_units (p : Params) (i : Instr) (s : State) :
    (unitOf i ≠ .tmc → (bodyOf i p s).state.tmcAlloc = s.tmcAlloc ∧ (bodyOf i p s).state.rir = s.rir
        ∧ (bodyOf i p s).state.wir = s.wir ∧ (bodyOf i p s).state.tmcPad = s.tmcPad)
      ∧ (unitOf i ≠ .hudi → (bodyOf i p s).state.hudiAlloc = s.hudiAlloc ∧ (bodyOf i p s).state.rsdir = s.rsdir
        ∧ (bodyOf i p s).state.wsdir = s.wsdir ∧ (bodyOf i p s).state.curOvl = s.curOvl
        ∧ (bodyOf i p s).state.ovl = s.ovl)
      ∧ (unitOf i ≠ .flash → (bodyOf i p s).state.driver = s.driver)
      ∧ (unitOf i ≠ .dsu → (bodyOf i p s).state.dsuAlloc = s.dsuAlloc ∧ (bodyOf i p s).state.dsurir = s.dsurir
        ∧ (bodyOf i p s).state.dsuwir = s.dsuwir) := by
  refine ⟨fun h => ?_, fun h => ?_, fun h => ?_, fun h => ?_⟩ <;>
    cases i <;>
    first
    | exact absurd rfl h
    | simp only [bodyOf, bodyTmcResetBypass, bodyTmcReadDeviceId, bodyTmcReadChipId, bodyTmcSetPadding, bodyTmcTeardown,
        bodySdir, bodyHudiReadData, bodyHudiWriteData, bodyHudiInitialState, bodyHudiReadInternalStatus,
        bodyHudiWriteAseram, bodyHudiLoadOverlay, bodyHudiStartOverlay, bodyHudiAttach, bodyHudiStub, bodyHudiLoadTable,
        bodyHudiTeardown, bodyFlashAutodetect, bodyFlashPrintInfo, bodyFlashEraseBlock, bodyFlashUnlockBlock,
        bodyFlashProgram, bodyFlashReadArray, bodyDsuPeek, bodyDsuStub, bodyDsuTeardown, withDriver, Body.refuse] <;>
      (try split) <;>
      simp only [State.tmcInit_eq, State.hudiInit_eq, State.dsuInit_eq, State.tmcFree, State.hudiFree, State.dsuFree,
        and_self]

/-- The elements of an overlay start are HUDI's. -/
theorem startOverlay_allowed (p : Params) (ovl : OverlayTable) (id : Fin 27) (payload : List Word32) :
    ∀ op ∈ startOverlay p id payload, op.allowed p ovl .hudi := by
  intro op h
  simp only [startOverlay, List.mem_cons, List.mem_append, List.not_mem_nil, or_false] at h
  rcases h with rfl | (h | h) | rfl
  · rfl
  · split at h
    · exact writeAseram_allowed p ovl _ _ op h
    · cases h
  · exact writeAseram_allowed p ovl _ _ op h
  · exact ⟨rfl, by decide⟩

/-- The elements of one length of the DSU sweep are the DSU's. -/
theorem dsuLength_allowed (p : Params) (ovl : OverlayTable) (cmd : Word40) (l : Nat) (h : l < 40) :
    ∀ op ∈ dsuLength p cmd (l + 1), op.allowed p ovl .dsu := by
  intro op hop
  simp only [dsuLength, dsuPolls, List.mem_append, List.mem_cons, List.not_mem_nil, or_false, List.mem_flatMap] at hop
  rcases hop with (rfl | rfl | rfl) | ⟨q, _, hop | rfl⟩
  · exact ⟨rfl, show 1 ≤ l + 1 ∧ l + 1 ≤ 40 by omega⟩
  · rfl
  · rfl
  · split at hop
    · simp only [List.mem_cons, List.not_mem_nil, or_false] at hop; subst hop; exact .inr rfl
    · cases hop
  · rfl

/-- What stands in a body is of its command's unit, under a driver of the platform's width. -/
theorem bodyOf_allowed (p : Params) (i : Instr) (s : State) (ovl : OverlayTable)
    (hd : s.driver = .none ∨ s.driver.bus? = some p.busWidth) :
    ∀ op ∈ (bodyOf i p s).ops, op.allowed p ovl (unitOf i) := by
  have flash : ∀ f : BusWidth → Body,
      (∀ op ∈ (f p.busWidth).ops, op.allowed p ovl .flash) →
        ∀ op ∈ (withDriver s f).ops, op.allowed p ovl .flash := by
    intro f hf op hop
    unfold withDriver at hop
    split at hop
    · cases hop
    · rename_i bus hb
      rcases hd with hd | hd
      · simp [hd, Driver.bus?] at hb
      · rw [hd] at hb
        cases hb
        exact hf op hop
  cases i with
  | tmcResetBypass ch =>
    intro op hop
    simp only [bodyOf, bodyTmcResetBypass] at hop
    split at hop
    · cases hop
    · simp only [List.mem_flatMap, List.mem_cons, List.not_mem_nil, or_false] at hop
      obtain ⟨r, _, rfl | rfl⟩ := hop
      · rfl
      · exact .inl rfl
  | tmcReadDeviceId sel =>
    intro op hop
    simp only [bodyOf, bodyTmcReadDeviceId, List.mem_cons, List.not_mem_nil, or_false] at hop
    rcases hop with rfl | rfl | rfl | rfl | rfl
    · trivial
    · exact .inl ⟨_, _, rfl⟩
    · trivial
    · rfl
    · exact .inr ⟨_, rfl⟩
  | tmcReadChipId =>
    intro op hop
    simp only [bodyOf, bodyTmcReadChipId, List.mem_cons, List.not_mem_nil, or_false] at hop
    rcases hop with rfl | rfl
    · trivial
    · rfl
  | hudiReadData =>
    intro op hop
    simp only [bodyOf, bodyHudiReadData, readData, List.mem_cons, List.not_mem_nil, or_false] at hop
    rcases hop with rfl | rfl <;> rfl
  | hudiWriteData d =>
    intro op hop
    simp only [bodyOf, bodyHudiWriteData, List.mem_cons, List.not_mem_nil, or_false] at hop
    rcases hop with rfl | rfl
    · rfl
    · trivial
  | hudiInitialState =>
    intro op hop
    simp only [bodyOf, bodyHudiInitialState, List.mem_cons, List.not_mem_nil, or_false] at hop
    rcases hop with rfl | rfl
    · trivial
    · exact ⟨rfl, by decide⟩
  | hudiReadInternalStatus =>
    intro op hop
    simp only [bodyOf, bodyHudiReadInternalStatus, readData, List.mem_cons, List.mem_append, List.mem_flatten,
      List.mem_replicate, List.not_mem_nil, or_false] at hop
    rcases hop with rfl | ⟨l, ⟨_, rfl⟩, hop⟩ | rfl
    · exact ⟨rfl, by decide⟩
    · simp only [List.mem_cons, List.not_mem_nil, or_false] at hop
      rcases hop with rfl | rfl <;> rfl
    · exact ⟨rfl, by decide⟩
  | hudiWriteAseram boot words => exact writeAseram_allowed p ovl boot words
  | hudiLoadOverlay id =>
    intro op hop
    simp only [bodyOf, bodyHudiLoadOverlay] at hop
    split at hop
    · cases hop
    · simp only [List.mem_cons, List.not_mem_nil, or_false] at hop; subst hop; rfl
  | hudiStartOverlay id payload =>
    intro op hop
    simp only [bodyOf, bodyHudiStartOverlay] at hop
    split at hop
    · cases hop
    · exact startOverlay_allowed p ovl _ payload op hop
  | hudiAttach =>
    intro op hop
    simp only [bodyOf, bodyHudiAttach, List.mem_append, List.mem_cons, List.not_mem_nil, or_false] at hop
    rcases hop with hop | rfl | rfl | rfl | rfl | rfl | rfl | rfl
    · exact startOverlay_allowed p ovl _ _ op hop
    all_goals first
      | rfl
      | (exact ⟨rfl, by decide⟩)
  | hudiLoadTable t => cases t <;> (intro op hop; cases hop)
  | flashAutodetect c =>
    intro op hop
    simp only [bodyOf, bodyFlashAutodetect] at hop
    split at hop <;> cases hop
  | flashPrintInfo base =>
    refine flash _ ?_
    intro op hop
    simp only [List.mem_cons, List.not_mem_nil, or_false] at hop
    rcases hop with rfl | rfl | rfl | rfl | rfl <;> exact ⟨rfl, rfl⟩
  | flashEraseBlock base =>
    refine flash _ ?_
    intro op hop
    simp only [List.mem_cons, List.not_mem_nil, or_false] at hop
    rcases hop with rfl | rfl | rfl | rfl <;> exact ⟨rfl, rfl⟩
  | flashUnlockBlock base =>
    refine flash _ ?_
    intro op hop
    simp only [List.mem_cons, List.not_mem_nil, or_false] at hop
    rcases hop with rfl | rfl | rfl | rfl <;> exact ⟨rfl, rfl⟩
  | flashProgram base data =>
    refine flash _ ?_
    intro op hop
    simp only [List.mem_cons, List.not_mem_nil, or_false] at hop
    rcases hop with rfl | rfl | rfl | rfl <;> exact ⟨rfl, rfl⟩
  | flashReadArray base =>
    refine flash _ ?_
    intro op hop
    simp only [List.mem_cons, List.not_mem_nil, or_false] at hop
    subst hop; exact ⟨rfl, rfl⟩
  | dsuPeek reg =>
    intro op hop
    simp only [bodyOf, bodyDsuPeek, List.mem_flatMap, List.mem_range] at hop
    obtain ⟨l, hl, hop⟩ := hop
    exact dsuLength_allowed p ovl _ l hl op hop
  | _ =>
    intro op hop
    simp only [bodyOf, bodyTmcSetPadding, bodyTmcTeardown, bodySdir, bodyHudiStub, bodyHudiTeardown, bodyDsuStub,
      bodyDsuTeardown, List.mem_cons, List.not_mem_nil, or_false] at hop
    try (subst hop; exact ⟨rfl, by decide⟩)

/-! ### What one step of any command leaves -/

/-- One step of a command `i`, at a state whose running body `ops` (if any) and driver are in order: it is held, or it
ends without an event, or it performs one primitive of its unit at the state `s0` (its own state, or what its start
left), after which only the current overlay, the position and the results are still written. -/
theorem execWith_shape (p : Params) (i : Instr) (s : State)
    (hd : s.driver = .none ∨ s.driver.bus? = some p.busWidth)
    (hr : ∀ k q rest loc, s.seq = .busy i k q rest loc →
      q.allowed p (unitOf i) ∧ ∀ op ∈ rest, op.allowed p s.ovl (unitOf i)) :
    (execWith p i s = s.hold i ∧ s.seq ≠ .idle)
      ∨ (∃ (id : Fin 27) (r : Result), (id = (bodyOf i p s).state.curOvl ∨ unitOf i = .hudi) ∧ s.seq = .idle
          ∧ execWith p i s = State.finish { (bodyOf i p s).state with curOvl := id } r)
      ∨ ∃ (s0 : State) (q : Prim) (id : Fin 27),
          (s0 = s ∨ (s.seq = .idle ∧ ∃ id0 : Fin 27, (id0 = (bodyOf i p s).state.curOvl ∨ unitOf i = .hudi)
            ∧ s0 = { (bodyOf i p s).state with curOvl := id0 }))
          ∧ q.allowed p (unitOf i) ∧ (id = s0.curOvl ∨ unitOf i = .hudi)
          ∧ ((∃ r : Result, execWith p i s = State.finish { q.state p s0 with curOvl := id } r)
            ∨ ∃ x : Seq, execWith p i s = { q.state p s0 with curOvl := id, seq := x }) := by
  have adv : ∀ (k : Nat) (q : Prim) (rest : List MicroOp) (loc : Local) (s0 : State), q.allowed p (unitOf i) →
      (∀ op ∈ rest, op.allowed p s0.ovl (unitOf i)) →
      ∃ id : Fin 27, (id = s0.curOvl ∨ unitOf i = .hudi) ∧
        ((∃ r : Result, advance p i k q rest loc s0 = State.finish { q.state p s0 with curOvl := id } r)
          ∨ ∃ x : Seq, advance p i k q rest loc s0 = { q.state p s0 with curOvl := id, seq := x }) := by
    intro k q rest loc s0 _ hrest
    obtain ⟨id, hid, h⟩ := advance_cases p i k q rest loc s0
    refine ⟨id, hid.imp_right fun hm => (hrest _ hm : _ ∧ _).1, ?_⟩
    rcases h with h | ⟨k', q', rest', loc', h, -⟩
    · exact .inl h
    · exact .inr ⟨_, h⟩
  rcases execWith_cases p i s with ⟨hs, he⟩ | ⟨k, q, rest, loc, hs, he⟩ | ⟨cmd, k, q, rest, loc, hs, -, he⟩
  · right
    have hb := bodyOf_allowed p i s (bodyOf i p s).state.ovl hd
    obtain ⟨id0, hid0, h⟩ := start_cases p i (bodyOf i p s)
    have hid0' : id0 = (bodyOf i p s).state.curOvl ∨ unitOf i = .hudi := hid0.imp_right fun hm => (hb _ hm : _ ∧ _).1
    rcases h with ⟨r, h⟩ | ⟨q, rest, loc, hst, h⟩
    · exact .inl ⟨id0, r, hid0', hs, he.trans h⟩
    · right
      obtain ⟨_, _, hset⟩ := settle_allowed p (unitOf i) _ (bodyOf i p s).state (Local.start (bodyOf i p s).fin) hb
      rw [hst] at hset
      rcases hset with ⟨_, h'⟩ | ⟨_, h'⟩ | ⟨_, q', rest', h', hq', hr'⟩
      · cases h'
      · cases h'
      · simp only [Settled.ready.injEq] at h'
        obtain ⟨-, -, rfl, rfl⟩ := h'
        obtain ⟨id, hid, h2⟩ := adv 0 q rest loc { (bodyOf i p s).state with curOvl := id0 } hq' hr'
        rw [he, h]
        exact ⟨_, q, id, .inr ⟨hs, id0, hid0', rfl⟩, hq', hid, h2⟩
  · obtain ⟨hq, hrest⟩ := hr k q rest loc hs
    obtain ⟨id, hid, h⟩ := adv k q rest loc s hq hrest
    rw [he]
    exact .inr (.inr ⟨s, q, id, .inl rfl, hq, hid, h⟩)
  · exact .inl ⟨he, by rw [hs]; simp⟩

end Sys2Proof.Machine
end

