-- ==== Sys2Proof/Laws/Decode.lean ====
section
/-! SUPPORT. Each field reader of the byte format undoes its writer, and reads nothing else: the two directions, field by
field, from which the round trips of whole commands are built. -/

namespace Sys2Proof

/-! ### A reader gives back what its writer wrote -/

@[simp] theorem takeU8_cons (b : Byte) (rest : List Byte) : takeU8 (b :: rest) = some (b, rest) := rfl

/-- Two adjacent pieces of a word, put together again. -/
theorem extract_append {n : Nat} (v : BitVec n) (k a b : Nat) :
    v.extractLsb' (k + b) a ++ v.extractLsb' k b = v.extractLsb' k (a + b) := by
  ext i
  simp only [BitVec.getElem_eq_testBit_toNat, BitVec.testBit_toNat, BitVec.getLsbD_append, BitVec.getLsbD_extractLsb']
  grind

@[simp] theorem takeU16_bytes (v : Word16) (rest : List Byte) : takeU16 (bytesOfU16 v ++ rest) = some (v, rest) := by
  simp only [bytesOfU16, List.cons_append, List.nil_append, takeU16, extract_append v 0 8 8]
  simp

@[simp] theorem takeU32_bytes (v : Word32) (rest : List Byte) : takeU32 (bytesOfU32 v ++ rest) = some (v, rest) := by
  simp only [bytesOfU32, List.cons_append, List.nil_append, takeU32, extract_append v 16 8 8, extract_append v 8 16 8,
    extract_append v 0 24 8]
  simp

@[simp] theorem takeU32s_bytes (ws : List Word32) (rest : List Byte) :
    takeU32s ws.length (ws.flatMap bytesOfU32 ++ rest) = some (ws, rest) := by
  induction ws with
  | nil => rfl
  | cons w ws ih => simp [takeU32s, List.append_assoc, ih]

/-- A count that fits its u16 field is read back. -/
theorem toNat_ofNat16 {n : Nat} (h : n < 65536) : (BitVec.ofNat 16 n).toNat = n := by
  simp only [BitVec.toNat_ofNat]; omega

/-- A count that fits its u8 field is read back. -/
theorem toNat_ofNat8 {n : Nat} (h : n < 256) : (BitVec.ofNat 8 n).toNat = n := by
  simp only [BitVec.toNat_ofNat]; omega

theorem takeCountedU32s_bytes (ws : List Word32) (rest : List Byte) (h : fitsU16 ws = true) :
    takeCountedU32s (bytesOfCounted ws ++ rest) = some (ws, rest) := by
  have hl : ws.length < 65536 := of_decide_eq_true h
  simp only [takeCountedU32s, bytesOfCounted, List.append_assoc, takeU16_bytes, toNat_ofNat16 hl, takeU32s_bytes]

theorem takeSegment_bytes (g : Segment) (rest : List Byte) (h : g.wellFormed = true) :
    takeSegment (bytesOfSegment g ++ rest) = some (g, rest) := by
  simp only [takeSegment, bytesOfSegment, List.append_assoc, takeU32_bytes, takeCountedU32s_bytes g.code rest h]

theorem takeSegments_bytes (gs : List Segment) (rest : List Byte) (h : gs.all Segment.wellFormed = true) :
    takeSegments gs.length (gs.flatMap bytesOfSegment ++ rest) = some (gs, rest) := by
  induction gs with
  | nil => rfl
  | cons g gs ih =>
    simp only [List.all_cons, Bool.and_eq_true] at h
    simp only [List.length_cons, List.flatMap_cons, List.append_assoc, takeSegments, takeSegment_bytes g _ h.1, ih h.2]

theorem takeEntry_bytes (e : List Segment) (rest : List Byte) (h : entryWellFormed e = true) :
    takeEntry (bytesOfEntry e ++ rest) = some (e, rest) := by
  simp only [entryWellFormed, Bool.and_eq_true, decide_eq_true_eq] at h
  simp only [takeEntry, bytesOfEntry, List.cons_append, takeU8_cons, toNat_ofNat8 h.1, takeSegments_bytes e rest h.2]

theorem takeEntries_bytes (es : List (List Segment)) (rest : List Byte) (h : es.all entryWellFormed = true) :
    takeEntries es.length (es.flatMap bytesOfEntry ++ rest) = some (es, rest) := by
  induction es with
  | nil => rfl
  | cons e es ih =>
    simp only [List.all_cons, Bool.and_eq_true] at h
    simp only [List.length_cons, List.flatMap_cons, List.append_assoc, takeEntries, takeEntry_bytes e _ h.1, ih h.2]

@[simp] theorem tableOfEntries_toList (t : OverlayTable) : tableOfEntries t.toList = t := by
  ext i hi : 1
  simp [tableOfEntries, List.getD_eq_getElem?_getD]

theorem takeTable_bytes (t : Option OverlayTable) (rest : List Byte)
    (h : (Instr.hudiLoadTable t).wellFormed = true) : takeTable (bytesOfTable t ++ rest) = some (t, rest) := by
  cases t with
  | none => rfl
  | some t =>
    have := takeEntries_bytes t.toList rest h
    rw [Vector.length_toList] at this
    simp only [takeTable, bytesOfTable, List.cons_append, takeU8_cons]
    rw [show (1 : Byte).toNat = 1 from rfl]
    simp only [this, tableOfEntries_toList]

/-! ### A reader accepts nothing but what its writer wrote -/

theorem takeU8_some {bs rest : List Byte} {v : Byte} (h : takeU8 bs = some (v, rest)) : bs = v :: rest := by
  cases bs <;> simp_all [takeU8]

theorem takeU16_some {bs rest : List Byte} {v : Word16} (h : takeU16 bs = some (v, rest)) :
    bs = bytesOfU16 v ++ rest := by
  unfold takeU16 at h
  split at h
  · simp only [Option.some.injEq, Prod.mk.injEq] at h
    obtain ⟨rfl, rfl⟩ := h
    simp only [bytesOfU16, List.cons_append, List.nil_append, List.cons.injEq, and_true]
    constructor <;> ext i <;>
      simp only [BitVec.getElem_eq_testBit_toNat, BitVec.testBit_toNat, BitVec.getLsbD_append, BitVec.getLsbD_extractLsb'] <;>
      grind
  · cases h

theorem takeU32_some {bs rest : List Byte} {v : Word32} (h : takeU32 bs = some (v, rest)) :
    bs = bytesOfU32 v ++ rest := by
  unfold takeU32 at h
  split at h
  · simp only [Option.some.injEq, Prod.mk.injEq] at h
    obtain ⟨rfl, rfl⟩ := h
    simp only [bytesOfU32, List.cons_append, List.nil_append, List.cons.injEq, and_true]
    refine ⟨?_, ?_, ?_, ?_⟩ <;> ext i <;>
      simp only [BitVec.getElem_eq_testBit_toNat, BitVec.testBit_toNat, BitVec.getLsbD_append, BitVec.getLsbD_extractLsb'] <;>
      grind
  · cases h

theorem takeU32s_some {n : Nat} {bs rest : List Byte} {ws : List Word32} (h : takeU32s n bs = some (ws, rest)) :
    ws.length = n ∧ bs = ws.flatMap bytesOfU32 ++ rest := by
  induction n generalizing bs ws with
  | zero => simp only [takeU32s, Option.some.injEq, Prod.mk.injEq] at h; obtain ⟨rfl, rfl⟩ := h; simp
  | succ n ih =>
    simp only [takeU32s] at h
    split at h
    · cases h
    · rename_i v bs' h1
      split at h
      · cases h
      · rename_i vs bs'' h2
        simp only [Option.some.injEq, Prod.mk.injEq] at h
        obtain ⟨rfl, rfl⟩ := h
        obtain ⟨hl, rfl⟩ := ih h2
        simp [hl, takeU32_some h1]

theorem takeCountedU32s_some {bs rest : List Byte} {ws : List Word32} (h : takeCountedU32s bs = some (ws, rest)) :
    fitsU16 ws = true ∧ bs = bytesOfCounted ws ++ rest := by
  unfold takeCountedU32s at h
  split at h
  · cases h
  · rename_i n bs' h1
    obtain ⟨hl, rfl⟩ := takeU32s_some h
    refine ⟨by simp only [fitsU16, hl]; simpa using n.isLt, ?_⟩
    rw [takeU16_some h1, bytesOfCounted, hl, List.append_assoc, BitVec.ofNat_toNat, BitVec.setWidth_eq]

theorem takeSegment_some {bs rest : List Byte} {g : Segment} (h : takeSegment bs = some (g, rest)) :
    g.wellFormed = true ∧ bs = bytesOfSegment g ++ rest := by
  unfold takeSegment at h
  split at h
  · cases h
  · rename_i boot bs' h1
    split at h
    · cases h
    · rename_i code bs'' h2
      simp only [Option.some.injEq, Prod.mk.injEq] at h
      obtain ⟨rfl, rfl⟩ := h
      obtain ⟨hf, rfl⟩ := takeCountedU32s_some h2
      exact ⟨hf, by rw [takeU32_some h1, bytesOfSegment, List.append_assoc]⟩

theorem takeSegments_some {n : Nat} {bs rest : List Byte} {gs : List Segment} (h : takeSegments n bs = some (gs, rest)) :
    gs.length = n ∧ gs.all Segment.wellFormed = true ∧ bs = gs.flatMap bytesOfSegment ++ rest := by
  induction n generalizing bs gs with
  | zero => simp only [takeSegments, Option.some.injEq, Prod.mk.injEq] at h; obtain ⟨rfl, rfl⟩ := h; simp
  | succ n ih =>
    simp only [takeSegments] at h
    split at h
    · cases h
    · rename_i g bs' h1
      split at h
      · cases h
      · rename_i gs' bs'' h2
        simp only [Option.some.injEq, Prod.mk.injEq] at h
        obtain ⟨rfl, rfl⟩ := h
        obtain ⟨hl, hw, rfl⟩ := ih h2
        obtain ⟨hg, rfl⟩ := takeSegment_some h1
        exact ⟨by simp [hl], by simp only [List.all_cons, hg, hw]; rfl, by simp⟩

theorem takeEntry_some {bs rest : List Byte} {e : List Segment} (h : takeEntry bs = some (e, rest)) :
    entryWellFormed e = true ∧ bs = bytesOfEntry e ++ rest := by
  unfold takeEntry at h
  split at h
  · cases h
  · rename_i n bs' h1
    obtain ⟨hl, hw, rfl⟩ := takeSegments_some h
    refine ⟨?_, ?_⟩
    · simp only [entryWellFormed, hl, hw, Bool.and_true, decide_eq_true_eq]; exact n.isLt
    · rw [takeU8_some h1, bytesOfEntry, hl, BitVec.ofNat_toNat, BitVec.setWidth_eq]; rfl

theorem takeEntries_some {n : Nat} {bs rest : List Byte} {es : List (List Segment)}
    (h : takeEntries n bs = some (es, rest)) :
    es.length = n ∧ es.all entryWellFormed = true ∧ bs = es.flatMap bytesOfEntry ++ rest := by
  induction n generalizing bs es with
  | zero => simp only [takeEntries, Option.some.injEq, Prod.mk.injEq] at h; obtain ⟨rfl, rfl⟩ := h; simp
  | succ n ih =>
    simp only [takeEntries] at h
    split at h
    · cases h
    · rename_i g bs' h1
      split at h
      · cases h
      · rename_i gs' bs'' h2
        simp only [Option.some.injEq, Prod.mk.injEq] at h
        obtain ⟨rfl, rfl⟩ := h
        obtain ⟨hl, hw, rfl⟩ := ih h2
        obtain ⟨hg, rfl⟩ := takeEntry_some h1
        exact ⟨by simp [hl], by simp only [List.all_cons, hg, hw]; rfl, by simp⟩

theorem toList_tableOfEntries {es : List (List Segment)} (h : es.length = 27) : (tableOfEntries es).toList = es := by
  apply List.ext_getElem
  · simp [h]
  · intro i h1 h2
    simp [tableOfEntries, List.getD_eq_getElem?_getD, h2]

theorem takeTable_some {bs rest : List Byte} {t : Option OverlayTable} (h : takeTable bs = some (t, rest)) :
    (Instr.hudiLoadTable t).wellFormed = true ∧ bs = bytesOfTable t ++ rest := by
  unfold takeTable at h
  split at h
  · cases h
  · rename_i v bs' h1
    split at h
    · rename_i hv
      simp only [Option.some.injEq, Prod.mk.injEq] at h
      obtain ⟨rfl, rfl⟩ := h
      refine ⟨rfl, ?_⟩
      rw [takeU8_some h1, show v = 0 from BitVec.eq_of_toNat_eq hv]; rfl
    · rename_i hv
      split at h
      · cases h
      · rename_i es bs'' h2
        simp only [Option.some.injEq, Prod.mk.injEq] at h
        obtain ⟨rfl, rfl⟩ := h
        obtain ⟨hl, hw, rfl⟩ := takeEntries_some h2
        refine ⟨?_, ?_⟩
        · simpa only [Instr.wellFormed, OverlayTable.wellFormed, toList_tableOfEntries hl] using hw
        · rw [takeU8_some h1, show v = 1 from BitVec.eq_of_toNat_eq hv]
          simp only [bytesOfTable, toList_tableOfEntries hl, List.cons_append]
    · cases h

/-- A field reader's command: `withField` answers it exactly when the field is read. -/
theorem withField_ok {α : Type} {field : Option (α × List Byte)} {mk : α → Instr} {i : Instr} {rest : List Byte}
    (h : withField field mk = .ok (i, rest)) : ∃ v, field = some (v, rest) ∧ i = mk v := by
  unfold withField at h
  split at h
  · rename_i v bs
    simp only [Except.ok.injEq, Prod.mk.injEq] at h
    exact ⟨v, by rw [h.2], h.1.symm⟩
  · cases h

end Sys2Proof
end

