-- ==== Sys2Proof/Laws/PerInstr.lean ====
section
/-! SUPPORT. Statements made once per command, one lemma per constructor. Family `Row` (spec/30_encoding.md R109): the first
two bytes of a command's encoding match its own row of opcode_table.json. -/

namespace Sys2Proof.Laws.Row

/-- R109: the 16-bit key of the command's bytes, under its row's mask, is its row's `match`. -/
def Statement (i : Instr) : Prop := keyOfBytes (encode i) &&& i.rowMask = i.rowMatch

/-- Under the mask 0x00FF a key is its low byte. -/
theorem key_low (hi lo : Byte) : (hi ++ lo : Word16) &&& 0x00FF = lo.setWidth 16 := by
  apply BitVec.eq_of_toNat_eq
  rw [BitVec.toNat_and, BitVec.toNat_append, BitVec.toNat_setWidth, show (0x00FF : Word16).toNat = 2 ^ 8 - 1 from rfl,
    Nat.and_two_pow_sub_one_eq_mod, Nat.shiftLeft_eq, Nat.mul_comm, ← Nat.two_pow_add_eq_or_of_lt lo.isLt]
  have := lo.isLt
  omega

/-- A command whose row fixes its id alone matches when its first byte is that id. -/
theorem of_first {i : Instr} {b : Byte} {rest : List Byte} (hb : encode i = b :: rest) (hm : i.rowMask = 0x00FF)
    (h : b.setWidth 16 = i.rowMatch) : Statement i := by
  rw [Statement, hb, hm, keyOfBytes, List.getD_cons_zero, key_low, h]

theorem tmcResetBypass (ch : Byte) : Statement (.tmcResetBypass ch) := of_first rfl rfl rfl
theorem tmcReadDeviceId (sel : Word32) : Statement (.tmcReadDeviceId sel) := of_first rfl rfl rfl
theorem tmcReadChipId : Statement .tmcReadChipId := of_first rfl rfl rfl
theorem tmcSetPadding (pad : Word16) : Statement (.tmcSetPadding pad) := of_first rfl rfl rfl
theorem tmcTeardown : Statement .tmcTeardown := of_first rfl rfl rfl
theorem sdirExtest : Statement .sdirExtest := rfl
theorem sdirSamplePreload : Statement .sdirSamplePreload := rfl
theorem sdirIsrStart : Statement .sdirIsrStart := rfl
theorem sdirIsrEnd : Statement .sdirIsrEnd := rfl
theorem sdirTdoTimingChange : Statement .sdirTdoTimingChange := rfl
theorem sdirWaitCancel : Statement .sdirWaitCancel := rfl
theorem sdirAseramWrite : Statement .sdirAseramWrite := rfl
theorem sdirResetNegate : Statement .sdirResetNegate := rfl
theorem sdirResetAssert : Statement .sdirResetAssert := rfl
theorem sdirBoot : Statement .sdirBoot := rfl
theorem sdirInterrupt : Statement .sdirInterrupt := rfl
theorem sdirBreak : Statement .sdirBreak := rfl
theorem sdirBypass : Statement .sdirBypass := rfl
theorem hudiReadData : Statement .hudiReadData := of_first rfl rfl rfl
theorem hudiWriteData (d : Word32) : Statement (.hudiWriteData d) := of_first rfl rfl rfl
theorem hudiInitialState : Statement .hudiInitialState := of_first rfl rfl rfl
theorem hudiReadInternalStatus : Statement .hudiReadInternalStatus := of_first rfl rfl rfl
theorem hudiWriteAseram (boot : Word32) (words : List Word32) : Statement (.hudiWriteAseram boot words) := of_first rfl rfl rfl
theorem hudiLoadOverlay (id : Byte) : Statement (.hudiLoadOverlay id) := of_first rfl rfl rfl
theorem hudiStartOverlay (id : Byte) (payload : List Word32) : Statement (.hudiStartOverlay id payload) := of_first rfl rfl rfl
theorem hudiAttach : Statement .hudiAttach := of_first rfl rfl rfl
theorem hudiDetach : Statement .hudiDetach := of_first rfl rfl rfl
theorem hudiServiceAsemode : Statement .hudiServiceAsemode := of_first rfl rfl rfl
theorem hudiWaitAsemode : Statement .hudiWaitAsemode := of_first rfl rfl rfl
theorem hudiInitAsemode : Statement .hudiInitAsemode := of_first rfl rfl rfl
theorem hudiInterruptTarget : Statement .hudiInterruptTarget := of_first rfl rfl rfl
theorem hudiLoadTable (table : Option OverlayTable) : Statement (.hudiLoadTable table) := of_first rfl rfl rfl
theorem hudiTeardown : Statement .hudiTeardown := of_first rfl rfl rfl
theorem flashAutodetect (cfiId : Word16) : Statement (.flashAutodetect cfiId) := of_first rfl rfl rfl
theorem flashPrintInfo (base : Word32) : Statement (.flashPrintInfo base) := of_first rfl rfl rfl
theorem flashEraseBlock (addr : Word32) : Statement (.flashEraseBlock addr) := of_first rfl rfl rfl
theorem flashUnlockBlock (addr : Word32) : Statement (.flashUnlockBlock addr) := of_first rfl rfl rfl
theorem flashProgram (addr data : Word32) : Statement (.flashProgram addr data) := of_first rfl rfl rfl
theorem flashReadArray (base : Word32) : Statement (.flashReadArray base) := of_first rfl rfl rfl
theorem dsuPeek (reg : Word32) : Statement (.dsuPeek reg) := of_first rfl rfl rfl
theorem dsuDbreak : Statement .dsuDbreak := of_first rfl rfl rfl
theorem dsuDpoke : Statement .dsuDpoke := of_first rfl rfl rfl
theorem dsuFlush : Statement .dsuFlush := of_first rfl rfl rfl
theorem dsuIbreak : Statement .dsuIbreak := of_first rfl rfl rfl
theorem dsuTeardown : Statement .dsuTeardown := of_first rfl rfl rfl

end Sys2Proof.Laws.Row
end

