-- ==== Sys2Proof/Laws/Runs.lean ====
section
/-! SUPPORT. Whole runs of commands: a run of plain primitives from a settled body, wherever it stands, and what a run of
HUDI shifts leaves. -/

namespace Sys2Proof.Machine

/-! ### Runs of plain primitives -/

/-- Forget the position a settled state still holds. -/
theorem settle_atIdle (p : Params) (cmd : Instr) (k : Nat) (ops : List MicroOp) (s : State) (loc : Local) :
    pause p cmd k (settle p { s with seq := .idle } loc ops) = pause p cmd k (settle p s loc ops) :=
  settle_seq p cmd k ops s loc .idle

/-- From a settled body that goes on with plain primitives, as many steps later it is settled behind them. -/
theorem execTimesWith_resume (p : Params) (cmd : Instr) (qs : List Prim) (tail : List MicroOp) (k : Nat) (s : State)
    (loc : Local) (h : ∀ r ∈ qs, r.plain = true) :
    execTimesWith p qs.length cmd (pause p cmd k (settle p s loc (qs.map .prim ++ tail)))
      = pause p cmd (k + qs.length) (settle p (runPrims p qs (s, loc)).1 (runPrims p qs (s, loc)).2 tail) := by
  cases qs with
  | nil => rfl
  | cons q qs =>
    have h0 : pause p cmd k (settle p s loc ((q :: qs).map .prim ++ tail))
        = { s with seq := .busy cmd k q (qs.map .prim ++ tail) loc } := rfl
    rw [h0, List.length_cons, execTimesWith_succ, execWith_busy p _ rfl, execTimesWith_prims p cmd qs tail k q loc _ h,
      runPrims_seq]
    exact settle_seq p cmd _ tail _ _ _

/-- An idle sequencer's command whose body has a first primitive: its steps are those from the settled body. -/
theorem execTimesWith_idle (p : Params) (cmd : Instr) (n : Nat) (s : State) (h : s.seq = .idle) {s0 : State}
    {loc : Local} {q : Prim} {rest : List MicroOp}
    (hr : settle p (bodyOf cmd p s).state (Local.start (bodyOf cmd p s).fin) (bodyOf cmd p s).ops
      = .ready s0 loc q rest) (hq : q.plain = true) :
    execTimesWith p (n + 1) cmd s = execTimesWith p (n + 1) cmd (pause p cmd 0 (.ready s0 loc q rest)) := by
  rw [execTimesWith_succ, execWith_idle p cmd s h, start, hr, execTimesWith_succ]
  simp only [pause]
  rw [execWith_busy p _ rfl]
  simp only [advance_plain p cmd 0 q rest loc _ hq, Prim.state_seq, Prim.locals_seq, settle_seq]

/-! ### HUDI shifts -/

/-- The primitive of a HUDI shift: an SDIR write, or a raw data shift. -/
def Shot.prim : Shot → Prim
  | .ir _ v => .sdirWrite (v.setWidth 8)
  | .dr n v => .drWrite ⟨n, v⟩

/-- A shift of the HUDI unit that leaves the lock alone: an SDIR write other than 0x20 and 0x21, or a data shift. -/
def Shot.plainHudi : Shot → Prop
  | .ir n v => n = 8 ∧ v.setWidth 8 ≠ (0x20 : Byte) ∧ v.setWidth 8 ≠ (0x21 : Byte)
  | .dr _ _ => True

theorem shotEvents_append (s : State) (xs ys : List Shot) :
    shotEvents s (xs ++ ys) = shotEvents s xs ++ shotEvents (State.drawnBy xs.length s) ys := by
  induction xs generalizing s with
  | nil => rfl
  | cons x xs ih => cases x <;> simp only [List.cons_append, shotEvents, ih, List.length_cons, State.drawnBy]

/-- What an answer is does not depend on the fields a HUDI shift writes. -/
theorem answer_congr {s t : State} (ha : t.answers = s.answers) (hd : t.draws = s.draws) (w : Nat) :
    t.answer w = s.answer w := by simp only [State.answer, ha, hd]

/-- Only the answers lined up and the count of draws matter for the events of shifts. -/
theorem shotEvents_congr {s t : State} (ha : t.answers = s.answers) (hd : t.draws = s.draws) (xs : List Shot) :
    shotEvents t xs = shotEvents s xs := by
  induction xs generalizing s t with
  | nil => rfl
  | cons x xs ih =>
    have h1 : t.drawn.answers = s.drawn.answers := by simp only [State.drawn, ha]
    have h2 : t.drawn.draws = s.drawn.draws := by simp only [State.drawn, ha, hd]
    cases x <;> simp only [shotEvents, answer_congr ha hd, ih h1 h2]

/-- Shifts are answered in order, and nothing but the HUDI pair and the mode is written besides the trace; the mode
either stays or is that of an unlocked write. -/
theorem runPrims_shots (p : Params) (xs : List Shot) (h : ∀ x ∈ xs, x.plainHudi) (s : State) (loc : Local) :
    ∃ (a b : Byte) (m : Bool), (m = s.mode ∨ m = if s.locked then s.mode else true) ∧
      runPrims p (xs.map Shot.prim) (s, loc)
        = ({ State.drawnBy xs.length s with
              trace := s.trace ++ shotEvents s xs, wsdir := a, rsdir := b, mode := m }, loc) := by
  induction xs generalizing s with
  | nil => exact ⟨s.wsdir, s.rsdir, s.mode, .inl rfl, by simp [runPrims, shotEvents]⟩
  | cons x xs ih =>
    have hx := h x (.head _)
    have hxs : ∀ y ∈ xs, y.plainHudi := fun y hy => h y (.tail _ hy)
    cases x with
    | ir n v =>
      obtain ⟨rfl, h20, h21⟩ := hx
      rw [BitVec.setWidth_eq] at h20 h21
      obtain ⟨a, b, m, hm, hrun⟩ := ih hxs ((Shot.ir 8 v).prim.state p s)
      refine ⟨a, b, m, ?_, ?_⟩
      · right
        have hl : ((Shot.ir 8 v).prim.state p s).locked = s.locked := by
          simp only [Shot.prim, Prim.state, perform, State.sdirWrite, modeUpdateIR_eq, BitVec.setWidth_eq, if_neg h20,
            if_neg h21]; rfl
        have hmode : ((Shot.ir 8 v).prim.state p s).mode = if s.locked then s.mode else true := by
          simp only [Shot.prim, Prim.state, perform, State.sdirWrite, modeUpdateIR_eq, BitVec.setWidth_eq, if_neg h20,
            if_neg h21]; rfl
        rw [hl, hmode] at hm
        rcases hm with rfl | rfl
        · rfl
        · split <;> rfl
      · simp only [List.map_cons, runPrims]
        have hev : shotEvents ((Shot.ir 8 v).prim.state p s) xs = shotEvents s.drawn xs := by
          apply shotEvents_congr <;>
            simp only [Shot.prim, Prim.state, perform, State.sdirWrite, modeUpdateIR_eq] <;> rfl
        rw [show Prim.locals p (Shot.ir 8 v).prim s loc = loc from rfl, hrun, hev]
        simp only [Shot.prim, Prim.state, perform, State.sdirWrite, modeUpdateIR_eq, BitVec.setWidth_eq, if_neg h20, if_neg h21,
          List.length_cons, State.drawnBy_succ, shotEvents, State.tapIR, State.emit, State.drawnBy_eq,
          List.append_assoc, List.singleton_append, State.drawn_trace]
    | dr n v =>
      obtain ⟨a, b, m, hm, hrun⟩ := ih hxs ((Shot.dr n v).prim.state p s)
      refine ⟨a, b, m, hm, ?_⟩
      simp only [List.map_cons, runPrims]
      have hev : shotEvents ((Shot.dr n v).prim.state p s) xs = shotEvents s.drawn xs := by
        apply shotEvents_congr <;> rfl
      rw [show Prim.locals p (Shot.dr n v).prim s loc = loc from rfl, hrun, hev]
      simp only [Shot.prim, Prim.state, perform, List.length_cons, State.drawnBy_succ, shotEvents, State.tapDR, State.emit,
        State.drawnBy_eq, List.append_assoc, List.singleton_append, State.drawn_trace]

/-- A run of shifts that ends with an SDIR write: the pair and the mode are that write's. -/
theorem runPrims_shots_ir (p : Params) (xs : List Shot) (op : Byte) (h : ∀ x ∈ xs, x.plainHudi)
    (h20 : op ≠ 0x20) (h21 : op ≠ 0x21) (s : State) (loc : Local) :
    runPrims p ((xs ++ [Shot.ir 8 op]).map Shot.prim) (s, loc)
      = ({ State.drawnBy (xs.length + 1) s with
            trace := s.trace ++ shotEvents s (xs ++ [.ir 8 op]), wsdir := op
            rsdir := (State.drawnBy xs.length s).answer 8, mode := if s.locked then s.mode else true }, loc) := by
  obtain ⟨a, b, m, hm, hrun⟩ := runPrims_shots p xs h s loc
  rw [List.map_append, runPrims_append, hrun, shotEvents_append, State.drawnBy_add xs.length 1]
  generalize hd : State.drawnBy xs.length s = d
  have hl : d.locked = s.locked := by rw [← hd]; exact State.drawnBy_locked s _
  have hmode : (if d.locked then m else true) = if s.locked then s.mode else true := by
    rw [hl]; rcases hm with rfl | rfl <;> split <;> rfl
  simp only [List.map_cons, List.map_nil, runPrims, Shot.prim, Prim.state, perform, Prim.locals, State.sdirWrite,
    modeUpdateIR_eq, BitVec.setWidth_eq, if_neg h20, if_neg h21, State.tapIR, State.emit, shotEvents,
    List.append_assoc, State.drawnBy, State.drawn, State.answer, ← hmode]

/-! ### Bodies as shifts -/

theorem writeAseram_eq (p : Params) (boot : Word32) (words : List Word32) :
    writeAseram p boot words = (aseramShots p boot words).map fun x => .prim x.prim := by
  simp [writeAseram, aseramShifts, aseramShots, Shot.prim, Function.comp_def]

theorem aseramShots_plain (p : Params) (boot : Word32) (words : List Word32) :
    ∀ x ∈ aseramShots p boot words, x.plainHudi := by
  intro x hx
  simp only [aseramShots, List.mem_cons, List.mem_map] at hx
  rcases hx with rfl | rfl | ⟨w, _, rfl⟩
  · exact ⟨rfl, by decide, by decide⟩
  · trivial
  · trivial

theorem Shot.prim_plain (x : Shot) : x.prim.plain = true := by cases x <;> rfl

end Sys2Proof.Machine
end

