-- ==== Sys2Proof/Tests/Slice0.lean ====
section
/-! SUPPORT. Tests. Expected values come from the spec: the vectors and programs of spec/95_test_vectors.md and the
"Example" lines of the rules, cited per test. The witnesses at the end meet the hypotheses of the obligations. -/

namespace Sys2Proof.Tests

open Sys2Proof Sys2Proof.Machine

/-! ### Helpers -/

/-- Parameters R7 allows: the spec's defaults, and the first value allowed where there is none. -/
def testParams : Params :=
  { tmcIdcodeOp := 0x01, tmcSelDevice := 2, tmcSelPrivate := 3, tmcSelOption := 4, tmcSelExtra := 5
    tmcSelectBase := fun _ => 32, tmcSelectGrowth := fun _ _ => 0, tmcSelectValue := fun sel _ w => sel.setWidth w
    tmcDeselectPattern := defaultDeselectPattern
    bypassTable := fun c => (c.val == 0, c.val == 3), rawSeq := fun a _ => [⟨3, if a then 1 else 2, 50⟩]
    unlockedModeUpdate := .copyBit0, isrLayoutGiven := IsrLayout.halves
    ovlBootInitGiven := 1, ovlBootResetGiven := 21, signalWord := 0xCAFE0001, aseramEndRule := .relativeToStart
    busWidth := .w32, flashCodes := FlashCodes.defaults, statusMasksGiven := StatusMasks.defaults
    cfiIntelId := 0x0003, flMidOff := defaultFlMidOff, flCidOff := defaultFlCidOff
    chipNamesGiven := fun cid => if cid = 0x0017 then some "28F640J3A" else none, pollLimitGiven := none
    dsuIrPattern := defaultDsuIrPattern, hudiChannel := 1, dsuChannel := 2, 
    busMisaligned := fun _ _ _ _ => .never }

/-- The reset state with device answers lined up. -/
def answering (answers : List Nat) : State := { State.reset with answers := answers }

/-- The reset state with mode flags (l, m, s), and one answer lined up. -/
def flags (l m sv : Bool) : State := { answering [0] with locked := l, mode := m, savedMode := sv }

/-- The mode flags (l, m, s) of a state. -/
def flagsOf (s : State) : Bool × Bool × Bool := (s.locked, s.mode, s.savedMode)

/-- The reset state with a flash driver and answers. -/
def driven (d : Driver) (answers : List Nat) : State := { answering answers with driver := d }

/-- What `n` steps of a command leave in the trace and in the result. -/
def runOf (p : Params) (n : Nat) (i : Instr) (s : State) : List Event × Result :=
  let t := execTimesWith p n i s
  (t.trace, t.res)

/-- A table whose 27 entries are loaded. -/
def loadedTable : OverlayTable := Vector.replicate 27 [⟨0xFC000000, [0xDEADBEEF]⟩]

/-- The reset state with that table. -/
def loaded : State := { State.reset with ovl := loadedTable }

/-- The table of program 4 (spec/95_test_vectors.md section 3). -/
def program4Table : OverlayTable :=
  (OverlayTable.empty.set 1 [⟨0xFC000000, [0xDEADBEEF]⟩]).set 21 [⟨0xFC000100, [0x11111111, 0x22222222]⟩]

/-! ### WellFormed: each check refuses a term -/

theorem fitsU16_replicate (n : Nat) (w : Word32) : fitsU16 (List.replicate n w) = decide (n < 65536) := by
  simp [fitsU16]

theorem table_replicate_wellFormed (segs : List Segment) :
    OverlayTable.wellFormed (Vector.replicate 27 segs) = entryWellFormed segs := by
  simp [OverlayTable.wellFormed]

theorem entry_segment_wellFormed (boot : Word32) (n : Nat) :
    entryWellFormed [⟨boot, List.replicate n 0⟩] = decide (n < 65536) := by
  simp [entryWellFormed, Segment.wellFormed, fitsU16]

theorem entry_replicate_wellFormed (n : Nat) : entryWellFormed (List.replicate n ⟨0, []⟩) = decide (n < 256) := by
  simp [entryWellFormed, Segment.wellFormed, fitsU16]

/-- A list of 65536 words has no u16 length (R92); one of 65535 has. -/
theorem test_wf_aseram :
    (Instr.hudiWriteAseram 0 (List.replicate 65536 0)).wellFormed = false
      ∧ (Instr.hudiWriteAseram 0 (List.replicate 65535 0)).wellFormed = true :=
  ⟨(fitsU16_replicate 65536 0).trans (by decide), (fitsU16_replicate 65535 0).trans (by decide)⟩

theorem test_wf_payload : (Instr.hudiStartOverlay 1 (List.replicate 65536 0)).wellFormed = false :=
  (fitsU16_replicate 65536 0).trans (by decide)

/-- A segment whose code has 65536 words has no `size:u16` (R32). -/
theorem test_wf_segment : (Instr.hudiLoadTable (some (Vector.replicate 27 [⟨0, List.replicate 65536 0⟩]))).wellFormed = false :=
  (table_replicate_wellFormed _).trans ((entry_segment_wellFormed 0 65536).trans (by decide))

/-- An entry of 256 segments has no `nseg:u8` (R94). -/
theorem test_wf_entry : (Instr.hudiLoadTable (some (Vector.replicate 27 (List.replicate 256 ⟨0, []⟩)))).wellFormed = false :=
  (table_replicate_wellFormed _).trans ((entry_replicate_wellFormed 256).trans (by decide))

/-! ### Decoding: words written out from R92, R94 and R98, one for every constructor -/

/-- V-ENC-1, V-ENC-2, programs 1 and the ids of R92. -/
theorem test_decode_tmc :
    decode [0x01, 0x02] = .ok (.tmcResetBypass 2, [])
      ∧ decode [0x02, 0x05, 0x00, 0x00, 0x00] = .ok (.tmcReadDeviceId 5, [])
      ∧ decode [0x03] = .ok (.tmcReadChipId, [])
      ∧ decode [0x04, 0x00, 0x02] = .ok (.tmcSetPadding 512, [])
      ∧ decode [0x0F] = .ok (.tmcTeardown, []) := ⟨rfl, rfl, rfl, rfl, rfl⟩

/-- R98's opcode list (X4). -/
theorem test_decode_sdir :
    [0x00, 0x04, 0x20, 0x21, 0x22, 0x23, 0x50, 0x60, 0x70, 0x80, 0xA0, 0xC0, 0xFF].map
        (fun op : Byte => match decode [0x10, op] with | .ok (i, _) => some i.mnemonic | .error _ => none)
      = ["SDIR_EXTEST", "SDIR_SAMPLE_PRELOAD", "SDIR_ISR_START", "SDIR_ISR_END", "SDIR_TDO_TIMING_CHANGE",
         "SDIR_WAIT_CANCEL", "SDIR_ASERAM_WRITE", "SDIR_RESET_NEGATE", "SDIR_RESET_ASSERT", "SDIR_BOOT",
         "SDIR_INTERRUPT", "SDIR_BREAK", "SDIR_BYPASS"].map some := by decide

/-- V-ENC-4, V-ENC-5, program 2 and the ids of R92. -/
theorem test_decode_hudi :
    decode [0x11] = .ok (.hudiReadData, [])
      ∧ decode [0x12, 0x78, 0x56, 0x34, 0x12] = .ok (.hudiWriteData 0x12345678, [])
      ∧ decode [0x13] = .ok (.hudiInitialState, [])
      ∧ decode [0x14] = .ok (.hudiReadInternalStatus, [])
      ∧ decode [0x15, 0xA0, 0x02, 0x00, 0xFC, 0x02, 0x00, 0x01, 0x00, 0x00, 0x00, 0x02, 0x00, 0x00, 0x00]
          = .ok (.hudiWriteAseram 0xFC0002A0 [1, 2], [])
      ∧ decode [0x16, 0x01] = .ok (.hudiLoadOverlay 1, [])
      ∧ decode [0x17, 0x03, 0x00, 0x00] = .ok (.hudiStartOverlay 3 [], [])
      ∧ decode [0x18] = .ok (.hudiAttach, []) := ⟨rfl, rfl, rfl, rfl, rfl, rfl, rfl, rfl⟩

theorem test_decode_hudi_stubs :
    decode [0x19] = .ok (.hudiDetach, [])
      ∧ decode [0x1A] = .ok (.hudiServiceAsemode, [])
      ∧ decode [0x1B] = .ok (.hudiWaitAsemode, [])
      ∧ decode [0x1C] = .ok (.hudiInitAsemode, [])
      ∧ decode [0x1D] = .ok (.hudiInterruptTarget, [])
      ∧ decode [0x1F] = .ok (.hudiTeardown, []) := ⟨rfl, rfl, rfl, rfl, rfl, rfl⟩

/-- Program 4's 53 bytes, and `valid = 0`. -/
theorem test_decode_load_table :
    decode
        ([0x1E, 0x01, 0x00, 0x01, 0x00, 0x00, 0x00, 0xFC, 0x01, 0x00, 0xEF, 0xBE, 0xAD, 0xDE] ++ List.replicate 19 0x00
          ++ [0x01, 0x00, 0x01, 0x00, 0xFC, 0x02, 0x00, 0x11, 0x11, 0x11, 0x11, 0x22, 0x22, 0x22, 0x22]
          ++ List.replicate 5 0x00)
      = .ok (.hudiLoadTable (some program4Table), []) ∧ decode [0x1E, 0x00] = .ok (.hudiLoadTable none, []) :=
  ⟨rfl, rfl⟩

/-- V-ENC-3, program 3 and the ids of R92. -/
theorem test_decode_flash :
    decode [0x20, 0x89, 0x01] = .ok (.flashAutodetect 0x0189, [])
      ∧ decode [0x21, 0x00, 0x00, 0x00, 0xA0] = .ok (.flashPrintInfo 0xA0000000, [])
      ∧ decode [0x22, 0x00, 0x00, 0x02, 0x00] = .ok (.flashEraseBlock 0x20000, [])
      ∧ decode [0x23, 0x00, 0x00, 0x02, 0x00] = .ok (.flashUnlockBlock 0x20000, [])
      ∧ decode [0x24, 0x00, 0x00, 0x01, 0x00, 0xEF, 0xBE, 0x00, 0x00] = .ok (.flashProgram 0x10000 0xBEEF, [])
      ∧ decode [0x25, 0x00, 0x00, 0x02, 0x00] = .ok (.flashReadArray 0x20000, []) := ⟨rfl, rfl, rfl, rfl, rfl, rfl⟩

/-- Program 5 and the ids of R92. -/
theorem test_decode_dsu :
    decode [0x30, 0x78, 0x56, 0x34, 0x12] = .ok (.dsuPeek 0x12345678, [])
      ∧ decode [0x31] = .ok (.dsuDbreak, []) ∧ decode [0x32] = .ok (.dsuDpoke, [])
      ∧ decode [0x33] = .ok (.dsuFlush, []) ∧ decode [0x34] = .ok (.dsuIbreak, [])
      ∧ decode [0x3F] = .ok (.dsuTeardown, []) := ⟨rfl, rfl, rfl, rfl, rfl, rfl⟩

/-- V-ENC-6 to V-ENC-9, V-OVL-8, V-SDIR-1 to V-SDIR-3 and the empty message. -/
theorem test_decode_refused :
    decode [] = .error .badCommand ∧ decode [0x00] = .error .badCommand ∧ decode [0x26] = .error .badCommand
      ∧ decode [0xFF] = .error .badCommand ∧ decode [0x12, 0x01, 0x02] = .error .badCommand
      ∧ decode [0x1E, 0x02] = .error .badCommand ∧ decode [0x10, 0x01] = .error .badOpcode
      ∧ decode [0x10, 0x24] = .error .badOpcode ∧ decode [0x10, 0xFE] = .error .badOpcode :=
  ⟨rfl, rfl, rfl, rfl, rfl, rfl, rfl, rfl, rfl⟩

/-- The opcode table numbers byte 0 lowest (R109). -/
theorem test_table_word :
    decodeTableWord 16 0xFF10 = some .sdirBypass ∧ decodeTableWord 8 0x22 = some (.flashEraseBlock 0)
      ∧ decodeTableWord 16 0x011E = some (.hudiLoadTable (some OverlayTable.empty)) := by decide

/-! ### TAP-Mux unit -/

theorem sumBelow_zero (n : Nat) : sumBelow (fun _ => 0) n = 0 := by
  induction n with
  | zero => rfl
  | succ n ih => exact ih

/-- The test parameters have R128's default select pattern. -/
theorem testParams_select (sel : Word32) (pad : Word16) :
    testParams.tmcSelectPattern sel pad = defaultSelectPattern sel pad := by
  have h : testParams.tmcSelectWidth sel pad = pad.toNat + 32 := by
    show 32 + pad.toNat + sumBelow (fun _ => 0) pad.toNat = _
    rw [sumBelow_zero]; omega
  show Shift.mk _ (sel.setWidth (testParams.tmcSelectWidth sel pad)) = _
  rw [h]; rfl

/-- V-TMC-6: a failed raw signal is recorded and the command is Ok. -/
theorem test_reset_bypass_failed_signal :
    runOf testParams 2 (.tmcResetBypass 0) (answering [0]) = ([.rawSignal 3 1 false, .delay 50], ⟨.ok, .zero, .none⟩) := by
  decide

/-- V-TMC-4. -/
theorem test_reset_bypass_channel_255 :
    runOf testParams 1 (.tmcResetBypass 255) (answering [1]) = ([], ⟨.fail, .kind .invalidChannel, .none⟩) := by decide

/-- V-TMC-9: padding 0, all-ones selector. -/
theorem test_read_device_id_no_padding :
    runOf testParams 5 (.tmcReadDeviceId 0xFFFFFFFF) { answering [0, 0x1F, 0xCAFE0001, 0] with tmcPad := 0 }
      = ([.tapIdle, .tapDR 32 0xFFFFFFFF 0, .tapIR 5 0x01 0x1F, .tapDR 32 0 0xCAFE0001, .tapDR 32 0 0],
         ⟨.ok, .zero, .word 0xCAFE0001⟩) := by decide

/-- V-TMC-8: after reset the select shift is 544 bits wide. -/
theorem test_read_device_id_padding_512 :
    (∃ rest loc, (execWith testParams (.tmcReadDeviceId 2) State.reset).seq
        = .busy (.tmcReadDeviceId 2) 1 (.drWrite (testParams.tmcSelectPattern 2 512)) rest loc)
      ∧ (testParams.tmcSelectPattern 2 512).width = 544 :=
  ⟨⟨_, _, rfl⟩, by rw [testParams_select]; rfl⟩

/-- R173: a field of two reads, `(r[0] >> 4 & 0xF) | (r[1] & 0xF) << 4`, at r[0] = 0xAB, r[1] = 0xCD. -/
theorem test_isr_field :
    (IsrField.mk 0 1 [⟨false, 0xF0, 4, 0⟩, ⟨true, 0x0F, 0, 4⟩]).value #v[0xAB, 0xCD, 0, 0, 0, 0, 0, 0] = 0xDA := by
  decide

/-- R173: a layout whose CMF fields are not two parts of their read is refused. -/
theorem test_isr_layout_refused :
    { IsrLayout.halves with packings := IsrLayout.halves.packings.set 0 ⟨3, 4, 7⟩ }.valid = false := by decide

/-- V-TMC-7. -/
theorem test_read_chip_id :
    runOf testParams 2 .tmcReadChipId (answering [0x15, 0xFFFFFFFF])
      = ([.tapIR 5 0x04 0x15, .tapDR 32 0 0xFFFFFFFF], ⟨.ok, .zero, .word 0xFFFFFFFF⟩) := by decide

/-- V-TMC-7: the register pair. -/
theorem test_read_chip_id_pair :
    let t := execTimesWith testParams 2 .tmcReadChipId (answering [0x15, 0xFFFFFFFF])
    (t.wir, t.rir, t.tmcAlloc) = (0x04, 0x15, true) := by decide

/-- V-TMC-12: setting the padding allocates nothing. -/
theorem test_set_padding :
    let t := execWith testParams (.tmcSetPadding 7) State.reset
    (t.tmcPad, t.tmcAlloc, t.seq) = (7, false, .idle) := by decide

/-- V-TMC-11. -/
theorem test_tmc_teardown :
    let t := execWith testParams .tmcTeardown { State.reset with tmcAlloc := true }
    (t.tmcAlloc, t.trace, t.res) = (false, [], ⟨.ok, .zero, .none⟩) := by decide

/-! ### HUDI unit -/

/-- Section 2.2: the thirteen opcodes from (0, 0, 0). -/
theorem test_mode_table_from_unlocked_0 :
    sdirOpcodes.map (fun op => flagsOf ((flags false false false).sdirWrite op))
      = [(false, true, false), (false, true, false), (true, true, false), (false, false, false)]
        ++ List.replicate 9 (false, true, false) := by decide

/-- Section 2.2: the thirteen opcodes from (1, 1, 0). -/
theorem test_mode_table_from_locked :
    sdirOpcodes.map (fun op => flagsOf ((flags true true false).sdirWrite op))
      = [(true, true, false), (true, true, false), (true, true, true), (false, false, false)]
        ++ List.replicate 9 (true, true, false) := by decide

/-- Section 2.2: the thirteen opcodes from (0, 1, 1). -/
theorem test_mode_table_from_unlocked_1 :
    sdirOpcodes.map (fun op => flagsOf ((flags false true true).sdirWrite op))
      = [(false, true, true), (false, true, true), (true, true, true)] ++ List.replicate 10 (false, true, true) := by
  decide

/-- V-ENC-10: one event, the pair written. -/
theorem test_sdir_bypass :
    let t := execWith testParams .sdirBypass (answering [0x55])
    (t.trace, t.wsdir, t.rsdir, t.hudiAlloc, t.seq) = ([.tapIR 8 0xFF 0x55], 0xFF, 0x55, true, .idle) := by decide

/-- V-DA-2: TLR does not unlock. -/
theorem test_initial_state_locked :
    let t := execTimesWith testParams 2 .hudiInitialState (flags true true false)
    (t.trace, flagsOf t) = ([.tapTLR, .tapIR 8 0x60 0], (true, true, false)) := by decide

/-- V-DA-3: a read re-synchronises when the mode is 0. -/
theorem test_read_data_resync :
    let t := execTimesWith testParams 3 .hudiReadData { State.reset with answers := [0, 5] }
    (t.trace, t.res, flagsOf t)
      = ([.tapTLR, .tapIR 8 0x60 0, .tapDR 32 0 5], ⟨.ok, .zero, .word 5⟩, (false, true, false)) := by decide

/-- V-DA-5 to V-DA-8. -/
theorem test_write_data_rules :
    [(ModeUpdate.copyBit0, 0), (.xorBit0, 0), (.copyBit0, 1), (.xorBit0, 1)].map
        (fun (rule, d) =>
          flagsOf (execWith { testParams with unlockedModeUpdate := rule } (.hudiWriteData d) (flags false true false)))
      = [(false, false, false), (false, true, false), (false, true, false), (false, false, false)] := by decide

/-- V-DA-10: locked pins the mode. -/
theorem test_write_data_locked :
    flagsOf (execWith testParams (.hudiWriteData 0) (flags true true false)) = (true, true, false) := by decide

/-- V-DA-13: the snapshot unlocks. -/
theorem test_internal_status_unlocks :
    let t := execTimesWith testParams 10 .hudiReadInternalStatus
      { flags true true false with answers := [0, 1, 2, 3, 4, 5, 6, 7, 8, 0] }
    (t.trace.length, t.res.data, flagsOf t)
      = (10, .status #v[1, 2, 3, 4, 5, 6, 7, 8] #v[1, 0, 2, 0, 3, 0, 4, 0, 5, 0, 6, 0, 7, 0, 8, 0], (false, true, true)) := by decide

/-! ### HUDI unit: ASE RAM and overlays -/

/-- Section 2.4's descriptors under both readings, the wrapping rows among them. -/
theorem test_descriptors :
    [((0xFC0002A0 : Word32), 0), (0xFC0002A0, 1), (0xFC0002A0, 88), (0xFC0002A0, 89), (0xFC0003FC, 1), (0xFC0003FC, 2),
        (0xFC000000, 256), (0x12345678, 3)].map
        (fun (boot, n) => (aseramDescriptor .relativeToStart boot n, aseramDescriptor .relativeToZero boot n))
      = [(0x029E02A0, 0x03FE02A0), (0x02A202A0, 0x000202A0), (0x03FE02A0, 0x015E02A0), (0x000202A0, 0x016202A0),
         (0x03FE03FC, 0x000203FC), (0x000203FC, 0x000603FC), (0x03FE0000, 0x03FE0000), (0x02820278, 0x000A0278)] := by
  decide

/-- V-OVL-1: a block of no words is the opcode and the descriptor. -/
theorem test_write_aseram_empty :
    runOf testParams 2 (.hudiWriteAseram 0xFC0002A0 []) (answering [0, 0])
      = ([.tapIR 8 0x50 0, .tapDR 32 0x029E02A0 0], ⟨.ok, .zero, .none⟩) := by decide

/-- Program 4, step 2. -/
theorem test_load_overlay_uploads :
    let t := execTimesWith testParams 4 (.hudiLoadOverlay 1) { answering [0, 0, 0, 0] with ovl := program4Table }
    (t.trace, t.res, t.curOvl, t.seq)
      = ([.tapIR 8 0x50 0, .tapDR 32 0x00020000 0, .tapDR 32 0xDEADBEEF 0, .tapIR 8 0xFF 0], ⟨.ok, .zero, .none⟩, 1, .idle) := by
  decide

/-- V-OVL-4: an EMPTY entry. -/
theorem test_load_overlay_empty :
    let t := execWith testParams (.hudiLoadOverlay 26) State.reset
    (t.trace, t.res, t.curOvl) = ([], ⟨.fail, .kind .noOverlay, .none⟩, 0) := by decide

/-- V-OVL-13: the current overlay is not uploaded again. -/
theorem test_start_overlay_current :
    runOf testParams 4 (.hudiStartOverlay 3 []) { answering [0, 0, 0, 0] with ovl := loadedTable, curOvl := 3 }
      = ([.tapIR 8 0x50 0, .tapDR 32 0x03FE03FC 0, .tapDR 32 0xCAFE0001 0, .tapIR 8 0x60 0], ⟨.ok, .zero, .none⟩) := by
  decide

/-- V-OVL-6: fail fast. -/
theorem test_start_overlay_empty :
    let t := execWith testParams (.hudiStartOverlay 7 []) { State.reset with curOvl := 5 }
    (t.trace, t.res, t.curOvl) = ([], ⟨.fail, .kind .noOverlay, .none⟩, 5) := by decide

/-- V-OVL-11. -/
theorem test_attach_at_reset :
    let t := execWith testParams .hudiAttach State.reset
    (t.trace, t.res, t.hudiAlloc) = ([], ⟨.fail, .kind .noOverlay, .none⟩, true) := by decide

/-- Program 4, step 6: sixteen events, NOT_IMPLEMENTED, and the second boot overlay current. -/
theorem test_attach_result :
    let t := execTimesWith testParams 16 .hudiAttach
      { answering (List.replicate 16 0) with ovl := program4Table, curOvl := 21 }
    (t.trace.length, t.res, t.curOvl, t.seq) = (16, ⟨.notImplemented, .stub .attach, .none⟩, 21, .idle) := by decide

/-- V-OVL-9, V-OVL-10 and V-DSU-3: the stubs' codes. -/
theorem test_stub_codes :
    [Instr.hudiDetach, .hudiServiceAsemode, .hudiWaitAsemode, .hudiInitAsemode, .hudiInterruptTarget, .dsuDbreak,
        .dsuDpoke, .dsuFlush, .dsuIbreak].map
        (fun i => let t := execWith testParams i State.reset; (t.res.status.value, t.res.code.value, t.trace.length))
      = [(2, 2, 0), (2, 3, 0), (2, 4, 0), (2, 5, 0), (2, 6, 0), (2, 7, 0), (2, 8, 0), (2, 9, 0), (2, 10, 0)] := by decide

/-- V-OVL-7: a failed host load clears the table. -/
theorem test_load_table_failed :
    let t := execWith testParams (.hudiLoadTable none) { loaded with curOvl := 3 }
    (t.ovl, t.curOvl, t.res.code.value) = (OverlayTable.empty, 0, 0x14) := by decide

/-- V-OVL-12: the table and the mode state are kept. -/
theorem test_hudi_teardown :
    let t := execWith testParams .hudiTeardown { loaded with curOvl := 3, mode := true, hudiAlloc := true }
    (t.hudiAlloc, t.curOvl, t.mode, t.ovl) = (false, 3, true, loadedTable) := by decide

/-! ### Flash engine -/

/-- Section 2.5: doubling. -/
theorem test_dbl : [dbl 0x0050, dbl 0x1234, dbl 0xFFFF] = [0x00500050, 0x12341234, 0xFFFFFFFF] := by decide

/-- Section 2.5: one 16-bit poll read, classified for erase and for unlock or program. -/
theorem test_status_16 :
    [(0x0081 : BitVec 16), 0xFF80, 0x00B0, 0x00A8, 0x00A2, 0x00A0, 0x00B8, 0x00C0].map
        (fun raw =>
          let sr := maskedStatus .w16 raw
          (ready StatusMasks.defaults .w16 sr, classifyErase StatusMasks.defaults .w16 sr,
            classifyExact StatusMasks.defaults .w16 sr))
      = [(true, .ok, .ok), (true, .ok, .ok), (true, .invalidCommandSequence, .unknown), (true, .lowVpen, .unknown),
         (true, .blockLocked, .unknown), (true, .unknown, .unknown), (true, .unknown, .unknown),
         (true, .unknown, .unknown)] := by decide

/-- Section 2.5: one 32-bit poll read. -/
theorem test_status_32 :
    [(0x01810181 : BitVec 32), 0x00B000B0, 0x00B00080, 0x00A200A8, 0xFFFFFFFF].map
        (fun raw =>
          let sr := maskedStatus .w32 raw
          (ready StatusMasks.defaults .w32 sr, classifyErase StatusMasks.defaults .w32 sr,
            classifyExact StatusMasks.defaults .w32 sr))
      = [(true, .ok, .ok), (true, .invalidCommandSequence, .unknown), (true, .unknown, .unknown),
         (true, .unknown, .unknown), (true, .unknown, .unknown)] := by decide

/-- Section 2.5: not ready, a half-ready 32-bit status among them. -/
theorem test_status_not_ready :
    ready StatusMasks.defaults .w16 (maskedStatus .w16 0x007F) = false
      ∧ ready StatusMasks.defaults .w32 (maskedStatus .w32 0x00800000) = false
      ∧ ready StatusMasks.defaults .w32 (maskedStatus .w32 0x00000080) = false := by decide

/-- V-FL-4 to V-FL-6. -/
theorem test_autodetect :
    [(BusWidth.w16, (0x0003 : Word16)), (.w32, 0x0003), (.w32, 0x0004)].map
        (fun (bus, id) =>
          let t := execWith { testParams with busWidth := bus } (.flashAutodetect id) (driven .intel32 [])
          (t.driver, t.res))
      = [(.intel16, ⟨.ok, .zero, .driver .intel16⟩), (.intel32, ⟨.ok, .zero, .driver .intel32⟩),
         (.none, ⟨.fail, .kind .noDriver, .none⟩)] := by decide

/-- V-FL-7. -/
theorem test_erase_block_locked :
    runOf testParams 6 (.flashEraseBlock 0x40000) (driven .intel32 [0x00800000, 0x00000080, 0x00A200A2])
      = ([.memWrite 0x40000 32 0x00500050, .memWrite 0x40000 32 0x00200020, .memWrite 0x40000 32 0x00D000D0,
          .memRead 0x40000 32 0x00800000, .memRead 0x40000 32 0x00000080, .memRead 0x40000 32 0x00A200A2],
         ⟨.fail, .flash .blockLocked, .none⟩) := by decide

/-- V-FL-12: a finite poll limit. -/
theorem test_erase_timeout :
    let t := execTimesWith { testParams with pollLimitGiven := some 3 } 6 (.flashEraseBlock 0) (driven .intel16 [0, 0, 0])
    (t.trace.length, t.res.status.value, t.res.code.value) = (6, 1, 5) := by decide

/-- V-FL-14. -/
theorem test_unlock_ok :
    runOf testParams 4 (.flashUnlockBlock 0) (driven .intel32 [0x01810181])
      = ([.memWrite 0 32 0x00500050, .memWrite 0 32 0x00600060, .memWrite 0 32 0x00D000D0, .memRead 0 32 0x01810181],
         ⟨.ok, .zero, .none⟩) := by decide

/-- V-FL-15: 16-bit data is written modulo 2^16. -/
theorem test_program_16 :
    runOf testParams 4 (.flashProgram 0x2 0xFFFF0000) (driven .intel16 [0x0080])
      = ([.memWrite 2 16 0x0050, .memWrite 2 16 0x0040, .memWrite 2 16 0, .memRead 2 16 0x0080], ⟨.ok, .zero, .none⟩) := by
  decide

/-- V-FL-16: 32-bit data is not doubled. -/
theorem test_program_32 :
    runOf testParams 4 (.flashProgram 0x4 0x12345678) (driven .intel32 [0x00800080])
      = ([.memWrite 4 32 0x00500050, .memWrite 4 32 0x00400040, .memWrite 4 32 0x12345678, .memRead 4 32 0x00800080],
         ⟨.ok, .zero, .none⟩) := by decide

/-- V-FL-18. -/
theorem test_read_array :
    runOf testParams 1 (.flashReadArray 0x100) (driven .intel16 []) = ([.memWrite 0x100 16 0x00FF], ⟨.ok, .zero, .none⟩) := by
  decide

/-- V-FL-19. -/
theorem test_print_info_32 :
    runOf testParams 5 (.flashPrintInfo 0) (driven .intel32 [0x00890089, 0x00170016])
      = ([.memWrite 0 32 0x00500050, .memWrite 0 32 0x00900090, .memRead 0 32 0x00890089, .memRead 4 32 0x00170016,
          .memWrite 0 32 0x00FF00FF],
         ⟨.ok, .zero, .ids 0x00890089 0x00170016 0x89 0x0016 "28F320J3A"⟩) := by decide

/-- V-FL-21: an unlisted id is no error. -/
theorem test_print_info_unknown :
    (execTimesWith testParams 5 (.flashPrintInfo 0) (driven .intel16 [0x0089, 0x9999])).res
      = ⟨.ok, .zero, .ids 0x0089 0x9999 0x89 0x9999 "unknown"⟩ := by decide

/-- V-FL-1: {1, 0x15}. -/
theorem test_no_driver :
    let t := execWith testParams (.flashEraseBlock 0) State.reset
    (t.trace, t.res.status.value, t.res.code.value) = ([], 1, 0x15) := by decide

/-- R69: a misaligned write that never completes is in the trace once, and every later step changes nothing. -/
theorem test_misaligned_write_never :
    let t := execWith testParams (.flashReadArray 0x101) (driven .intel16 [])
    (t.trace, t.results, execTimesWith testParams 3 (.flashReadArray 0x101) t) = ([.memWrite 0x101 16 0x00FF], [], t) := by
  decide

/-- R69: a misaligned poll read that completes returns the platform's word, here the complement of the answer. -/
theorem test_misaligned_poll_completes :
    let p := { testParams with busMisaligned := fun _ _ _ access => .completes (match access with | .read a => ~~~a | .write v => v) }
    runOf p 4 (.flashUnlockBlock 0x3) (driven .intel16 [0xFF7F])
      = ([.memWrite 3 16 0x0050, .memWrite 3 16 0x0060, .memWrite 3 16 0x00D0, .memRead 3 16 0x0080], ⟨.ok, .zero, .none⟩) := by
  decide

/-! ### DSU peek unit -/

/-- Section 2.6's command words. -/
theorem test_dsu_words :
    [0x0, 0x3, 0x4, 0x8, 0xFF, 0x12345678, 0xFFFFFFFF, 2 ^ 37 - 1, 2 ^ 37].map dsuCommand
      = [0x19, 0x19, 0x39, 0x59, 0x7F9, 0x0091A2B3D9, 0x07FFFFFFF9, 0xFFFFFFFFF9, 0x19] := by decide

/-- Section 2.6's reversed words. -/
theorem test_dsu_reversed :
    [0x19, 0x39, 0x59, 0x7F9, 0x0091A2B3D9, 0x07FFFFFFF9, 0xFFFFFFFFF9].map reverse40
      = [0x9800000000, 0x9C00000000, 0x9A00000000, 0x9FE0000000, 0x9BCD458900, 0x9FFFFFFFE0, 0x9FFFFFFFFF] := by decide

/-- V-DSU-2: the first three events of a sweep. -/
theorem test_dsu_peek_starts :
    let t := execTimesWith testParams 3 (.dsuPeek 0) (answering [0, 0, 0])
    (t.trace, t.dsuAlloc, t.dsuwir)
      = ([.tapIR 1 1 0, .tapDR 40 0x19 0, .tapDR 40 0x9800000000 0], true, 1) := by decide

/-- V-DSU-4. -/
theorem test_dsu_teardown :
    let t := execWith testParams .dsuTeardown State.reset
    (t.dsuAlloc, t.res) = (false, ⟨.ok, .zero, .none⟩) := by decide

/-- R106 and R107: the assembler line of a command, and a pseudo-instruction. -/
theorem test_assembler_line :
    assemble (.hudiStartOverlay 21 [5, 6]) = some "HUDI_START_OVERLAY 21, [5, 6]"
      ∧ tmcReadOptionIdPseudo testParams = .tmcReadDeviceId 4 := by decide

/-! ### Witnesses: each obligation's hypotheses are met, every clause of it at a boundary of its range -/

/-- `S.seq` idle (R21) is the whole hypothesis of ResetBypassRuns, ReadDeviceIdRuns, ReadChipIdRuns, SetPaddingRuns,
TeardownsFreePairs, IsrStartRuns, IsrEndRuns, InitialStateRuns, ReadInternalStatusRuns, WriteAseramRuns, LoadTableRuns
and DsuPeekRuns. -/
theorem test_witness_idle : State.reset.seq = .idle := rfl

/-- DecodeEncodeAgree and LengthOfCommands: a command of each length form, and the longest truncation. -/
theorem test_witness_wellFormed :
    (Instr.flashProgram 0xFFFFFFFF 0xFFFFFFFF).wellFormed = true ∧ 8 < (Instr.flashProgram 0 0).byteLength
      ∧ (Instr.hudiWriteAseram 0xFC0002A0 [1, 2]).wellFormed = true
      ∧ (Instr.hudiLoadTable (some program4Table)).wellFormed = true
      ∧ 52 < (Instr.hudiLoadTable (some program4Table)).byteLength := by decide

/-- DecodeAcceptsOnlyEncodings: bytes after the command stay over. -/
theorem test_witness_decode_accepts : decode [0x10, 0xFF, 0x00] = .ok (.sdirBypass, [0x00]) := rfl

/-- A state whose port holds one message. -/
def holding (msg : List Byte) : State := { State.reset with inbox := [msg] }

/-- MalformedMessagesRefused, ReservedOpcodesRefused and StepRunsDecodedCommand: the shape of the state. -/
theorem test_witness_holding (msg : List Byte) :
    (holding msg).resetReq = false ∧ (holding msg).seq = .idle ∧ (holding msg).inbox = msg :: [] := ⟨rfl, rfl, rfl⟩

/-- MalformedMessagesRefused: reserved ids beside the defined ones. -/
theorem test_witness_reserved_ids :
    ∀ c ∈ ([0x00, 0x05, 0x0E, 0x26, 0x2F, 0x35, 0x3E, 0x40, 0xFF] : List Byte), c ∉ commandIds := by decide

/-- MalformedMessagesRefused: a `valid` byte, and truncations to 0 and to all but one byte. -/
theorem test_witness_malformed :
    (∃ v bs, ([0x1E, 2] : List Byte) = 0x1E :: v :: bs ∧ v ≠ 0 ∧ v ≠ 1)
      ∧ (∃ (i : Instr) (n : Nat), i.wellFormed = true ∧ n < i.byteLength ∧ [] = (encode i).take n)
      ∧ ∃ (i : Instr) (n : Nat), i.wellFormed = true ∧ n < i.byteLength ∧ [0x12, 1, 2, 3] = (encode i).take n :=
  ⟨⟨2, [], by decide⟩, ⟨.hudiReadData, 0, by decide⟩, ⟨.hudiWriteData 0x00030201, 4, by decide⟩⟩

/-- ReservedOpcodesRefused: opcodes beside the defined ones. -/
theorem test_witness_reserved_opcodes :
    ∀ op ∈ ([0x01, 0x24, 0x4F, 0x51, 0xC1, 0xFE] : List Byte), op ∉ sdirOpcodes := by decide

/-- StepRunsDecodedCommand: a message with bytes left over. -/
theorem test_witness_step_runs : decode [0x04, 0x07, 0x00, 0xAA] = .ok (.tmcSetPadding 7, [0xAA]) := rfl

/-- OpcodeRowsDoNotOverlap: a key of one row. -/
theorem test_witness_rows :
    (0xFF10 : Word16) &&& Instr.sdirBypass.rowMask = Instr.sdirBypass.rowMatch
      ∧ (0xAB01 : Word16) &&& (Instr.tmcResetBypass 0).rowMask = (Instr.tmcResetBypass 0).rowMatch := by decide

/-- An initial_state that waits at its second primitive. -/
def halfway : State :=
  { State.reset with seq := .busy .hudiInitialState 1 (.sdirWrite 0x60) [] (Local.start .done), trace := [.tapTLR] }

/-- StepContinuesRunningCommand and RunningStepEmitsOneEvent: a busy state with no reset applied, not in the wait. -/
theorem test_witness_busy :
    halfway.resetReq = false ∧ halfway.seq = .busy .hudiInitialState 1 (.sdirWrite 0x60) [] (Local.start .done) := ⟨rfl, rfl⟩

/-- RunningStepEmitsOneEvent: a poll that stays and one that ends, so each alternative occurs. -/
theorem test_witness_busy_poll :
    let s := { driven .intel16 [0x00, 0x80] with
      seq := .busy (.flashEraseBlock 0) 3 (.pollReady .w16 0) [] (Local.start (.erase .w16)) }
    let t := execWith testParams (.flashEraseBlock 0) s
    (match t.seq with | .busy _ 3 (.pollReady .w16 0) [] _ => true | _ => false) = true
      ∧ (execWith testParams (.flashEraseBlock 0) t).seq = .idle := by decide

/-- CommandWhileBusyIsHeld: `halfway` with no reset applied, another command, and a message of the same command. -/
theorem test_witness_held :
    halfway.resetReq = false ∧ Instr.hudiReadData ≠ Instr.hudiInitialState ∧ encode .hudiInitialState = [0x13] := by decide

/-- SequencerResetTaken: a reset applied in the middle of a command. -/
theorem test_witness_reset : { halfway with resetReq := true }.resetReq = true := rfl

/-- IdleSequencerWaits. -/
theorem test_witness_waits : State.reset.resetReq = false ∧ State.reset.seq = .idle ∧ State.reset.inbox = [] :=
  ⟨rfl, rfl, rfl⟩

/-- `halfway`, locked, with a current overlay. -/
def halfwayLocked : State := { halfway with locked := true, mode := true, curOvl := 26, ovl := loadedTable }

/-- StepKeepsInv, UnitsAreIsolated and HudiSendsOnlyDefinedOpcodes: a locked state with a current overlay and a running
command meets `Inv`. -/
theorem test_witness_inv : Inv halfwayLocked :=
  { locked_mode := fun _ => rfl
    current_loaded := fun _ => by decide
    table_wellFormed := by decide
    driver_width := .inl rfl
    running := fun cmd k q rest loc h => by
      obtain ⟨rfl, -, rfl, rfl, -⟩ : Instr.hudiInitialState = cmd ∧ 1 = k ∧ Prim.sdirWrite 0x60 = q ∧ [] = rest ∧ _ :=
        Seq.busy.inj h
      exact ⟨⟨rfl, show (0x60 : Byte) ∈ sdirOpcodes by decide⟩, fun _ h => by simp at h⟩
    trace_widths := fun e h => by
      obtain rfl : e = .tapTLR := by simpa [halfwayLocked, halfway] using h
      trivial }

/-- StepKeepsInv, UnitsAreIsolated and HudiSendsOnlyDefinedOpcodes: that state steps, with an IR shift. -/
theorem test_witness_inv_step :
    ∃ t c, step halfwayLocked = .next t ∧ exec .hudiInitialState halfwayLocked = .next t
      ∧ t.trace = halfwayLocked.trace ++ [.tapIR 8 0x60 c] := ⟨_, _, rfl, rfl, rfl⟩

/-- UnitsAreIsolated: a command of each unit. -/
theorem test_witness_units :
    unitOf .tmcReadChipId = .tmc ∧ unitOf .sdirBypass = .hudi ∧ unitOf (.flashReadArray 0) = .flash
      ∧ unitOf (.dsuPeek 0) = .dsu := ⟨rfl, rfl, rfl, rfl⟩

/-- HudiSendsOnlyDefinedOpcodes and ModeFlagsChangeOnlyByHudiShifts (locked, and mode by an IR shift). -/
theorem test_witness_ir_shift :
    ∃ t c, exec .sdirIsrStart State.reset = .next t ∧ t.trace = State.reset.trace ++ [.tapIR 8 0x20 c]
      ∧ t.locked ≠ State.reset.locked ∧ t.mode ≠ State.reset.mode := ⟨_, _, rfl, rfl, by decide, by decide⟩

/-- ModeFlagsChangeOnlyByHudiShifts: a state that meets `Inv`, and a step that changes a flag there. -/
theorem test_witness_inv_flag :
    Inv { State.reset with locked := true, mode := true }
      ∧ ∃ t, exec .sdirIsrEnd { State.reset with locked := true, mode := true } = .next t ∧ t.locked = false :=
  ⟨{ locked_mode := fun _ => rfl
     current_loaded := fun h => absurd rfl h
     table_wellFormed := by decide
     driver_width := .inl rfl
     running := fun _ _ _ _ _ h => by cases h
     trace_widths := fun _ h => by cases h },
   _, rfl, rfl⟩

/-- ModeFlagsChangeOnlyByHudiShifts: `saved_mode` changes. -/
theorem test_witness_saved_mode :
    ∃ t, exec .sdirIsrStart (flags false true false) = .next t ∧ t.savedMode ≠ (flags false true false).savedMode :=
  ⟨_, rfl, by decide⟩

/-- ModeFlagsChangeOnlyByHudiShifts: an unlocked data write changes `mode`, under either reading of R169. -/
theorem test_witness_data_shift :
    ∃ d t, exec (.hudiWriteData d) (flags false true false) = .next t ∧ t.mode ≠ (flags false true false).mode := by
  cases h : Config.params.unlockedModeUpdate with
  | copyBit0 =>
    exact ⟨0, _, rfl, by simp [command, start, bodyHudiWriteData, flags, answering, settle, State.hudiInit, State.reset,
      advance, perform, State.dataWrite, State.tapDR, State.drawn, State.emit, modeUpdateData, unlockedMode, pause,
      State.finish, h]⟩
  | xorBit0 =>
    exact ⟨1, _, rfl, by simp [command, start, bodyHudiWriteData, flags, answering, settle, State.hudiInit, State.reset,
      advance, perform, State.dataWrite, State.tapDR, State.drawn, State.emit, modeUpdateData, unlockedMode, pause,
      State.finish, h]⟩

/-- InvalidChannelFails: the least and the greatest channel refused. -/
theorem test_witness_channel : 3 < (4 : Byte).toNat ∧ 3 < (255 : Byte).toNat := by decide

/-- SdirOpcodesRun: the first and the last row of its list. -/
theorem test_witness_sdir (i : Instr) (op : Byte) (h : (i, op) = (.sdirExtest, 0x00) ∨ (i, op) = (.sdirBypass, 0xFF)) :
    (i, op) ∈ [(Instr.sdirExtest, (0x00 : Byte)), (.sdirSamplePreload, 0x04), (.sdirTdoTimingChange, 0x22),
      (.sdirWaitCancel, 0x23), (.sdirAseramWrite, 0x50), (.sdirResetNegate, 0x60), (.sdirResetAssert, 0x70),
      (.sdirBoot, 0x80), (.sdirInterrupt, 0xA0), (.sdirBreak, 0xC0), (.sdirBypass, 0xFF)] := by
  obtain h | h := h <;> simp [h]

/-- StatusBracketRestoresMode: reads and writes between. -/
theorem test_witness_bracket :
    ∀ c ∈ [Instr.hudiReadData, .hudiWriteData 0], c = .hudiReadData ∨ ∃ d, c = .hudiWriteData d := by simp

/-- ReadDataRuns and WriteDataRuns: both modes, and the locked state of mode 0 that no run reaches. -/
theorem test_witness_modes :
    (flags false true false).mode = true ∧ (flags true true false).locked = true ∧ State.reset.mode = false
      ∧ (flags true false false).mode = false ∧ (flags true false false).seq = .idle := by decide

/-- OverlayRefusals: the ids at the edges of 1..26, and a valid EMPTY id that is not current. -/
theorem test_witness_overlay_ids :
    ((0 : Byte) = 0 ∨ 26 < (0 : Byte).toNat) ∧ 26 < (27 : Byte).toNat ∧ 26 < (255 : Byte).toNat
      ∧ (∀ id : Fin 27, id = 1 ∨ id = 26 → id ≠ 0 ∧ State.reset.curOvl ≠ id ∧ State.reset.ovl[id] = []) := by decide

/-- LoadOverlayUploads, LoadOverlayIdempotent and StartOverlayRuns: the first and the last id, loaded and not current;
and an id that is current while its entry is EMPTY. -/
theorem test_witness_overlay_loaded :
    (∀ id : Fin 27, id = 1 ∨ id = 26 → id ≠ 0 ∧ loaded.curOvl ≠ id ∧ loaded.ovl[id] ≠ []) ∧ loaded.seq = .idle
      ∧ { State.reset with curOvl := 5 }.curOvl = 5 := by decide

theorem loadedTable_ne (id : Fin 27) : loadedTable[id] ≠ [] := by
  simp [loadedTable]

/-- AttachRuns: every entry is loaded, whatever the two boot ids are. -/
theorem test_witness_attach :
    (loaded.curOvl = Config.params.ovlBootInit ∨ loaded.ovl[Config.params.ovlBootInit] ≠ [])
      ∧ loaded.ovl[Config.params.ovlBootReset] ≠ [] := ⟨.inr (loadedTable_ne _), loadedTable_ne _⟩

/-- AttachFailsFast, first clause: nothing is loaded. -/
theorem test_witness_attach_init_empty :
    State.reset.curOvl ≠ Config.params.ovlBootInit ∧ State.reset.ovl[Config.params.ovlBootInit] = [] :=
  ⟨(Params.ovlBootInit_ne_zero Config.params).symm, by simp [State.reset, OverlayTable.empty]⟩

/-- AttachFailsFast, second clause: the boot-init overlay is current and the table is EMPTY. -/
theorem test_witness_attach_reset_empty :
    let s := { State.reset with curOvl := Config.params.ovlBootInit }
    (s.curOvl = Config.params.ovlBootInit ∨ s.ovl[Config.params.ovlBootInit] ≠ [])
      ∧ s.ovl[Config.params.ovlBootReset] = [] := ⟨.inl rfl, by simp [State.reset, OverlayTable.empty]⟩

/-- HudiStubsReturnNotImplemented: a row of its list. -/
theorem test_witness_hudi_stub :
    (Instr.hudiDetach, StubName.detach) ∈ [(Instr.hudiDetach, StubName.detach), (.hudiServiceAsemode, .serviceAsemode),
      (.hudiWaitAsemode, .waitAsemode), (.hudiInitAsemode, .initAsemode), (.hudiInterruptTarget, .interruptTarget)] := by
  decide

/-- DsuStubsReturnNotImplemented: a row of its list. -/
theorem test_witness_dsu_stub :
    (Instr.dsuIbreak, StubName.ibreak) ∈ [(Instr.dsuDbreak, StubName.dbreak), (.dsuDpoke, .dpoke), (.dsuFlush, .flush),
      (.dsuIbreak, .ibreak)] := by decide

/-- EraseClassification: masks R103 allows, and ready statuses on both buses, one per classification. -/
theorem test_witness_erase_classes :
    StatusMasks.defaults.valid = true
      ∧ ([0x80, 0xB0, 0xA8, 0xA2, 0xA0].map (ready StatusMasks.defaults .w16)).all id = true
      ∧ ready StatusMasks.defaults .w32 0x00B000B0 = true ∧ ready StatusMasks.defaults .w32 0x00B00080 = true := by decide

/-- FlashNeedsDriver. -/
theorem test_witness_no_driver :
    State.reset.driver = .none ∧ Instr.flashReadArray 0 ∈ [Instr.flashPrintInfo 0, .flashReadArray 0] := by decide

/-- AutodetectRuns: both branches, whatever CFI_INTEL_ID is. -/
theorem test_witness_autodetect : ∃ a b : Word16, a = Config.params.cfiIntelId ∧ b ≠ Config.params.cfiIntelId :=
  ⟨_, Config.params.cfiIntelId + 1, rfl, by bv_omega⟩

/-- EraseBlockRuns, UnlockAndProgramRun and ReadArrayRuns: both drivers, and the last aligned address of each. -/
theorem test_witness_driver :
    (driven .intel16 []).driver.bus? = some .w16 ∧ (driven .intel32 []).driver.bus? = some .w32
      ∧ aligned .w16 0xFFFFFFFE = true ∧ aligned .w32 0xFFFFFFFC = true
      ∧ (driven .intel16 []).seq = .idle := by decide

/-- PrintInfoRuns: the two id addresses are aligned under the spec's default offsets. -/
theorem test_witness_print_info :
    aligned .w16 (0xA0000000 + testParams.flMidOff .w16) = true ∧ aligned .w16 (0xA0000000 + testParams.flCidOff .w16) = true
      ∧ aligned .w32 (0xA0000000 + testParams.flMidOff .w32) = true
      ∧ aligned .w32 (0xA0000000 + testParams.flCidOff .w32) = true := by decide

/-- The test parameters with a platform that completes every misaligned access as an aligned one. -/
def completing : Params :=
  { testParams with
    busMisaligned := fun _ _ _ access => .completes (match access with | .read a => a | .write v => v) }

/-- MisalignedAccessIsThePlatforms: the least and the greatest misaligned address of each bus, and both outcomes. -/
theorem test_witness_misaligned :
    aligned .w16 1 = false ∧ aligned .w16 0xFFFFFFFF = false ∧ aligned .w32 2 = false ∧ aligned .w32 0xFFFFFFFE = false
      ∧ testParams.busMisaligned 0 1 .w16 (.write 0x00FF) = .never
      ∧ completing.busMisaligned 0 1 .w16 (.write 0x00FF) = .completes 0x00FF
      ∧ testParams.busMisaligned 0 1 .w16 (.read 0x0080) = .never
      ∧ completing.busMisaligned 0 1 .w16 (.read 0x0080) = .completes 0x0080
      ∧ ready completing.statusMasks .w16 (maskedStatus .w16 0x0080) = true
      ∧ ready completing.statusMasks .w16 (maskedStatus .w16 0x0000) = false ∧ completing.pollLimit = none := by decide

/-- MisalignedAccessIsThePlatforms: a running command at each of its primitives. -/
theorem test_witness_misaligned_busy :
    ∀ q ∈ [Prim.memWrite .w16 1 0, .memRead .w16 1, .pollReady .w16 1, .busWait],
      ∃ s : State, s.seq = .busy (.flashEraseBlock 1) 3 q [] (Local.start (.erase .w16)) :=
  fun q _ => ⟨{ State.reset with seq := .busy (.flashEraseBlock 1) 3 q [] (Local.start (.erase .w16)) }, rfl⟩

/-- A poll at its first read, with three answers lined up. -/
def polling (answers : List Nat) : State :=
  { driven .intel16 answers with
    seq := .busy (.flashEraseBlock 0) 3 (.pollReady .w16 0) [] (Local.start (.erase .w16)) }

/-- ReadyPollLoops: two reads that are not ready, then one that is, the limit unbounded. -/
theorem test_witness_poll_ready :
    (∀ sr ∈ pollStatuses .w16 2 (polling [0, 0x7F, 0x80]), ready testParams.statusMasks .w16 sr = false)
      ∧ testParams.pollLimit = none
      ∧ ready testParams.statusMasks .w16 (((polling [0, 0x7F, 0x80]).drawnBy 2).pollStatus .w16) = true
      ∧ aligned .w16 0 = true ∧ (Local.start (.erase .w16)).polls = 0 ∧ (Local.start (.erase .w16)).fin = .erase .w16 :=
  ⟨fun sr h => by
    obtain rfl | rfl : sr = 0 ∨ sr = 0x7E := by
      rw [show pollStatuses .w16 2 (polling [0, 0x7F, 0x80]) = [0, 0x7E] by decide] at h
      simpa using h
    all_goals decide, by decide, by decide, by decide, rfl, rfl⟩

/-- The parameters with POLL_LIMIT 2. -/
def limitTwo : Params := { testParams with pollLimitGiven := some 2 }

/-- ReadyPollLoops: a finite limit reached at two, and not yet reached at one. -/
theorem test_witness_poll_limit :
    limitTwo.pollLimit = some 2 ∧ (∀ m, limitTwo.pollLimit = some m → 1 < m)
      ∧ ∀ sr ∈ pollStatuses .w16 2 (polling [0, 0x7F]), ready limitTwo.statusMasks .w16 sr = false :=
  ⟨rfl, fun m h => by
    obtain rfl : 2 = m := Option.some.inj h
    decide, fun sr h => by
    obtain rfl | rfl : sr = 0 ∨ sr = 0x7E := by
      rw [show pollStatuses .w16 2 (polling [0, 0x7F]) = [0, 0x7E] by decide] at h
      simpa using h
    all_goals decide⟩

/-- ChipNameDecoding: an id the table lists beside the two R257 fixes, and one it does not. -/
theorem test_witness_chip_names :
    testParams.chipNames 0x0017 = some "28F640J3A" ∧ testParams.chipNames 0x0018 = none := by decide

end Sys2Proof.Tests
end

/-! # R129: no unit's command changes another unit's state (O24)

A step keeps every unit's state but that of the command's own unit (`KeepsOtherUnits`). This is a preorder on states, so
it is shown piece by piece: for what a body writes at its start, for one primitive of the unit, and for the writes of the
current overlay, the position and the results. `execWith_shape` says that a step is made of these pieces. -/

namespace Sys2Proof.Machine

/-- An event that is no access of the flash bus (R61). -/
def Event.OffBus (e : Event) : Prop :=
  ∀ addr n, (∀ v, e ≠ .memRead addr n v) ∧ e ≠ .memReadOpen addr n ∧ ∀ v, e ≠ .memWrite addr n v

/-- From `s` to `t` every unit other than `u` keeps its state, and unless `u` is the flash unit no event added to the
trace is a bus access (R61, R129). -/
def KeepsOtherUnits (u : UnitName) (s t : State) : Prop :=
  (u ≠ .tmc → t.tmcAlloc = s.tmcAlloc ∧ t.rir = s.rir ∧ t.wir = s.wir ∧ t.tmcPad = s.tmcPad)
  ∧ (u ≠ .hudi → t.hudiAlloc = s.hudiAlloc ∧ t.rsdir = s.rsdir ∧ t.wsdir = s.wsdir ∧ t.locked = s.locked
      ∧ t.mode = s.mode ∧ t.savedMode = s.savedMode ∧ t.curOvl = s.curOvl ∧ t.ovl = s.ovl)
  ∧ (u ≠ .dsu → t.dsuAlloc = s.dsuAlloc ∧ t.dsurir = s.dsurir ∧ t.dsuwir = s.dsuwir)
  ∧ (u ≠ .flash → t.driver = s.driver ∧ ∃ es, t.trace = s.trace ++ es ∧ ∀ e ∈ es, e.OffBus)

namespace KeepsOtherUnits

variable {u : UnitName} {s t r : State}

theorem refl (u : UnitName) (s : State) : KeepsOtherUnits u s s :=
  ⟨fun _ => ⟨rfl, rfl, rfl, rfl⟩, fun _ => ⟨rfl, rfl, rfl, rfl, rfl, rfl, rfl, rfl⟩, fun _ => ⟨rfl, rfl, rfl⟩,
    fun _ => ⟨rfl, [], (List.append_nil _).symm, nofun⟩⟩

theorem trans (hst : KeepsOtherUnits u s t) (htr : KeepsOtherUnits u t r) : KeepsOtherUnits u s r := by
  obtain ⟨tmc₁, hudi₁, dsu₁, flash₁⟩ := hst
  obtain ⟨tmc₂, hudi₂, dsu₂, flash₂⟩ := htr
  refine ⟨fun hu => ?_, fun hu => ?_, fun hu => ?_, fun hu => ?_⟩
  · simpa only [tmc₁ hu] using tmc₂ hu
  · simpa only [hudi₁ hu] using hudi₂ hu
  · simpa only [dsu₁ hu] using dsu₂ hu
  · obtain ⟨driver₁, es₁, trace₁, off₁⟩ := flash₁ hu
    obtain ⟨driver₂, es₂, trace₂, off₂⟩ := flash₂ hu
    refine ⟨driver₂.trans driver₁, es₁ ++ es₂, by rw [trace₂, trace₁, List.append_assoc], fun e he => ?_⟩
    exact (List.mem_append.mp he).elim (off₁ e) (off₂ e)

/-- Ending a command writes the position and the results, which are no unit's. -/
theorem finish (h : KeepsOtherUnits u s t) (res : Result) : KeepsOtherUnits u s (t.finish res) := h

theorem setSeq (h : KeepsOtherUnits u s t) (x : Seq) : KeepsOtherUnits u s { t with seq := x } := h

theorem hold (h : KeepsOtherUnits u s t) (i : Instr) : KeepsOtherUnits u s (t.hold i) := h

/-- The current overlay is the HUDI unit's. -/
theorem setCurrent (h : KeepsOtherUnits u s t) {id : Fin 27} (hid : id = t.curOvl ∨ u = .hudi) :
    KeepsOtherUnits u s { t with curOvl := id } := by
  obtain rfl | rfl := hid
  · exact h
  · obtain ⟨tmc, -, dsu, flash⟩ := h
    exact ⟨tmc, fun hu => absurd rfl hu, dsu, flash⟩

end KeepsOtherUnits

/-- A primitive of a unit writes that unit's state alone (R129). -/
theorem Prim.state_keepsOtherUnits {p : Params} {u : UnitName} {q : Prim} (s : State) (hq : q.allowed p u) :
    KeepsOtherUnits u s (q.state p s) := by
  obtain ⟨-, -, -, -, -, pad, ovl, cur, driver, tmcAlloc, hudiAlloc, dsuAlloc, -⟩ := q.state_frame p s
  refine ⟨fun hu => ?_, fun hu => ?_, fun hu => ?_, fun hu => ?_⟩
  · obtain ⟨rir, wir⟩ := q.state_tmc p s (by rintro v rfl; exact hu hq)
    exact ⟨tmcAlloc, rir, wir, pad⟩
  · have noSdir : ∀ op, q ≠ .sdirWrite op := by rintro op rfl; exact hu hq.1
    have noData : ∀ d, q ≠ .dataWrite d := by rintro d rfl; exact hu hq
    obtain ⟨rsdir, wsdir, locked, saved⟩ := q.state_hudi p s noSdir
    exact ⟨hudiAlloc, rsdir, wsdir, locked, q.state_mode p s noSdir (.inr noData), saved, cur, ovl⟩
  · obtain ⟨dsurir, dsuwir⟩ := q.state_dsu p s (by rintro pat rfl; exact hu hq.1)
    exact ⟨dsuAlloc, dsurir, dsuwir⟩
  · exact ⟨driver, q.events p s, q.state_trace p s, Prim.events_bus s hq hu⟩

/-- At its start a command's body writes its own unit's state alone, and emits nothing. -/
theorem bodyOf_keepsOtherUnits (p : Params) (i : Instr) (s : State) :
    KeepsOtherUnits (unitOf i) s (bodyOf i p s).state := by
  obtain ⟨-, -, -, -, -, trace, locked, mode, saved⟩ := bodyOf_frame p i s
  obtain ⟨tmc, hudi, flash, dsu⟩ := bodyOf_units p i s
  refine ⟨tmc, fun hu => ?_, dsu, fun hu => ?_⟩
  · obtain ⟨alloc, rsdir, wsdir, cur, ovl⟩ := hudi hu
    exact ⟨alloc, rsdir, wsdir, locked, mode, saved, cur, ovl⟩
  · exact ⟨flash hu, [], by rw [trace, List.append_nil], nofun⟩

/-- One step of a command keeps every other unit's state. -/
theorem execWith_keepsOtherUnits (p : Params) (i : Instr) (s : State)
    (hd : s.driver = .none ∨ s.driver.bus? = some p.busWidth)
    (hr : ∀ k q rest loc, s.seq = .busy i k q rest loc →
      q.allowed p (unitOf i) ∧ ∀ op ∈ rest, op.allowed p s.ovl (unitOf i)) :
    KeepsOtherUnits (unitOf i) s (execWith p i s) := by
  have hbody := bodyOf_keepsOtherUnits p i s
  rcases execWith_shape p i s hd hr with
    ⟨held, -⟩ | ⟨id, res, hid, -, ended⟩ | ⟨s₀, q, id, hs₀, hq, hid, performed⟩
  · rw [held]
    exact (KeepsOtherUnits.refl _ s).hold i
  · rw [ended]
    exact (hbody.setCurrent hid).finish res
  · have before : KeepsOtherUnits (unitOf i) s s₀ := by
      obtain rfl | ⟨-, id₀, hid₀, rfl⟩ := hs₀
      · exact .refl _ _
      · exact hbody.setCurrent hid₀
    obtain ⟨-, -, -, -, -, -, -, cur, -⟩ := q.state_frame p s₀
    have after := (before.trans (q.state_keepsOtherUnits s₀ hq)).setCurrent (id := id) (by rwa [cur])
    obtain ⟨res, ended⟩ | ⟨x, paused⟩ := performed
    · rw [ended]
      exact after.finish res
    · rw [paused]
      exact after.setSeq x

/-- Settles O24: a step of a command is the start of its body or one primitive of its unit, and either writes that
unit's state alone. -/
theorem unitsAreIsolated : Obligations.UnitsAreIsolated := by
  unfold Obligations.UnitsAreIsolated
  intro s t i hinv hexec
  obtain rfl : execWith Config.params i s = t := by simpa only [exec_eq, Host.Outcome.next.injEq] using hexec
  exact execWith_keepsOtherUnits Config.params i s hinv.driver_width fun k q rest loc hs => hinv.running i k q rest loc hs

end Sys2Proof.Machine

/-! # The SDIR commands that move the lock (O26, O27)

All SDIR commands share one body, so one equation (`execWith_sdir`) says what a whole command leaves: its event, result
and pair, under the mode table of R151. The two settled here are that table's rows for 0x20 and 0x21. -/

namespace Sys2Proof.Machine

/-- The row of 0x20 in the mode table (R151). -/
theorem modeUpdateIR_isrStart (s : State) :
    modeUpdateIR 0x20 s = { s with savedMode := s.mode, locked := true, mode := true } := if_pos rfl

/-- The row of 0x21 in the mode table (R151). -/
theorem modeUpdateIR_isrEnd (s : State) :
    modeUpdateIR 0x21 s = { s with locked := false, mode := s.savedMode } :=
  (if_neg (by decide)).trans (if_pos rfl)

/-- After `HudiInit()` an SDIR write leaves what it leaves without, but for the allocation: it writes both registers of
the pair (R150). -/
theorem State.sdirWrite_hudiInit (op : Byte) (s : State) :
    s.hudiInit.sdirWrite op = { s.sdirWrite op with hudiAlloc := true } := by
  rw [State.hudiInit_eq]
  simp only [State.sdirWrite, modeUpdateIR_eq]
  rfl

/-- An idle sequencer runs a command with the shared SDIR body in one step: one event, the pair, and the mode table. -/
theorem execWith_sdir (p : Params) {i : Instr} {op : Byte} {s : State} (hbody : bodyOf i = bodySdir op)
    (hidle : s.seq = .idle) :
    execWith p i s = modeUpdateIR op
      { s.completed 1 [.tapIR 8 op (s.answer 8)] (.ok .none) with
        hudiAlloc := true, wsdir := op, rsdir := s.answer 8 } := by
  calc execWith p i s
    _ = (s.hudiInit.sdirWrite op).finish (.ok .none) := by
      rw [execWith_idle p i s hidle, hbody]
      rfl
    _ = State.finish { s.sdirWrite op with hudiAlloc := true } (.ok .none) := by rw [State.sdirWrite_hudiInit]
    _ = _ := by
      simp only [State.sdirWrite, modeUpdateIR_eq]
      rfl

/-- Settles O26: the shared SDIR run, under the mode table's row of 0x20. -/
theorem isrStartRuns : Obligations.IsrStartRuns := by
  unfold Obligations.IsrStartRuns
  intro s hidle
  refine ⟨rfl, ?_⟩
  rw [exec_eq, execWith_sdir _ rfl hidle, modeUpdateIR_isrStart]
  rfl

/-- Settles O27: the shared SDIR run, under the mode table's row of 0x21. -/
theorem isrEndRuns : Obligations.IsrEndRuns := by
  unfold Obligations.IsrEndRuns
  intro s hidle
  refine ⟨rfl, ?_⟩
  rw [exec_eq, execWith_sdir _ rfl hidle, modeUpdateIR_isrEnd]
  rfl

end Sys2Proof.Machine

/-! # The DSU unit's words (O57, O58): the command word bit by bit, and the mirror image R291's loop builds -/

namespace Sys2Proof.Machine

/-- The constant bits of a command word (R104). -/
theorem testBit_dsuConstant (i : Nat) : Nat.testBit 0x19 i = decide (i = 0 ∨ i = 3 ∨ i = 4) := by
  rcases Nat.lt_or_ge i 5 with low | high
  · revert i
    decide
  · have small : 0x19 < 2 ^ i := calc
      0x19 < 2 ^ 5 := by decide
      _ ≤ 2 ^ i := Nat.pow_le_pow_right (by decide) high
    rw [Nat.testBit_eq_false_of_lt small, eq_comm, decide_eq_false_iff_not]
    omega

/-- R290 bit by bit: the constant's bits, over the register number moved up by 3. -/
theorem getLsbD_dsuCommand (reg : Nat) {i : Nat} (hi : i < 40) :
    (dsuCommand reg).getLsbD i = (decide (i = 0 ∨ i = 3 ∨ i = 4) || (decide (5 ≤ i) && reg.testBit (i - 3))) := by
  have word : (dsuCommand reg).getLsbD i
      = (decide (i = 0 ∨ i = 3 ∨ i = 4) || (decide (3 ≤ i) && reg.testBit (i - 3))) := by
    rw [dsuCommand, BitVec.getLsbD_ofNat, Nat.testBit_or, Nat.testBit_shiftLeft, testBit_dsuConstant, Bool.or_comm]
    simp [hi]
  rw [word]
  by_cases overlap : i = 3 ∨ i = 4
  · simp [overlap]
  · have same : 3 ≤ i ↔ 5 ≤ i := by omega
    rw [decide_eq_decide.mpr same]

/-- Settles O57: the word's bits by `getLsbD_dsuCommand`, its named values by evaluation. -/
theorem dsuCommandWord : Obligations.DsuCommandWord := by
  unfold Obligations.DsuCommandWord
  refine ⟨fun reg => ⟨BitVec.toNat_ofNat _ _, fun i hi => getLsbD_dsuCommand reg hi⟩, ?_⟩
  decide

/-- R291's pair `(r, m)` after its first `n` rounds. -/
def reverseAfter (x : Word40) (n : Nat) : Word40 × Word40 :=
  (List.range n).foldl (reverseRound x) (0, (1 : Word40) <<< 39)

theorem reverse40_eq (x : Word40) : reverse40 x = (reverseAfter x 40).1 := rfl

theorem reverseAfter_succ (x : Word40) (n : Nat) :
    reverseAfter x (n + 1) = reverseRound x (reverseAfter x n) n := by
  rw [reverseAfter, List.range_succ, List.foldl_append]
  rfl

/-- A round sets the bits of the mask when its own bit of the input is set. -/
theorem getLsbD_reverseRound_fst (x : Word40) (rm : Word40 × Word40) (i j : Nat) :
    (reverseRound x rm i).1.getLsbD j = (rm.1.getLsbD j || (x.getLsbD i && rm.2.getLsbD j)) := by
  cases hx : x.getLsbD i <;> simp [reverseRound, hx]

/-- The mask of round `n` is bit `39 - n` alone, and nothing from round 40 on. -/
theorem getLsbD_reverseAfter_snd (x : Word40) (n j : Nat) :
    (reverseAfter x n).2.getLsbD j = decide (n + j = 39) := by
  induction n generalizing j with
  | zero =>
    change (BitVec.twoPow 40 39).getLsbD j = _
    rw [BitVec.getLsbD_twoPow, Nat.zero_add]
    simp [eq_comm]
  | succ n ih =>
    calc (reverseAfter x (n + 1)).2.getLsbD j
      _ = ((reverseAfter x n).2 >>> 1).getLsbD j := by rw [reverseAfter_succ, reverseRound]
      _ = decide (n + (1 + j) = 39) := by rw [BitVec.getLsbD_ushiftRight, ih]
      _ = decide (n + 1 + j = 39) := by rw [Nat.add_assoc]

/-- After `n` rounds the top `n` bits are the mirror image of the input's low `n`, and the rest are 0. -/
theorem getLsbD_reverseAfter_fst (x : Word40) (n : Nat) {j : Nat} (hj : j < 40) :
    (reverseAfter x n).1.getLsbD j = (decide (39 < n + j) && x.getLsbD (39 - j)) := by
  induction n with
  | zero =>
    have untouched : ¬ 39 < 0 + j := by omega
    rw [decide_eq_false untouched, Bool.false_and]
    exact BitVec.getLsbD_zero
  | succ n ih =>
    rw [reverseAfter_succ, getLsbD_reverseRound_fst, ih, getLsbD_reverseAfter_snd]
    by_cases hround : n + j = 39
    · obtain rfl : n = 39 - j := by omega
      have shown : 39 < 39 - j + 1 + j := by omega
      simp [hround, shown]
    · have same : 39 < n + 1 + j ↔ 39 < n + j := by omega
      simp [hround, same]

/-- The mirror law (R292). -/
theorem getLsbD_reverse40 (x : Word40) {i : Nat} (hi : i < 40) : (reverse40 x).getLsbD i = x.getLsbD (39 - i) := by
  have done : 39 < 40 + i := by omega
  rw [reverse40_eq, getLsbD_reverseAfter_fst x 40 hi, decide_eq_true done, Bool.true_and]

/-- The mirror image of the mirror image (R292). -/
theorem reverse40_reverse40 (x : Word40) : reverse40 (reverse40 x) = x := by
  refine BitVec.eq_of_getLsbD_eq fun i hi => ?_
  rw [getLsbD_reverse40 _ hi, getLsbD_reverse40 _ (by omega : 39 - i < 40), Nat.sub_sub_self (by omega : i ≤ 39)]

/-- Settles O58: the mirror law bit by bit, and the involution that follows from it. -/
theorem reverseMirrorsBits : Obligations.ReverseMirrorsBits :=
  fun x => ⟨fun _ hi => getLsbD_reverse40 x hi, reverse40_reverse40 x⟩

end Sys2Proof.Machine

/-! # The byte format of commands (O1 to O7)

The argument of a command is a `Field`: a reader and a writer that undo each other. Both round trips of whole commands
(O1, O2) are these two facts at each command id. That a truncated command is refused (O3) follows from the round trips:
what it decodes to would be the command itself, with bytes left over. -/

namespace Sys2Proof

/-- A reader and a writer of a command's argument (R91 to R94) that undo each other on the values that fit. -/
structure Field (α : Type) where
  take : List Byte → Option (α × List Byte)
  bytes : α → List Byte
  fits : α → Bool
  take_bytes : ∀ v rest, fits v = true → take (bytes v ++ rest) = some (v, rest)
  take_some : ∀ bs v rest, take bs = some (v, rest) → fits v = true ∧ bs = bytes v ++ rest

namespace Field

/-- A u8 argument. -/
def u8 : Field Byte where
  take := takeU8
  bytes v := [v]
  fits _ := true
  take_bytes _ _ _ := rfl
  take_some _ _ _ h := ⟨rfl, takeU8_some h⟩

/-- A u16 argument. -/
def u16 : Field Word16 where
  take := takeU16
  bytes := bytesOfU16
  fits _ := true
  take_bytes v rest _ := takeU16_bytes v rest
  take_some _ _ _ h := ⟨rfl, takeU16_some h⟩

/-- A u32 argument. -/
def u32 : Field Word32 where
  take := takeU32
  bytes := bytesOfU32
  fits _ := true
  take_bytes v rest _ := takeU32_bytes v rest
  take_some _ _ _ h := ⟨rfl, takeU32_some h⟩

/-- The arguments of HUDI_WRITE_ASERAM. -/
def segment : Field Segment where
  take := takeSegment
  bytes := bytesOfSegment
  fits := Segment.wellFormed
  take_bytes := takeSegment_bytes
  take_some _ _ _ h := takeSegment_some h

/-- The argument of HUDI_LOAD_TABLE. -/
def table : Field (Option OverlayTable) where
  take := takeTable
  bytes := bytesOfTable
  fits t := (Instr.hudiLoadTable t).wellFormed
  take_bytes := takeTable_bytes
  take_some _ _ _ h := takeTable_some h

/-- The arguments of HUDI_START_OVERLAY. -/
def startArgs : Field (Byte × List Word32) where
  take := takeStart
  bytes a := a.1 :: bytesOfCounted a.2
  fits a := fitsU16 a.2
  take_bytes a rest h := by simp only [takeStart, List.cons_append, takeU8_cons, takeCountedU32s_bytes a.2 rest h]
  take_some bs a rest h := by
    unfold takeStart at h
    split at h
    · cases h
    · rename_i id bs₁ hid
      split at h
      · cases h
      · rename_i payload bs₂ hpayload
        cases h
        obtain ⟨fits, rfl⟩ := takeCountedU32s_some hpayload
        exact ⟨fits, takeU8_some hid⟩

/-- The arguments of FLASH_PROGRAM. -/
def twoU32 : Field (Word32 × Word32) where
  take := takeTwoU32
  bytes a := bytesOfU32 a.1 ++ bytesOfU32 a.2
  fits _ := true
  take_bytes a rest _ := by simp only [takeTwoU32, List.append_assoc, takeU32_bytes]
  take_some bs a rest h := by
    unfold takeTwoU32 at h
    split at h
    · cases h
    · rename_i addr bs₁ haddr
      split at h
      · cases h
      · rename_i data bs₂ hdata
        cases h
        rw [takeU32_some haddr, takeU32_some hdata, List.append_assoc]
        exact ⟨rfl, rfl⟩

variable {α : Type} {mk : α → Instr} {cmd : Byte}

/-- A command whose id is followed by one field is decoded when the field's value fits. -/
theorem decode_encode (f : Field α) {i : Instr} {v : α} (henc : encode i = cmd :: f.bytes v)
    (hargs : ∀ bs, decodeArgs cmd bs = withField (f.take bs) mk) (hmk : mk v = i) (hfits : f.fits v = true)
    (rest : List Byte) : decode (encode i ++ rest) = .ok (i, rest) := by
  rw [henc, ← hmk]
  calc decode (cmd :: f.bytes v ++ rest)
    _ = withField (f.take (f.bytes v ++ rest)) mk := hargs _
    _ = .ok (mk v, rest) := by rw [f.take_bytes v rest hfits]; rfl

/-- What the reader of such a command accepts is that command's bytes. -/
theorem encode_of_accepted (f : Field α) {bs rest : List Byte} {i : Instr}
    (h : withField (f.take bs) mk = .ok (i, rest)) (hwf : ∀ v, f.fits v = true → (mk v).wellFormed = true)
    (henc : ∀ v, encode (mk v) = cmd :: f.bytes v) :
    i.wellFormed = true ∧ cmd :: bs = encode i ++ rest := by
  obtain ⟨v, hv, rfl⟩ := withField_ok h
  obtain ⟨fits, rfl⟩ := f.take_some bs v rest hv
  exact ⟨hwf v fits, by rw [henc]; rfl⟩

end Field

/-- R90 to R94, one command at a time: an id alone, an id and an opcode, or an id and a field. -/
theorem decode_encode (i : Instr) (rest : List Byte) (hwf : i.wellFormed = true) :
    decode (encode i ++ rest) = .ok (i, rest) := by
  cases i with
  | tmcResetBypass | hudiLoadOverlay => exact Field.u8.decode_encode rfl (fun _ => rfl) rfl rfl rest
  | tmcSetPadding | flashAutodetect => exact Field.u16.decode_encode rfl (fun _ => rfl) rfl rfl rest
  | tmcReadDeviceId | hudiWriteData | flashPrintInfo | flashEraseBlock | flashUnlockBlock | flashReadArray | dsuPeek =>
    exact Field.u32.decode_encode rfl (fun _ => rfl) rfl rfl rest
  | hudiWriteAseram boot words =>
    exact Field.segment.decode_encode (cmd := 0x15) (v := ⟨boot, words⟩) rfl (fun _ => rfl) rfl hwf rest
  | hudiStartOverlay id payload =>
    exact Field.startArgs.decode_encode (cmd := 0x17) (v := (id, payload)) rfl (fun _ => rfl) rfl hwf rest
  | hudiLoadTable t => exact Field.table.decode_encode rfl (fun _ => rfl) rfl hwf rest
  | flashProgram addr data => exact Field.twoU32.decode_encode (cmd := 0x24) (v := (addr, data)) rfl (fun _ => rfl) rfl rfl rest
  | _ => rfl

/-! ### The other direction -/

theorem byte_eq_of_toNat {b : Byte} {n : Nat} (h : b.toNat = n) : b = BitVec.ofNat 8 n := by
  rw [← h, BitVec.ofNat_toNat, BitVec.setWidth_eq]

/-- R95: an id that is none of R92's is refused. -/
theorem decodeArgs_reserved {c : Byte} (hc : c ∉ Machine.commandIds) (bs : List Byte) :
    decodeArgs c bs = .error .badCommand := by
  unfold decodeArgs
  split
  case h_34 => rfl
  all_goals
    rename_i hid
    rw [byte_eq_of_toNat hid] at hc
    exact absurd (by decide) hc

/-- R98: an opcode that has a command is that command's. -/
theorem encode_of_sdirOfOpcode {op : Byte} {i : Instr} (h : sdirOfOpcode op = .ok i) :
    i.wellFormed = true ∧ encode i = [0x10, op] := by
  unfold sdirOfOpcode at h
  split at h
  case h_14 => cases h
  all_goals
    rename_i hop
    cases h
    exact ⟨rfl, by rw [byte_eq_of_toNat hop]; rfl⟩

/-- R165: an opcode that is none of R98's is refused. -/
theorem sdirOfOpcode_reserved {op : Byte} (hop : op ∉ Machine.sdirOpcodes) :
    sdirOfOpcode op = .error .badOpcode := by
  unfold sdirOfOpcode
  split
  case h_14 => rfl
  all_goals
    rename_i h
    rw [byte_eq_of_toNat h] at hop
    exact absurd (by decide) hop

/-- HUDI_SDIR's id is followed by one of R98's opcodes (R165). -/
theorem encode_of_decodeSdir {bs rest : List Byte} {i : Instr} (h : decodeArgs 0x10 bs = .ok (i, rest)) :
    i.wellFormed = true ∧ 0x10 :: bs = encode i ++ rest := by
  cases bs with
  | nil => cases h
  | cons op bs =>
    replace h : decodeSdir (op :: bs) = .ok (i, rest) := h
    simp only [decodeSdir, takeU8_cons] at h
    split at h
    · rename_i j hop
      cases h
      obtain ⟨wf, bytes⟩ := encode_of_sdirOfOpcode hop
      exact ⟨wf, by rw [bytes]; rfl⟩
    · cases h

/-- A command without an argument is its id. -/
theorem encode_of_bare {c : Byte} {bs rest : List Byte} {i j : Instr} (h : decodeArgs c bs = .ok (i, rest))
    (hargs : decodeArgs c bs = .ok (j, bs)) (hwf : j.wellFormed = true) (henc : encode j = [c]) :
    i.wellFormed = true ∧ c :: bs = encode i ++ rest := by
  cases h.symm.trans hargs
  exact ⟨hwf, by rw [henc]; rfl⟩

/-- R90 to R95, one command id at a time, in the order of `commandIds`. -/
theorem encode_of_decode {bytes rest : List Byte} {i : Instr} (h : decode bytes = .ok (i, rest)) :
    i.wellFormed = true ∧ bytes = encode i ++ rest := by
  cases bytes with
  | nil => cases h
  | cons c bs =>
    replace h : decodeArgs c bs = .ok (i, rest) := h
    have hc : c ∈ Machine.commandIds := by
      by_contra hc
      rw [decodeArgs_reserved hc] at h
      cases h
    simp only [Machine.commandIds, List.mem_cons, List.not_mem_nil, or_false] at hc
    rcases hc with rfl | rfl | rfl | rfl | rfl | rfl | rfl | rfl | rfl | rfl | rfl | rfl | rfl | rfl | rfl | rfl | rfl
      | rfl | rfl | rfl | rfl | rfl | rfl | rfl | rfl | rfl | rfl | rfl | rfl | rfl | rfl | rfl | rfl
    · exact Field.u8.encode_of_accepted h (fun _ _ => rfl) fun _ => rfl
    · exact Field.u32.encode_of_accepted h (fun _ _ => rfl) fun _ => rfl
    · exact encode_of_bare h rfl rfl rfl
    · exact Field.u16.encode_of_accepted h (fun _ _ => rfl) fun _ => rfl
    · exact encode_of_bare h rfl rfl rfl
    · exact encode_of_decodeSdir h
    · exact encode_of_bare h rfl rfl rfl
    · exact Field.u32.encode_of_accepted h (fun _ _ => rfl) fun _ => rfl
    · exact encode_of_bare h rfl rfl rfl
    · exact encode_of_bare h rfl rfl rfl
    · exact Field.segment.encode_of_accepted h (fun _ fits => fits) fun _ => rfl
    · exact Field.u8.encode_of_accepted h (fun _ _ => rfl) fun _ => rfl
    · exact Field.startArgs.encode_of_accepted h (fun _ fits => fits) fun _ => rfl
    · exact encode_of_bare h rfl rfl rfl
    · exact encode_of_bare h rfl rfl rfl
    · exact encode_of_bare h rfl rfl rfl
    · exact encode_of_bare h rfl rfl rfl
    · exact encode_of_bare h rfl rfl rfl
    · exact encode_of_bare h rfl rfl rfl
    · exact Field.table.encode_of_accepted h (fun _ fits => fits) fun _ => rfl
    · exact encode_of_bare h rfl rfl rfl
    · exact Field.u16.encode_of_accepted h (fun _ _ => rfl) fun _ => rfl
    · exact Field.u32.encode_of_accepted h (fun _ _ => rfl) fun _ => rfl
    · exact Field.u32.encode_of_accepted h (fun _ _ => rfl) fun _ => rfl
    · exact Field.u32.encode_of_accepted h (fun _ _ => rfl) fun _ => rfl
    · exact Field.twoU32.encode_of_accepted h (fun _ _ => rfl) fun _ => rfl
    · exact Field.u32.encode_of_accepted h (fun _ _ => rfl) fun _ => rfl
    · exact Field.u32.encode_of_accepted h (fun _ _ => rfl) fun _ => rfl
    · exact encode_of_bare h rfl rfl rfl
    · exact encode_of_bare h rfl rfl rfl
    · exact encode_of_bare h rfl rfl rfl
    · exact encode_of_bare h rfl rfl rfl
    · exact encode_of_bare h rfl rfl rfl

/-! ### Length, and shorter strings (R93) -/

@[simp] theorem length_bytesOfU16 (v : Word16) : (bytesOfU16 v).length = 2 := rfl

@[simp] theorem length_bytesOfU32 (v : Word32) : (bytesOfU32 v).length = 4 := rfl

@[simp] theorem length_bytesOfCounted (words : List Word32) : (bytesOfCounted words).length = 2 + 4 * words.length := by
  simp [bytesOfCounted, List.length_flatMap, Nat.mul_comm]

@[simp] theorem length_bytesOfSegment (g : Segment) : (bytesOfSegment g).length = 4 + 2 + 4 * g.code.length := by
  simp [bytesOfSegment]
  omega

@[simp] theorem length_bytesOfEntry (segs : List Segment) :
    (bytesOfEntry segs).length = 1 + (segs.map fun g => 4 + 2 + 4 * g.code.length).sum := by
  simp [bytesOfEntry, List.length_flatMap, Nat.add_comm]

theorem length_encode (i : Instr) : (encode i).length = i.byteLength := by
  cases i with
  | hudiWriteAseram boot words => simp [encode, Instr.byteLength]; omega
  | hudiStartOverlay id payload => simp [encode, Instr.byteLength]; omega
  | hudiLoadTable t =>
    cases t with
    | none => rfl
    | some t => simp [encode, bytesOfTable, Instr.byteLength, List.length_flatMap]; omega
  | _ => rfl

theorem withField_ne_badOpcode {α : Type} (field : Option (α × List Byte)) (mk : α → Instr) :
    withField field mk ≠ .error .badOpcode := by
  cases field <;> simp [withField]

/-- R165: only HUDI_SDIR with a reserved opcode is answered BAD_OPCODE. -/
theorem decode_badOpcode {bytes : List Byte} (h : decode bytes = .error .badOpcode) :
    ∃ op bs, bytes = 0x10 :: op :: bs ∧ sdirOfOpcode op = .error .badOpcode := by
  cases bytes with
  | nil => cases h
  | cons c bs =>
    replace h : decodeArgs c bs = .error .badOpcode := h
    unfold decodeArgs at h
    split at h
    case h_6 hc =>
      obtain rfl := byte_eq_of_toNat hc
      cases bs with
      | nil => cases h
      | cons op bs =>
        refine ⟨op, bs, rfl, ?_⟩
        simp only [decodeSdir, takeU8_cons] at h
        split at h
        · cases h
        · rename_i e hop
          cases h
          exact hop
    all_goals simp [withField_ne_badOpcode] at h

/-- R165 (D29): the opcode is refused whatever follows it. -/
theorem decode_sdir_reserved {op : Byte} (hop : sdirOfOpcode op = .error .badOpcode) (bs : List Byte) :
    decode (0x10 :: op :: bs) = .error .badOpcode := by
  change decodeSdir (op :: bs) = _
  simp only [decodeSdir, takeU8_cons, hop]

/-- R93: a command cut short is refused. What it decoded to would, by the round trips, be the command itself with bytes
left over, or make the whole command a reserved opcode. -/
theorem decode_take_encode {i : Instr} (hwf : i.wellFormed = true) {n : Nat} (hn : n < i.byteLength) :
    decode ((encode i).take n) = .error .badCommand := by
  have whole : decode (encode i) = .ok (i, []) := by simpa using decode_encode i [] hwf
  have parts := List.take_append_drop n (encode i)
  cases h : decode ((encode i).take n) with
  | ok accepted =>
    obtain ⟨j, tail⟩ := accepted
    obtain ⟨wf, bytes⟩ := encode_of_decode h
    rw [bytes, List.append_assoc] at parts
    have left := decode_encode j (tail ++ (encode i).drop n) wf
    rw [parts, whole] at left
    have none : (encode i).drop n = [] := by cases h : tail ++ (encode i).drop n <;> simp_all
    rw [List.drop_eq_nil_iff, length_encode] at none
    omega
  | error e =>
    cases e with
    | badCommand => rfl
    | badOpcode =>
      obtain ⟨op, bs, bytes, hop⟩ := decode_badOpcode h
      rw [bytes] at parts
      rw [← parts, List.cons_append, List.cons_append, decode_sdir_reserved hop] at whole
      cases whole

/-- R94: a `valid` byte other than 0 and 1 makes no table. -/
theorem decode_bad_valid {v : Byte} (h0 : v ≠ 0) (h1 : v ≠ 1) (bs : List Byte) :
    decode (0x1E :: v :: bs) = .error .badCommand := by
  have none : takeTable (v :: bs) = none := by
    simp only [takeTable, takeU8_cons]
    split
    · rename_i hv
      exact absurd (byte_eq_of_toNat hv) h0
    · rename_i hv
      exact absurd (byte_eq_of_toNat hv) h1
    · rfl
  change withField (takeTable (v :: bs)) .hudiLoadTable = _
  rw [none]
  rfl

/-! ### The rows of the opcode table (R109) -/

/-- A command of each row. -/
def rowCommands : List Instr :=
  [.tmcResetBypass 0, .tmcReadDeviceId 0, .tmcReadChipId, .tmcSetPadding 0, .tmcTeardown, .sdirExtest,
   .sdirSamplePreload, .sdirIsrStart, .sdirIsrEnd, .sdirTdoTimingChange, .sdirWaitCancel, .sdirAseramWrite,
   .sdirResetNegate, .sdirResetAssert, .sdirBoot, .sdirInterrupt, .sdirBreak, .sdirBypass, .hudiReadData,
   .hudiWriteData 0, .hudiInitialState, .hudiReadInternalStatus, .hudiWriteAseram 0 [], .hudiLoadOverlay 0,
   .hudiStartOverlay 0 [], .hudiAttach, .hudiDetach, .hudiServiceAsemode, .hudiWaitAsemode, .hudiInitAsemode,
   .hudiInterruptTarget, .hudiLoadTable none, .hudiTeardown, .flashAutodetect 0, .flashPrintInfo 0, .flashEraseBlock 0,
   .flashUnlockBlock 0, .flashProgram 0 0, .flashReadArray 0, .dsuPeek 0, .dsuDbreak, .dsuDpoke, .dsuFlush, .dsuIbreak,
   .dsuTeardown]

/-- A command's row does not depend on its arguments. -/
theorem exists_rowCommand (i : Instr) :
    ∃ r ∈ rowCommands, r.rowMask = i.rowMask ∧ r.rowMatch = i.rowMatch ∧ r.mnemonic = i.mnemonic := by
  have found : ∃ r, rowCommands.find? (fun r => r.rowMatch == i.rowMatch) = some r
      ∧ r.rowMask = i.rowMask ∧ r.rowMatch = i.rowMatch ∧ r.mnemonic = i.mnemonic := by
    cases i <;> exact ⟨_, rfl, rfl, rfl, rfl⟩
  obtain ⟨r, hr, row⟩ := found
  exact ⟨r, List.mem_of_find?_eq_some hr, row⟩

/-- Where two rows' masks overlap, their matches differ, but for a row and itself. -/
theorem rowCommands_apart : ∀ r ∈ rowCommands, ∀ r' ∈ rowCommands,
    r.rowMatch &&& r'.rowMask = r'.rowMatch &&& r.rowMask → r = r' := by decide

end Sys2Proof

namespace Sys2Proof.Machine

/-- Settles O1: the round trip from commands. -/
theorem decodeEncodeAgree : Obligations.DecodeEncodeAgree := decode_encode

/-- Settles O2: the round trip from byte strings. -/
theorem decodeAcceptsOnlyEncodings : Obligations.DecodeAcceptsOnlyEncodings := fun _ _ _ => encode_of_decode

/-- Settles O3: the fields' lengths, and the refusal of what is cut short. -/
theorem lengthOfCommands : Obligations.LengthOfCommands :=
  fun i hwf => ⟨length_encode i, fun _ hn => decode_take_encode hwf hn⟩

/-- An idle sequencer takes a message that is no command off the port and answers its failure (R165, R318). -/
theorem step_refused {s : State} {msg : List Byte} {rest : List (List Byte)} {e : DecodeError}
    (hreset : s.resetReq = false) (hidle : s.seq = .idle) (hinbox : s.inbox = msg :: rest)
    (hmsg : decode msg = .error e) :
    step s = .next
      { s with inbox := rest, res := .fail (failKindOf e), results := s.results ++ [.fail (failKindOf e)] } := by
  simp [step, hreset, hidle, State.fetch, hinbox, hmsg, State.finish]

/-- Settles O4: each of the four shapes decodes to BAD_COMMAND. -/
theorem malformedMessagesRefused : Obligations.MalformedMessagesRefused := by
  unfold Obligations.MalformedMessagesRefused
  intro s msg rest hreset hidle hinbox hmalformed
  refine step_refused (e := .badCommand) hreset hidle hinbox ?_
  obtain rfl | ⟨c, bs, rfl, reserved⟩ | ⟨v, bs, rfl, h0, h1⟩ | ⟨i, n, hwf, hn, rfl⟩ := hmalformed
  · rfl
  · exact decodeArgs_reserved reserved bs
  · exact decode_bad_valid h0 h1 bs
  · exact decode_take_encode hwf hn

/-- Settles O5: such a message decodes to BAD_OPCODE. -/
theorem reservedOpcodesRefused : Obligations.ReservedOpcodesRefused := by
  unfold Obligations.ReservedOpcodesRefused
  intro s op bs rest hreset hidle hinbox hop
  exact step_refused hreset hidle hinbox (decode_sdir_reserved (sdirOfOpcode_reserved hop) bs)

/-- Settles O6: each word is evaluated. -/
theorem specWordsDecode : Obligations.SpecWordsDecode := by
  unfold Obligations.SpecWordsDecode
  decide

/-- Settles O7: a key that matches two rows matches the commands of `rowCommands` with those rows, which are then one. -/
theorem opcodeRowsDoNotOverlap : Obligations.OpcodeRowsDoNotOverlap := by
  unfold Obligations.OpcodeRowsDoNotOverlap
  intro i j key hi hj
  obtain ⟨r, hr, rmask, rmatch, rname⟩ := exists_rowCommand i
  obtain ⟨r', hr', rmask', rmatch', rname'⟩ := exists_rowCommand j
  have same : r = r' := by
    refine rowCommands_apart r hr r' hr' ?_
    rw [rmatch, rmatch', rmask, rmask', ← hi, ← hj, BitVec.and_assoc, BitVec.and_assoc, BitVec.and_comm i.rowMask]
  rw [← rname, ← rname', same]

end Sys2Proof.Machine

/-! # The step of the machine, its invariant, and the mode flags (O8 to O17, O29, O30)

A step is a reset, a refused message, or one step of a command; a step of a command settles a body and performs at most
one primitive. Each of these keeps `State.Sound`, the parts of `Inv` that do not speak of the running command, and leaves
a body of the command's own unit. -/

namespace Sys2Proof.Machine

/-! ### One step of the machine (R21, R340, R347) -/

theorem step_idle {s : State} {msg : List Byte} {rest : List (List Byte)} {i : Instr} {tail : List Byte}
    (hreset : s.resetReq = false) (hidle : s.seq = .idle) (hinbox : s.inbox = msg :: rest)
    (hmsg : decode msg = .ok (i, tail)) : step s = exec i { s with inbox := rest } := by
  simp [step, hreset, hidle, State.fetch, hinbox, hmsg]

theorem step_busy {s : State} {cmd : Instr} {k : Nat} {q : Prim} {rest : List MicroOp} {loc : Local}
    (hreset : s.resetReq = false) (hbusy : s.seq = .busy cmd k q rest loc) : step s = exec cmd s := by
  simp [step, hreset, hbusy]

theorem step_waiting {s : State} (hreset : s.resetReq = false) (hidle : s.seq = .idle) (hinbox : s.inbox = []) :
    step s = .next s := by
  simp [step, hreset, hidle, State.fetch, hinbox]

theorem step_reset {s : State} (hreset : s.resetReq = true) : step s = .next s.sequencerReset := by
  simp [step, hreset]

theorem Seq.busy_of_ne_idle {x : Seq} (h : x ≠ .idle) : ∃ cmd k q rest loc, x = .busy cmd k q rest loc := by
  cases x with
  | idle => exact absurd rfl h
  | busy cmd k q rest loc => exact ⟨cmd, k, q, rest, loc, rfl⟩

/-- What one step of the machine can be. -/
theorem step_cases (s : State) :
    (s.resetReq = true ∧ step s = .next s.sequencerReset)
      ∨ (∃ cmd k q rest loc, s.seq = .busy cmd k q rest loc ∧ step s = .next (execWith Config.params cmd s))
      ∨ step s = .next s
      ∨ (∃ i inbox, i.wellFormed = true ∧ step s = .next (execWith Config.params i { s with inbox }))
      ∨ ∃ inbox r, step s = .next (State.finish { s with inbox } r) := by
  by_cases hreset : s.resetReq = true
  · exact .inl ⟨hreset, step_reset hreset⟩
  rw [Bool.not_eq_true] at hreset
  by_cases hidle : s.seq = .idle
  · by_cases hinbox : s.inbox = []
    · exact .inr (.inr (.inl (step_waiting hreset hidle hinbox)))
    obtain ⟨msg, inbox, hinbox⟩ := List.exists_cons_of_ne_nil hinbox
    cases hmsg : decode msg with
    | ok accepted =>
      obtain ⟨i, tail⟩ := accepted
      refine .inr (.inr (.inr (.inl ⟨i, inbox, (encode_of_decode hmsg).1, ?_⟩)))
      rw [step_idle hreset hidle hinbox hmsg, exec_eq]
    | error e =>
      refine .inr (.inr (.inr (.inr ⟨inbox, .fail (failKindOf e), ?_⟩)))
      rw [step_refused hreset hidle hinbox hmsg, hidle]
      rfl
  · obtain ⟨cmd, k, q, rest, loc, hbusy⟩ := Seq.busy_of_ne_idle hidle
    exact .inr (.inl ⟨cmd, k, q, rest, loc, hbusy, by rw [step_busy hreset hbusy, exec_eq]⟩)

/-- A step of a running command leaves the host port alone (R347). -/
theorem execWith_busy_inbox (p : Params) {s : State} {cmd : Instr} {k : Nat} {q : Prim} {rest : List MicroOp}
    {loc : Local} (hbusy : s.seq = .busy cmd k q rest loc) (x : List (List Byte)) :
    execWith p cmd { s with inbox := x } = { execWith p cmd s with inbox := x } := by
  rw [execWith_busy p s hbusy, execWith_busy p { s with inbox := x } hbusy, advance_inbox]

theorem execWith_busy_keeps_inbox (p : Params) {s : State} {cmd : Instr} {k : Nat} {q : Prim} {rest : List MicroOp}
    {loc : Local} (hbusy : s.seq = .busy cmd k q rest loc) : (execWith p cmd s).inbox = s.inbox := by
  have h := congrArg State.inbox (execWith_busy_inbox p hbusy s.inbox)
  exact h

/-- Settles O8: every value is read off the reset state. -/
theorem resetStateValues : Obligations.ResetStateValues := by
  unfold Obligations.ResetStateValues
  decide

/-- Settles O11. -/
theorem stepRunsDecodedCommand : Obligations.StepRunsDecodedCommand := by
  unfold Obligations.StepRunsDecodedCommand
  intro s msg rest i tail
  exact step_idle

/-- Settles O12. -/
theorem stepContinuesRunningCommand : Obligations.StepContinuesRunningCommand := by
  unfold Obligations.StepContinuesRunningCommand
  intro s cmd k q rest loc hreset hbusy
  exact ⟨step_busy hreset hbusy, _, exec_eq cmd s, execWith_busy_keeps_inbox _ hbusy⟩

/-- Settles O13: the state a reset leaves is `State.reset` but for the ports' history. -/
theorem sequencerResetTaken : Obligations.SequencerResetTaken := by
  unfold Obligations.SequencerResetTaken
  intro s hreset
  have hovl : ∀ id : Fin 27, s.sequencerReset.ovl[id] = [] := by
    intro id
    simp [State.sequencerReset, State.reset, OverlayTable.empty]
  exact ⟨_, step_reset hreset, rfl, rfl, rfl, rfl, rfl, rfl, rfl, rfl, rfl, hovl, rfl, rfl, rfl, rfl, rfl, rfl⟩

/-- Settles O14. -/
theorem idleSequencerWaits : Obligations.IdleSequencerWaits := by
  unfold Obligations.IdleSequencerWaits
  intro s
  exact step_waiting

/-- Settles O15: a running command's step neither reads nor writes the port. -/
theorem commandWhileBusyIsHeld : Obligations.CommandWhileBusyIsHeld := by
  unfold Obligations.CommandWhileBusyIsHeld
  intro s cmd k q rest loc hbusy
  refine ⟨fun hreset msg => ⟨_, (step_busy hreset hbusy).trans (exec_eq cmd s), execWith_busy_keeps_inbox _ hbusy, ?_⟩,
    fun i hi => ?_⟩
  · rw [step_busy (s := { s with inbox := s.inbox ++ [msg] }) hreset hbusy, exec_eq, execWith_busy_inbox _ hbusy]
  · rw [exec_eq, execWith_held _ s hbusy (Ne.symm hi)]
    rfl

/-- Settles O16: each kind of step has a next state. -/
theorem everyStepHasNext : Obligations.EveryStepHasNext := by
  unfold Obligations.EveryStepHasNext
  intro s
  rcases step_cases s with ⟨-, h⟩ | ⟨_, _, _, _, _, -, h⟩ | h | ⟨_, _, -, h⟩ | ⟨_, _, h⟩ <;> exact ⟨_, h⟩

/-- Settles O17: `advance_cases` lists what a running step leaves, and all but the wait emit one event. -/
theorem runningStepEmitsOneEvent : Obligations.RunningStepEmitsOneEvent := by
  unfold Obligations.RunningStepEmitsOneEvent
  intro s cmd k q rest loc hbusy
  refine ⟨?_, fun hq => ?_⟩
  · rintro rfl
    rw [exec_eq, execWith_busWait _ cmd k rest loc s hbusy]
  · obtain ⟨e, he⟩ := q.events_one Config.params s hq
    obtain ⟨-, res, results, -⟩ := q.state_frame Config.params s
    have trace := he ▸ q.state_trace Config.params s
    obtain ⟨id, -, ⟨r, h⟩ | ⟨k', q', rest', loc', h, next⟩⟩ := advance_cases Config.params cmd k q rest loc s
    all_goals
      rw [exec_eq, execWith_busy _ s hbusy, h]
      refine ⟨_, e, rfl, trace, ?_⟩
    · exact .inl ⟨rfl, congrArg (· ++ [r]) results⟩
    · refine .inr ⟨results, res, k', q', rest', loc', rfl, ?_⟩
      rcases next with hk | ⟨hk, hq', -, ⟨wait, -⟩ | poll⟩ | ⟨hk, hq', -, access⟩
      · exact .inl hk
      · exact absurd wait hq
      · exact .inr (.inl ⟨hk, hq', poll⟩)
      · exact .inr (.inr ⟨hk, hq', access⟩)

end Sys2Proof.Machine

/-! # Every step keeps the invariant (O9, O10)

`Inv` is `State.Sound`, which does not speak of the running command, and that the running command's body is its unit's.
Each piece of a step keeps the first and yields the second. -/

namespace Sys2Proof.Machine

/-- The parts of `Inv` that do not speak of the running command. -/
def State.Sound (s : State) : Prop :=
  (s.locked = true → s.mode = true)
  ∧ (s.curOvl ≠ 0 → s.ovl[s.curOvl] ≠ [])
  ∧ s.ovl.wellFormed = true
  ∧ (s.driver = .none ∨ s.driver.bus? = some Config.params.busWidth)
  ∧ ∀ e ∈ s.trace, e.allowed Config.params

/-- What is left of a running command belongs to its unit (R21). -/
def State.RunsWithinUnit (s : State) : Prop :=
  ∀ cmd k q rest loc, s.seq = .busy cmd k q rest loc →
    q.allowed Config.params (unitOf cmd) ∧ ∀ op ∈ rest, op.allowed Config.params s.ovl (unitOf cmd)

theorem inv_iff (s : State) : Inv s ↔ s.Sound ∧ s.RunsWithinUnit :=
  ⟨fun h => ⟨⟨h.locked_mode, h.current_loaded, h.table_wellFormed, h.driver_width, h.trace_widths⟩, h.running⟩,
    fun ⟨⟨locked, current, table, driver, widths⟩, running⟩ => ⟨locked, current, table, driver, running, widths⟩⟩

theorem State.Sound.inv_of_idle {s : State} (h : s.Sound) (hidle : s.seq = .idle) : Inv s := by
  refine (inv_iff s).mpr ⟨h, fun cmd k q rest loc hbusy => ?_⟩
  rw [hidle] at hbusy
  cases hbusy

theorem State.Sound.inv_of_busy {s : State} (h : s.Sound) {cmd : Instr} {k : Nat} {q : Prim} {rest : List MicroOp}
    {loc : Local} (hq : q.allowed Config.params (unitOf cmd))
    (hrest : ∀ op ∈ rest, op.allowed Config.params s.ovl (unitOf cmd)) :
    Inv { s with seq := .busy cmd k q rest loc } := by
  refine (inv_iff _).mpr ⟨h, fun cmd' k' q' rest' loc' hbusy => ?_⟩
  cases hbusy
  exact ⟨hq, hrest⟩

/-- Ending a command writes the position and the results, of which `Sound` does not speak. -/
theorem State.Sound.finish {s : State} (h : s.Sound) (r : Result) : Inv (s.finish r) :=
  State.Sound.inv_of_idle (s := s.finish r) h rfl

/-- Making an overlay current whose entry is not EMPTY (R205). -/
theorem State.Sound.setCurrent {s : State} (h : s.Sound) {u : UnitName} {id : Fin 27}
    (hid : id = s.curOvl ∨ (u = .hudi ∧ s.ovl[id] ≠ [])) : State.Sound { s with curOvl := id } := by
  obtain rfl | ⟨-, loaded⟩ := hid
  · exact h
  · obtain ⟨locked, -, rest⟩ := h
    exact ⟨locked, fun _ => loaded, rest⟩

theorem State.Sound.prim {s : State} (h : s.Sound) {u : UnitName} {q : Prim} (hq : q.allowed Config.params u) :
    (q.state Config.params s).Sound := by
  obtain ⟨locked, current, table, driver, widths⟩ := h
  obtain ⟨-, -, -, -, -, -, ovl, cur, drv, -⟩ := q.state_frame Config.params s
  refine ⟨q.state_locked_mode Config.params s locked, ?_, ?_, ?_, fun e he => ?_⟩
  · simpa only [ovl, cur] using current
  · rwa [ovl]
  · rwa [drv]
  · rw [Prim.state_trace] at he
    exact (List.mem_append.mp he).elim (widths e) (Prim.events_allowed s hq e)

/-- Settling a body of one unit leaves the command at its end, or at a primitive of that unit. -/
theorem State.Sound.pause_settle {s : State} (h : s.Sound) (cmd : Instr) (k : Nat) (loc : Local) {ops : List MicroOp}
    (hops : ∀ op ∈ ops, op.allowed Config.params s.ovl (unitOf cmd)) :
    Inv (pause Config.params cmd k (settle Config.params s loc ops)) := by
  obtain ⟨id, hid, ⟨loc', ended⟩ | ⟨kind, failed⟩ | ⟨loc', q, rest, ready, hq, hrest⟩⟩ :=
    settle_allowed Config.params (unitOf cmd) ops s loc hops
  · rw [ended]
    exact (h.setCurrent hid).finish _
  · rw [failed]
    exact (h.setCurrent hid).finish _
  · rw [ready]
    exact (h.setCurrent hid).inv_of_busy hq hrest

/-- A bus access is the flash unit's, and so is the wait for it. -/
theorem Prim.busWait_allowed {p : Params} {u : UnitName} {q : Prim} {bus : BusWidth} {addr : Word32}
    (h : q.allowed p u) (hq : q = .memRead bus addr ∨ q = .pollReady bus addr ∨ ∃ v, q = .memWrite bus addr v) :
    Prim.busWait.allowed p u := by
  obtain rfl | rfl | ⟨v, rfl⟩ := hq <;> exact h.1

/-- One primitive of a running command, and what is settled behind it. -/
theorem State.Sound.advance {s : State} (h : s.Sound) (cmd : Instr) (k : Nat) {q : Prim} {rest : List MicroOp}
    (loc : Local) (hq : q.allowed Config.params (unitOf cmd))
    (hrest : ∀ op ∈ rest, op.allowed Config.params s.ovl (unitOf cmd)) :
    Inv (advance Config.params cmd k q rest loc s) := by
  have after := h.prim hq
  obtain ⟨-, -, -, -, -, -, ovl, -⟩ := q.state_frame Config.params s
  rw [← ovl] at hrest
  have state := perform_state Config.params q s loc
  obtain ⟨-, waits⟩ := perform_after Config.params q s loc
  unfold Machine.advance
  rcases hp : perform Config.params q s loc with ⟨s', loc', place⟩
  rw [hp] at state waits
  obtain rfl : s' = _ := state
  cases place with
  | onward => exact after.pause_settle cmd (k + 1) loc' hrest
  | again => exact after.inv_of_busy hq hrest
  | waits =>
    obtain ⟨bus, addr, -, access⟩ := waits rfl
    exact after.inv_of_busy (Prim.busWait_allowed hq access) hrest

/-! ### What a body writes at its start -/

/-- Only HUDI_LOAD_TABLE replaces the table, and no other body makes an overlay current at its start. -/
theorem bodyOf_overlays (p : Params) (i : Instr) (s : State) (h : ∀ table, i ≠ .hudiLoadTable table) :
    (bodyOf i p s).state.curOvl = s.curOvl ∧ (bodyOf i p s).state.ovl = s.ovl := by
  by_cases hu : unitOf i = .hudi
  swap
  · obtain ⟨-, hudi, -⟩ := bodyOf_units p i s
    obtain ⟨-, -, -, cur, ovl⟩ := hudi hu
    exact ⟨cur, ovl⟩
  cases i with
  | hudiLoadTable table => exact absurd rfl (h table)
  | hudiLoadOverlay id | hudiStartOverlay id payload =>
    simp only [bodyOf, bodyHudiLoadOverlay, bodyHudiStartOverlay, Body.refuse]
    split <;> simp
  | hudiTeardown => exact ⟨rfl, rfl⟩
  | tmcResetBypass | tmcReadDeviceId | tmcReadChipId | tmcSetPadding | tmcTeardown | flashAutodetect | flashPrintInfo
  | flashEraseBlock | flashUnlockBlock | flashProgram | flashReadArray | dsuPeek | dsuDbreak | dsuDpoke | dsuFlush
  | dsuIbreak | dsuTeardown => cases hu
  | _ => exact ⟨s.hudiInit_curOvl, s.hudiInit_ovl⟩

/-- The driver a body leaves at its start: autodetect's has the platform's width (R258), no other body writes it. -/
theorem bodyOf_driver (p : Params) (i : Instr) (s : State) (h : s.driver = .none ∨ s.driver.bus? = some p.busWidth) :
    (bodyOf i p s).state.driver = .none ∨ (bodyOf i p s).state.driver.bus? = some p.busWidth := by
  by_cases hu : unitOf i = .flash
  swap
  · obtain ⟨-, -, flash, -⟩ := bodyOf_units p i s
    rwa [flash hu]
  have checked : ∀ body : BusWidth → Body, (∀ bus, (body bus).state = s) → (withDriver s body).state = s := by
    intro body hbody
    unfold withDriver
    split
    · rfl
    · exact hbody _
  cases i with
  | flashAutodetect cfiId =>
    simp only [bodyOf, bodyFlashAutodetect]
    split
    · rename_i d found
      have holds := List.find?_some found
      rw [Bool.and_eq_true, beq_iff_eq, beq_iff_eq] at holds
      exact .inr holds.2
    · exact .inl rfl
  | flashPrintInfo | flashEraseBlock | flashUnlockBlock | flashProgram | flashReadArray =>
    simp only [bodyOf, bodyFlashPrintInfo, bodyFlashEraseBlock, bodyFlashUnlockBlock, bodyFlashProgram,
      bodyFlashReadArray]
    rwa [checked _ fun _ => rfl]
  | _ => cases hu

theorem emptyTable_wellFormed : OverlayTable.empty.wellFormed = true := by decide

/-- A command the wire can carry starts from a sound state at a sound state. -/
theorem State.Sound.body {s : State} (h : s.Sound) {i : Instr} (hwf : i.wellFormed = true) :
    (bodyOf i Config.params s).state.Sound := by
  obtain ⟨locked, current, table, driver, widths⟩ := h
  obtain ⟨-, -, -, -, -, trace, hlocked, hmode, -⟩ := bodyOf_frame Config.params i s
  refine ⟨by rwa [hlocked, hmode], ?_, ?_, bodyOf_driver Config.params i s driver, by rwa [trace]⟩
  · by_cases hload : ∃ t, i = .hudiLoadTable t
    · obtain ⟨t, rfl⟩ := hload
      cases t <;> exact fun hcur => absurd rfl hcur
    · obtain ⟨cur, ovl⟩ := bodyOf_overlays Config.params i s (not_exists.mp hload)
      simpa only [cur, ovl] using current
  · by_cases hload : ∃ t, i = .hudiLoadTable t
    · obtain ⟨t, rfl⟩ := hload
      cases t with
      | none => exact emptyTable_wellFormed
      | some t => exact hwf
    · obtain ⟨-, ovl⟩ := bodyOf_overlays Config.params i s (not_exists.mp hload)
      rwa [ovl]

/-- The first step of a command. -/
theorem State.Sound.start {s : State} (h : s.Sound) {i : Instr} (hwf : i.wellFormed = true) :
    Inv (start Config.params i (bodyOf i Config.params s)) := by
  have body := h.body hwf
  obtain ⟨-, -, -, driver, -⟩ := h
  have allowed := bodyOf_allowed Config.params i s (bodyOf i Config.params s).state.ovl driver
  obtain ⟨id, hid, ⟨loc', ended⟩ | ⟨kind, failed⟩ | ⟨loc', q, rest, ready, hq, hrest⟩⟩ :=
    settle_allowed Config.params (unitOf i) _ _ (Local.start (bodyOf i Config.params s).fin) allowed
  all_goals
    have settled := body.setCurrent hid
    unfold Machine.start
  · rw [ended]
    exact settled.finish _
  · rw [failed]
    exact settled.finish _
  · rw [ready]
    exact settled.advance i 0 loc' hq hrest

/-- One step of a command the wire can carry. -/
theorem execWith_keeps_inv {s : State} (h : Inv s) {i : Instr} (hwf : s.seq = .idle → i.wellFormed = true) :
    Inv (execWith Config.params i s) := by
  obtain ⟨sound, running⟩ := (inv_iff s).mp h
  rcases execWith_cases Config.params i s with
    ⟨hidle, started⟩ | ⟨k, q, rest, loc, hbusy, advanced⟩ | ⟨cmd, k, q, rest, loc, -, -, held⟩
  · rw [started]
    exact sound.start (hwf hidle)
  · obtain ⟨hq, hrest⟩ := running i k q rest loc hbusy
    rw [advanced]
    exact sound.advance i k loc hq hrest
  · rw [held]
    exact (inv_iff _).mpr ⟨sound, running⟩

/-! ### The machine -/

/-- After a reset only what was issued before is left of a run. -/
theorem sequencerReset_inv {s : State} (h : s.Sound) : Inv s.sequencerReset := by
  obtain ⟨-, -, -, -, widths⟩ := h
  exact State.Sound.inv_of_idle ⟨nofun, fun hcur => absurd rfl hcur, emptyTable_wellFormed, .inl rfl, widths⟩ rfl

/-- Settles O9: no flag is set, no overlay current, no driver selected, and nothing issued. -/
theorem invHoldsAtReset : Obligations.InvHoldsAtReset :=
  State.Sound.inv_of_idle ⟨nofun, fun hcur => absurd rfl hcur, emptyTable_wellFormed, .inl rfl, nofun⟩ rfl

/-- Settles O10: each kind of step keeps the invariant. -/
theorem stepKeepsInv : Obligations.StepKeepsInv := by
  unfold Obligations.StepKeepsInv
  intro s t h hstep
  obtain ⟨sound, running⟩ := (inv_iff s).mp h
  have port : ∀ inbox, Inv { s with inbox } := fun _ => (inv_iff _).mpr ⟨sound, running⟩
  rcases step_cases s with
    ⟨-, reset⟩ | ⟨cmd, k, q, rest, loc, hbusy, ran⟩ | waits | ⟨i, inbox, hwf, ran⟩ | ⟨inbox, r, refused⟩
  · cases hstep.symm.trans reset
    exact sequencerReset_inv sound
  · cases hstep.symm.trans ran
    exact execWith_keeps_inv h fun hidle => by rw [hidle] at hbusy; cases hbusy
  · cases hstep.symm.trans waits
    exact h
  · cases hstep.symm.trans ran
    exact execWith_keeps_inv (port inbox) fun _ => hwf
  · cases hstep.symm.trans refused
    exact State.Sound.finish (s := { s with inbox }) sound r

end Sys2Proof.Machine

/-! # Who writes the mode flags, and what a HUDI command shifts (O29, O30)

A step of a command performs at most one primitive, and outside it writes neither the flags nor the trace
(`execWith_flags`), so who writes a flag is read off the primitives (R26 to R28). -/

namespace Sys2Proof.Machine

/-- The mode flags and the trace are the same. -/
def SameFlags (s t : State) : Prop :=
  t.locked = s.locked ∧ t.mode = s.mode ∧ t.savedMode = s.savedMode ∧ t.trace = s.trace

/-- A step of a running command writes the flags and the trace by its primitive alone. -/
theorem advance_flags (p : Params) (cmd : Instr) (k : Nat) (q : Prim) (rest : List MicroOp) (loc : Local) (s : State) :
    SameFlags (q.state p s) (advance p cmd k q rest loc s) := by
  obtain ⟨id, -, ⟨r, h⟩ | ⟨_, _, _, _, h, -⟩⟩ := advance_cases p cmd k q rest loc s
  all_goals
    rw [h]
    exact ⟨rfl, rfl, rfl, rfl⟩

/-- So does the first step of a command, and any step of one: it keeps them, or is one primitive as far as they go. -/
theorem execWith_flags (p : Params) (i : Instr) (s : State) :
    SameFlags s (execWith p i s) ∨ ∃ (s₀ : State) (q : Prim), SameFlags s s₀ ∧ SameFlags (q.state p s₀) (execWith p i s) := by
  rcases execWith_cases p i s with ⟨-, started⟩ | ⟨k, q, rest, loc, -, advanced⟩ | ⟨_, _, _, _, _, -, -, held⟩
  · obtain ⟨-, -, -, -, -, trace, locked, mode, saved⟩ := bodyOf_frame p i s
    obtain ⟨id, -, ⟨r, ended⟩ | ⟨q, rest, loc, -, performed⟩⟩ := start_cases p i (bodyOf i p s)
    · rw [started, ended]
      exact .inl ⟨locked, mode, saved, trace⟩
    · rw [started, performed]
      exact .inr ⟨{ (bodyOf i p s).state with curOvl := id }, q, ⟨locked, mode, saved, trace⟩, advance_flags ..⟩
  · rw [advanced]
    exact .inr ⟨s, q, ⟨rfl, rfl, rfl, rfl⟩, advance_flags ..⟩
  · rw [held]
    exact .inl ⟨rfl, rfl, rfl, rfl⟩

/-- `locked` and `saved_mode` are written by the SDIR writes of 0x20 and 0x21, and `saved_mode` by the first alone. -/
theorem Prim.state_lock (p : Params) (q : Prim) (s : State) :
    ((q.state p s).locked ≠ s.locked → q = .sdirWrite 0x20 ∨ q = .sdirWrite 0x21)
      ∧ ((q.state p s).savedMode ≠ s.savedMode → q = .sdirWrite 0x20) := by
  by_cases hq : ∃ op, q = .sdirWrite op
  · obtain ⟨op, rfl⟩ := hq
    simp only [Prim.state, perform, State.sdirWrite, modeUpdateIR_eq, Prim.sdirWrite.injEq]
    constructor
    · intro changed
      by_contra! other
      obtain ⟨not20, not21⟩ := other
      rw [if_neg not20, if_neg not21] at changed
      exact changed rfl
    · intro changed
      by_contra not20
      rw [if_neg not20] at changed
      exact changed rfl
  · obtain ⟨-, -, locked, saved⟩ := q.state_hudi p s (not_exists.mp hq)
    exact ⟨absurd locked, absurd saved⟩

/-- `mode` is written by SDIR writes, and by data writes when unlocked. -/
theorem Prim.mode_changed {p : Params} {q : Prim} {s : State} (h : (q.state p s).mode ≠ s.mode) :
    (∃ op, q = .sdirWrite op) ∨ (s.locked = false ∧ ∃ d, q = .dataWrite d) := by
  by_contra! other
  obtain ⟨noSdir, noData⟩ := other
  refine h (q.state_mode p s noSdir ?_)
  by_cases hl : s.locked = false
  · exact .inr (noData hl)
  · exact .inl (Bool.not_eq_false _ ▸ hl)

/-- No command of another unit changes a flag (R129). -/
theorem unit_of_flag_changed {s t : State} {i : Instr} (hinv : Inv s) (hexec : exec i s = .next t)
    (changed : t.locked ≠ s.locked ∨ t.savedMode ≠ s.savedMode ∨ t.mode ≠ s.mode) : unitOf i = .hudi := by
  by_contra hu
  obtain ⟨-, others, -⟩ := unitsAreIsolated s t i hinv hexec
  obtain ⟨-, -, -, locked, mode, saved, -⟩ := others hu
  rw [locked, mode, saved] at changed
  simp at changed

/-- Settles O29: by `execWith_flags` a flag that changes is written by a primitive, whose event is in the trace; that
the primitive is a HUDI command's is O24. -/
theorem modeFlagsChangeOnlyByHudiShifts : Obligations.ModeFlagsChangeOnlyByHudiShifts := by
  unfold Obligations.ModeFlagsChangeOnlyByHudiShifts
  intro s t i hexec
  have hudi := fun hinv => unit_of_flag_changed (t := t) hinv hexec
  obtain rfl : execWith Config.params i s = t := by simpa only [exec_eq, Host.Outcome.next.injEq] using hexec
  rcases execWith_flags Config.params i s with
    ⟨locked, mode, saved, -⟩ | ⟨s₀, q, ⟨locked₀, mode₀, saved₀, trace₀⟩, locked, mode, saved, trace⟩
  · exact ⟨absurd locked, absurd saved, absurd mode, hudi⟩
  · rw [Prim.state_trace, trace₀] at trace
    rw [locked, mode, saved, ← locked₀, ← mode₀, ← saved₀] at hudi ⊢
    rw [trace]
    obtain ⟨lock, save⟩ := q.state_lock Config.params s₀
    refine ⟨fun changed => ?_, fun changed => ?_, fun changed => ?_, hudi⟩
    · obtain rfl | rfl := lock changed
      · exact ⟨0x20, _, .inl rfl, rfl⟩
      · exact ⟨0x21, _, .inr rfl, rfl⟩
    · obtain rfl := save changed
      exact ⟨_, rfl⟩
    · obtain ⟨op, rfl⟩ | ⟨unlocked, d, rfl⟩ := Prim.mode_changed changed
      · exact .inl ⟨op, _, rfl⟩
      · exact .inr ⟨unlocked, d, _, rfl⟩

/-- Settles O30: the primitive a HUDI command's step performs is allowed in its unit, and of those only an SDIR write
shifts an instruction register. -/
theorem hudiSendsOnlyDefinedOpcodes : Obligations.HudiSendsOnlyDefinedOpcodes := by
  unfold Obligations.HudiSendsOnlyDefinedOpcodes
  intro s t i n v c hinv hu hexec htrace
  obtain rfl : execWith Config.params i s = t := by simpa only [exec_eq, Host.Outcome.next.injEq] using hexec
  obtain ⟨-, -, -, -, -, bodyTrace, -⟩ := bodyOf_frame Config.params i s
  have none : ∀ e : Event, s.trace ≠ s.trace ++ [e] := fun e h => by simp at h
  rcases execWith_shape Config.params i s hinv.driver_width fun k q rest loc hs => hinv.running i k q rest loc hs with
    ⟨held, -⟩ | ⟨id, res, -, -, ended⟩ | ⟨s₀, q, id, hs₀, hq, -, performed⟩
  · rw [held] at htrace
    exact absurd htrace (none _)
  · rw [ended] at htrace
    exact absurd (bodyTrace.symm.trans htrace) (none _)
  · have trace₀ : s₀.trace = s.trace := by
      obtain rfl | ⟨-, id₀, -, rfl⟩ := hs₀
      · rfl
      · exact bodyTrace
    have trace : (execWith Config.params i s).trace = s.trace ++ q.events Config.params s₀ := by
      rw [← trace₀, ← Prim.state_trace]
      obtain ⟨res, h⟩ | ⟨x, h⟩ := performed
      · rw [h, State.finish_trace]
      · rw [h]
    have event := List.append_cancel_left (htrace.symm.trans trace)
    rw [hu] at hq
    cases q with
    | sdirWrite op =>
      obtain ⟨-, hop⟩ := hq
      cases event
      exact ⟨rfl, by rwa [BitVec.setWidth_eq]⟩
    | tmcIR _ | tapIdle | rawSignal _ _ | busWait => cases hq
    | dsuIR _ | memRead _ _ | pollReady _ _ => cases hq.1
    | _ => cases event

end Sys2Proof.Machine

/-! # Draws and events as one update, and whole commands of primitives alone

`State.ran` is what a primitive does to the book of draws and the trace, in closed form, so that a run of primitives is
one `State.ran` and the registers they write. A body without a primitive ends in its first step; a body of plain
primitives ends after as many steps as it has (`execTimesWith_body`). -/

namespace Sys2Proof.Machine

/-! ### Draws and events -/

/-- The state once `n` draws are taken and the events `es` are in the trace. -/
def State.ran (s : State) (n : Nat) (es : List Event) : State :=
  { s with answers := s.answers.drop n, draws := s.draws + (n - s.answers.length), trace := s.trace ++ es }

theorem State.ran_eq (s : State) (n : Nat) (es : List Event) :
    s.ran n es = { State.drawnBy n s with trace := s.trace ++ es } := by
  rw [State.drawnBy_eq]
  rfl

theorem State.completed_eq (s : State) (n : Nat) (es : List Event) (r : Result) :
    s.completed n es r = (s.ran n es).finish r := by
  simp only [State.completed, State.drawnBy_eq]
  rfl

@[simp] theorem State.ran_zero (s : State) : s.ran 0 [] = s := by
  simp [State.ran]

@[simp] theorem State.ran_ran (s : State) (m n : Nat) (es fs : List Event) :
    (s.ran m es).ran n fs = s.ran (m + n) (es ++ fs) := by
  simp only [State.ran, List.drop_drop, List.length_drop, List.append_assoc]
  congr 1
  omega

theorem State.emit_eq_ran (s : State) (e : Event) : s.emit e = s.ran 0 [e] := by
  rw [State.ran_eq]
  rfl

theorem State.drawn_emit_eq_ran (s : State) (e : Event) : s.drawn.emit e = s.ran 1 [e] := by
  rw [State.ran_eq]
  rfl

/-- What will be answered depends on the book of draws alone. -/
theorem drawnBy_answer_congr {s t : State} (ha : t.answers = s.answers) (hd : t.draws = s.draws) (n w : Nat) :
    (State.drawnBy n t).answer w = (State.drawnBy n s).answer w := by
  rw [State.drawnBy_eq, State.drawnBy_eq]
  exact answer_congr (by simp only [ha]) (by simp only [ha, hd]) w

@[simp] theorem State.ran_answer (s : State) (n : Nat) (es : List Event) (w : Nat) :
    (s.ran n es).answer w = (State.drawnBy n s).answer w := by
  rw [State.ran_eq]
  rfl

theorem State.drawnBy_ran_answer (s : State) (m n : Nat) (es : List Event) (w : Nat) :
    (State.drawnBy n (s.ran m es)).answer w = (State.drawnBy (m + n) s).answer w := by
  rw [State.drawnBy_add]
  refine drawnBy_answer_congr ?_ ?_ n w <;> rw [State.ran_eq]

/-! ### What each primitive writes -/

@[simp] theorem Prim.state_tapTLR (p : Params) (s : State) : Prim.tapTLR.state p s = s.ran 0 [.tapTLR] :=
  s.emit_eq_ran _

@[simp] theorem Prim.state_tapIdle (p : Params) (s : State) : Prim.tapIdle.state p s = s.ran 0 [.tapIdle] :=
  s.emit_eq_ran _

@[simp] theorem Prim.state_delay (p : Params) (us : Nat) (s : State) :
    (Prim.delay us).state p s = s.ran 0 [.delay us] :=
  s.emit_eq_ran _

@[simp] theorem Prim.state_rawSignal (p : Params) (mask value : Nat) (s : State) :
    (Prim.rawSignal mask value).state p s = s.ran 1 [.rawSignal mask value (s.answer 1 == 1)] :=
  s.drawn_emit_eq_ran _

@[simp] theorem Prim.state_drWrite (p : Params) (sh : Shift) (s : State) :
    (Prim.drWrite sh).state p s = s.ran 1 [.tapDR sh.width sh.value (s.answer sh.width)] :=
  s.drawn_emit_eq_ran _

@[simp] theorem Prim.state_drRead (p : Params) (n : Nat) (s : State) :
    (Prim.drRead n).state p s = s.ran 1 [.tapDR n 0 (s.answer n)] :=
  s.drawn_emit_eq_ran _

@[simp] theorem Prim.state_memWrite (p : Params) (bus : BusWidth) (addr v : Word32) (s : State) :
    (Prim.memWrite bus addr v).state p s = s.ran 0 [.memWrite addr bus.bits (v.setWidth bus.bits)] :=
  s.emit_eq_ran _

theorem Prim.state_memRead_aligned (p : Params) {bus : BusWidth} {addr : Word32} (s : State)
    (h : aligned bus addr = true) :
    (Prim.memRead bus addr).state p s = s.ran 1 [.memRead addr bus.bits (s.answer bus.bits)] := by
  rw [Prim.state_memRead, s.memRead_aligned p bus addr h, ← State.drawn_emit_eq_ran]

/-- The TAP-Mux unit's pair holds what was shifted in and what was captured (R120). -/
def State.setTmcPair (s : State) (shifted captured : Word5) : State := { s with wir := shifted, rir := captured }

@[simp] theorem State.setTmcPair_ran (s : State) (v c : Word5) (n : Nat) (es : List Event) :
    (s.setTmcPair v c).ran n es = (s.ran n es).setTmcPair v c := rfl

@[simp] theorem State.setTmcPair_answer (s : State) (v c : Word5) (w : Nat) :
    (s.setTmcPair v c).answer w = s.answer w := rfl

@[simp] theorem Prim.state_tmcIR (p : Params) (v : Word5) (s : State) :
    (Prim.tmcIR v).state p s = (s.ran 1 [.tapIR 5 v (s.answer 5)]).setTmcPair v (s.answer 5) := by
  rw [← State.drawn_emit_eq_ran]
  rfl

/-- The DSU unit's pair holds what was shifted in and what was captured, zero-extended (R293). -/
def State.setDsuPair (s : State) (shifted captured : Word40) : State :=
  { s with dsuwir := shifted, dsurir := captured }

@[simp] theorem State.setDsuPair_ran (s : State) (v c : Word40) (n : Nat) (es : List Event) :
    (s.setDsuPair v c).ran n es = (s.ran n es).setDsuPair v c := rfl

@[simp] theorem State.setDsuPair_answer (s : State) (v c : Word40) (w : Nat) :
    (s.setDsuPair v c).answer w = s.answer w := rfl

@[simp] theorem Prim.state_dsuIR (p : Params) (pat : Shift) (s : State) :
    (Prim.dsuIR pat).state p s
      = (s.ran 1 [.tapIR pat.width pat.value (s.answer pat.width)]).setDsuPair (pat.value.setWidth 40)
          ((s.answer pat.width).setWidth 40) := by
  rw [← State.drawn_emit_eq_ran]
  rfl

/-- Lazy init takes no draw. -/
@[simp] theorem State.drawnBy_tmcInit_answer (s : State) (n w : Nat) :
    (State.drawnBy n s.tmcInit).answer w = (State.drawnBy n s).answer w :=
  drawnBy_answer_congr s.tmcInit_answers s.tmcInit_draws n w

@[simp] theorem State.tmcInit_answer (s : State) (w : Nat) : s.tmcInit.answer w = s.answer w :=
  s.drawnBy_tmcInit_answer 0 w

/-! ### What each primitive keeps for the result -/

/-- A captured word is kept in 40 bits, and cut back to its own width in the result (log entry 23). -/
@[simp] theorem setWidth_32_40 (w : Word32) : (w.setWidth 40).setWidth 32 = w :=
  BitVec.setWidth_setWidth_of_le w (by decide)

@[simp] theorem Prim.locals_tapTLR (p : Params) (s : State) (loc : Local) :
    Prim.tapTLR.locals p s loc = loc := rfl

@[simp] theorem Prim.locals_tapIdle (p : Params) (s : State) (loc : Local) :
    Prim.tapIdle.locals p s loc = loc := rfl

@[simp] theorem Prim.locals_tmcIR (p : Params) (v : Word5) (s : State) (loc : Local) :
    (Prim.tmcIR v).locals p s loc = loc := rfl

@[simp] theorem Prim.locals_sdirWrite (p : Params) (op : Byte) (s : State) (loc : Local) :
    (Prim.sdirWrite op).locals p s loc = loc := rfl

@[simp] theorem Prim.locals_dsuIR (p : Params) (pat : Shift) (s : State) (loc : Local) :
    (Prim.dsuIR pat).locals p s loc = loc := rfl

@[simp] theorem Prim.locals_drWrite (p : Params) (sh : Shift) (s : State) (loc : Local) :
    (Prim.drWrite sh).locals p s loc = loc := rfl

@[simp] theorem Prim.locals_dataWrite (p : Params) (d : Word32) (s : State) (loc : Local) :
    (Prim.dataWrite d).locals p s loc = loc := rfl

@[simp] theorem Prim.locals_rawSignal (p : Params) (mask value : Nat) (s : State) (loc : Local) :
    (Prim.rawSignal mask value).locals p s loc = loc := rfl

@[simp] theorem Prim.locals_delay (p : Params) (us : Nat) (s : State) (loc : Local) :
    (Prim.delay us).locals p s loc = loc := rfl

@[simp] theorem Prim.locals_memWrite (p : Params) (bus : BusWidth) (addr v : Word32) (s : State) (loc : Local) :
    (Prim.memWrite bus addr v).locals p s loc = loc := rfl

@[simp] theorem Prim.locals_drRead (p : Params) (n : Nat) (s : State) (loc : Local) :
    (Prim.drRead n).locals p s loc = { loc with caps := loc.caps ++ [(s.answer n).setWidth 40] } := rfl

theorem Prim.locals_memRead_aligned (p : Params) {bus : BusWidth} {addr : Word32} (s : State) (loc : Local)
    (h : aligned bus addr = true) :
    (Prim.memRead bus addr).locals p s loc = { loc with caps := loc.caps ++ [(s.answer bus.bits).setWidth 40] } := by
  simp only [Prim.locals, perform, s.memRead_aligned p bus addr h]
  rfl

/-- `return Ok(w)` after one capture of 32 bits. -/
theorem Local.result_word (p : Params) (w : Word32) :
    Local.result p { Local.start .word with caps := [w.setWidth 40] } = ⟨.ok, .zero, .word w⟩ := by
  simp [Local.result, Local.start, Local.cap, Result.ok]

/-! ### Whole commands -/

/-- A command whose body has no element ends in its first step. -/
theorem exec_bare {i : Instr} {s : State} {b : Body} (hidle : s.seq = .idle) (hb : bodyOf i Config.params s = b)
    (hops : b.ops = []) : exec i s = .next (b.state.finish ((Local.start b.fin).result Config.params)) := by
  rw [exec_eq, execWith_idle _ i s hidle, hb, start, hops]
  rfl

/-- A result returned with no event and no draw. -/
theorem State.completed_zero (s : State) (r : Result) : s.completed 0 [] r = s.finish r := by
  rw [State.completed_eq, State.ran_zero]

/-- A command that its argument check refuses changes nothing (R317). -/
theorem exec_refused {i : Instr} {s : State} {k : FailKind} (hidle : s.seq = .idle)
    (hb : bodyOf i Config.params s = Body.refuse s k) :
    exec i s = .next (s.completed 0 [] ⟨.fail, .kind k, .none⟩) := by
  rw [exec_bare hidle hb rfl, State.completed_zero]
  rfl

/-- A command whose body settles at plain primitives ends after them, with its body's result. -/
theorem execTimesWith_settled (p : Params) {i : Instr} {s s₀ : State} {loc₀ : Local} {q : Prim} {qs : List Prim}
    (hidle : s.seq = .idle)
    (hready : settle p (bodyOf i p s).state (Local.start (bodyOf i p s).fin) (bodyOf i p s).ops
      = .ready s₀ loc₀ q (qs.map .prim))
    (hplain : ∀ r ∈ q :: qs, r.plain = true) {t : State} {loc : Local}
    (hrun : runPrims p (q :: qs) (s₀, loc₀) = (t, loc)) :
    execTimesWith p (qs.length + 1) i s = t.finish (loc.result p) := by
  rw [execTimesWith_start p i s hidle q qs [] s₀ loc₀ (by rw [hready, List.append_nil]) hplain, hrun]
  rfl

/-- So does one whose body is plain primitives. -/
theorem execTimesWith_body (p : Params) {i : Instr} {s s₀ : State} {fin : Finish} {q : Prim} {qs : List Prim}
    (hidle : s.seq = .idle) (hb : bodyOf i p s = ⟨s₀, (q :: qs).map .prim, fin⟩)
    (hplain : ∀ r ∈ q :: qs, r.plain = true) {t : State} {loc : Local}
    (hrun : runPrims p (q :: qs) (s₀, Local.start fin) = (t, loc)) :
    execTimesWith p (qs.length + 1) i s = t.finish (loc.result p) :=
  execTimesWith_settled p hidle (by rw [hb]; rfl) hplain hrun

end Sys2Proof.Machine

/-! # The TAP-Mux unit (O18 to O23) -/

namespace Sys2Proof.Machine

/-- Settles O18: the channel check refuses. -/
theorem invalidChannelFails : Obligations.InvalidChannelFails := by
  unfold Obligations.InvalidChannelFails
  intro s ch hidle hch
  have none : channel? ch = none := dif_neg (by omega)
  refine exec_refused hidle ?_
  simp only [bodyOf, bodyTmcResetBypass, none]

/-- The primitives of RAW_SEQ (R122). -/
def rawPrims (raws : List RawStep) : List Prim :=
  raws.flatMap fun r => [.rawSignal r.mask r.value, .delay r.delayUs]

theorem rawPrims_plain (raws : List RawStep) : ∀ q ∈ rawPrims raws, q.plain = true := by
  intro q hq
  simp only [rawPrims, List.mem_flatMap, List.mem_cons, List.not_mem_nil, or_false] at hq
  obtain ⟨r, -, rfl | rfl⟩ := hq <;> rfl

theorem length_rawPrims (raws : List RawStep) : (rawPrims raws).length = 2 * raws.length := by
  simp [rawPrims, List.length_flatMap, Nat.mul_comm]

theorem rawEvents_congr {s t : State} (ha : t.answers = s.answers) (hd : t.draws = s.draws) (raws : List RawStep) :
    rawEvents t raws = rawEvents s raws := by
  induction raws generalizing s t with
  | nil => rfl
  | cons r raws ih =>
    have ha' : t.drawn.answers = s.drawn.answers := by simp only [State.drawn, ha]
    have hd' : t.drawn.draws = s.drawn.draws := by simp only [State.drawn, ha, hd]
    simp only [rawEvents, answer_congr ha hd, ih ha' hd']

/-- Each raw signal takes one draw, whatever its outcome, and is followed by its delay (R122, R123). -/
theorem runPrims_raw (p : Params) (raws : List RawStep) (s : State) (loc : Local) :
    runPrims p (rawPrims raws) (s, loc) = (s.ran raws.length (rawEvents s raws), loc) := by
  induction raws generalizing s with
  | nil => simp [rawPrims, runPrims, rawEvents]
  | cons r raws ih =>
    let e : Event := .rawSignal r.mask r.value (s.answer 1 == 1)
    have drawn : rawEvents (s.ran 1 [e, .delay r.delayUs]) raws = rawEvents s.drawn raws := by
      refine rawEvents_congr ?_ ?_ raws <;> rw [State.ran_eq] <;> rfl
    calc runPrims p (rawPrims (r :: raws)) (s, loc)
      _ = runPrims p (rawPrims raws) ((s.drawn.emit e).emit (.delay r.delayUs), loc) := rfl
      _ = runPrims p (rawPrims raws) (s.ran 1 [e, .delay r.delayUs], loc) := by
        rw [State.drawn_emit_eq_ran, State.emit_eq_ran, State.ran_ran]
        rfl
      _ = (s.ran (raws.length + 1) (rawEvents s (r :: raws)), loc) := by
        rw [ih, State.ran_ran, drawn, Nat.add_comm]
        rfl

/-- Settles O19: the body is `rawPrims`, or nothing where RAW_SEQ is empty. -/
theorem resetBypassRuns : Obligations.ResetBypassRuns := by
  unfold Obligations.ResetBypassRuns
  intro s c hidle raws
  refine ⟨rfl, ?_⟩
  have checked : channel? (BitVec.ofNat 8 c.val) = some c := by
    revert c
    decide
  have body : bodyOf (.tmcResetBypass (BitVec.ofNat 8 c.val)) Config.params s
      = ⟨s.tmcInit, (rawPrims raws).map .prim, .done⟩ := by
    simp only [bodyOf, bodyTmcResetBypass, checked, rawPrims, List.map_flatMap]
    rfl
  rw [execTimes_eq, State.completed_eq]
  have run := runPrims_raw Config.params raws s.tmcInit (Local.start .done)
  have init : rawEvents s.tmcInit raws = rawEvents s raws := rawEvents_congr s.tmcInit_answers s.tmcInit_draws raws
  have length := length_rawPrims raws
  have plain := rawPrims_plain raws
  rw [init] at run
  cases hprims : rawPrims raws with
  | nil =>
    obtain none : raws = [] := by simpa [hprims] using length
    have ended := exec_bare hidle body (by rw [hprims]; rfl)
    rw [exec_eq, State.tmcInit_eq] at ended
    rw [none, show rawEvents s [] = [] from rfl, List.length_nil, State.ran_zero]
    exact ended
  | cons q qs =>
    rw [hprims] at body run length plain
    have count : max 1 (2 * raws.length) = qs.length + 1 := by
      rw [← length, List.length_cons]
      omega
    rw [count, execTimesWith_body _ hidle body plain run, State.tmcInit_eq]
    rfl

/-- Settles O20: the run of the five primitives. -/
theorem readDeviceIdRuns : Obligations.ReadDeviceIdRuns := by
  unfold Obligations.ReadDeviceIdRuns
  intro s sel hidle w1 w2
  have run : runPrims Config.params
      [.tapIdle, .drWrite w1, .tmcIR Config.params.tmcIdcodeOp, .drRead 32, .drWrite w2] (s.tmcInit, Local.start .word)
      = ((s.tmcInit.ran 4 [.tapIdle, .tapDR w1.width w1.value (s.answer w1.width),
            .tapIR 5 Config.params.tmcIdcodeOp ((s.drawnBy 1).answer 5), .tapDR 32 0 ((s.drawnBy 2).answer 32),
            .tapDR w2.width w2.value ((s.drawnBy 3).answer w2.width)]).setTmcPair
            Config.params.tmcIdcodeOp ((s.drawnBy 1).answer 5),
          { Local.start .word with caps := [((s.drawnBy 2).answer 32).setWidth 40] }) := by
    simp [runPrims, Local.start]
  have whole := execTimesWith_body (i := .tmcReadDeviceId sel) Config.params hidle rfl (by simp [Prim.plain]) run
  rw [Local.result_word, State.tmcInit_eq] at whole
  rw [execTimes_eq, State.completed_eq]
  exact congrArg _ whole

/-- Settles O21: the run of the two primitives. -/
theorem readChipIdRuns : Obligations.ReadChipIdRuns := by
  unfold Obligations.ReadChipIdRuns
  intro s hidle
  have run : runPrims Config.params [.tmcIR 0x04, .drRead 32] (s.tmcInit, Local.start .word)
      = ((s.tmcInit.ran 2 [.tapIR 5 0x04 (s.answer 5), .tapDR 32 0 ((s.drawnBy 1).answer 32)]).setTmcPair
            0x04 (s.answer 5),
          { Local.start .word with caps := [((s.drawnBy 1).answer 32).setWidth 40] }) := by
    simp [runPrims, Local.start]
  have whole := execTimesWith_body (i := .tmcReadChipId) Config.params hidle rfl (by simp [Prim.plain]) run
  rw [Local.result_word, State.tmcInit_eq] at whole
  rw [execTimes_eq, State.completed_eq]
  exact congrArg _ whole

/-- Settles O22. -/
theorem setPaddingRuns : Obligations.SetPaddingRuns := by
  unfold Obligations.SetPaddingRuns
  intro s pad hidle
  rw [exec_bare hidle rfl rfl, State.completed_zero]
  rfl

/-- Settles O23: the values freed are the ones `Config.unspecified` gives. -/
theorem teardownsFreePairs : Obligations.TeardownsFreePairs := by
  unfold Obligations.TeardownsFreePairs
  intro s hidle
  simp only [State.completed_zero]
  exact ⟨⟨_, _, exec_bare (i := .tmcTeardown) hidle rfl rfl⟩, ⟨_, _, exec_bare (i := .hudiTeardown) hidle rfl rfl⟩,
    _, _, exec_bare (i := .dsuTeardown) hidle rfl rfl⟩

end Sys2Proof.Machine

/-! # The HUDI unit's registers (O25, O28, O31 to O36)

The two primitives that write the HUDI unit's registers are `State.ran` under `State.setHudiPair` and `State.setMode`,
whose lemmas below put a run of them in that order. -/

namespace Sys2Proof.Machine

/-! ### The pair and the mode -/

/-- The HUDI pair holds what was shifted in and what was captured (R150). -/
def State.setHudiPair (s : State) (shifted captured : Byte) : State := { s with wsdir := shifted, rsdir := captured }

/-- `S.mode` alone is written. -/
def State.setMode (s : State) (m : Bool) : State := { s with mode := m }

@[simp] theorem State.setHudiPair_ran (s : State) (v c : Byte) (n : Nat) (es : List Event) :
    (s.setHudiPair v c).ran n es = (s.ran n es).setHudiPair v c := rfl

@[simp] theorem State.setHudiPair_answer (s : State) (v c : Byte) (w : Nat) :
    (s.setHudiPair v c).answer w = s.answer w := rfl

@[simp] theorem State.setHudiPair_locked (s : State) (v c : Byte) : (s.setHudiPair v c).locked = s.locked := rfl

@[simp] theorem State.setHudiPair_mode (s : State) (v c : Byte) : (s.setHudiPair v c).mode = s.mode := rfl

@[simp] theorem State.setMode_ran (s : State) (m : Bool) (n : Nat) (es : List Event) :
    (s.setMode m).ran n es = (s.ran n es).setMode m := rfl

@[simp] theorem State.setMode_answer (s : State) (m : Bool) (w : Nat) : (s.setMode m).answer w = s.answer w := rfl

@[simp] theorem State.setMode_locked (s : State) (m : Bool) : (s.setMode m).locked = s.locked := rfl

@[simp] theorem State.setMode_mode (s : State) (m : Bool) : (s.setMode m).mode = m := rfl

@[simp] theorem State.setMode_setHudiPair (s : State) (m : Bool) (v c : Byte) :
    (s.setMode m).setHudiPair v c = (s.setHudiPair v c).setMode m := rfl

@[simp] theorem State.setMode_setMode (s : State) (m m' : Bool) : (s.setMode m).setMode m' = s.setMode m' := rfl

@[simp] theorem State.ran_locked (s : State) (n : Nat) (es : List Event) : (s.ran n es).locked = s.locked := rfl

@[simp] theorem State.ran_mode (s : State) (n : Nat) (es : List Event) : (s.ran n es).mode = s.mode := rfl

@[simp] theorem State.drawnBy_hudiInit_answer (s : State) (n w : Nat) :
    (State.drawnBy n s.hudiInit).answer w = (State.drawnBy n s).answer w :=
  drawnBy_answer_congr s.hudiInit_answers s.hudiInit_draws n w

@[simp] theorem State.hudiInit_answer (s : State) (w : Nat) : s.hudiInit.answer w = s.answer w :=
  s.drawnBy_hudiInit_answer 0 w

/-- The rows of the mode table (R151) for the eleven opcodes other than 0x20 and 0x21. -/
theorem modeUpdateIR_plain {op : Byte} (h20 : op ≠ 0x20) (h21 : op ≠ 0x21) (s : State) :
    modeUpdateIR op s = s.setMode (if s.locked then s.mode else true) := by
  rw [modeUpdateIR_eq, if_neg h20, if_neg h20, if_neg h20, if_neg h21, if_neg h21]
  rfl

theorem Prim.state_sdirWrite (p : Params) (op : Byte) (s : State) :
    (Prim.sdirWrite op).state p s
      = modeUpdateIR op ((s.ran 1 [.tapIR 8 op (s.answer 8)]).setHudiPair op (s.answer 8)) := by
  rw [← State.drawn_emit_eq_ran]
  rfl

@[simp] theorem Prim.state_sdirWrite_plain (p : Params) {op : Byte} (h20 : op ≠ 0x20) (h21 : op ≠ 0x21) (s : State) :
    (Prim.sdirWrite op).state p s
      = ((s.ran 1 [.tapIR 8 op (s.answer 8)]).setHudiPair op (s.answer 8)).setMode
          (if s.locked then s.mode else true) := by
  rw [Prim.state_sdirWrite, modeUpdateIR_plain h20 h21]
  rfl

@[simp] theorem Prim.state_dataWrite (p : Params) (d : Word32) (s : State) :
    (Prim.dataWrite d).state p s
      = (s.ran 1 [.tapDR 32 d (s.answer 32)]).setMode
          (if s.locked then s.mode else unlockedMode p.unlockedModeUpdate s.mode d) := by
  rw [← State.drawn_emit_eq_ran]
  simp only [Prim.state, perform, State.dataWrite, modeUpdateData_eq]
  rfl

/-- An unlocked data write where the mode is 1 (R169). -/
@[simp] theorem unlockedMode_one (rule : ModeUpdate) (d : Word32) : unlockedMode rule true d = modeAfterData rule d := by
  cases rule <;> simp [unlockedMode, modeAfterData]

/-! ### SDIR writes and the data register -/

/-- Settles O25: the shared SDIR body, under the mode table's row of the other opcodes. -/
theorem sdirOpcodesRun : Obligations.SdirOpcodesRun := by
  unfold Obligations.SdirOpcodesRun
  intro s i op hidle hrow
  have row : encode i = [0x10, op] ∧ bodyOf i = bodySdir op ∧ op ≠ 0x20 ∧ op ≠ 0x21 := by
    simp only [List.mem_cons, Prod.mk.injEq, List.not_mem_nil, or_false] at hrow
    rcases hrow with ⟨rfl, rfl⟩ | ⟨rfl, rfl⟩ | ⟨rfl, rfl⟩ | ⟨rfl, rfl⟩ | ⟨rfl, rfl⟩ | ⟨rfl, rfl⟩ | ⟨rfl, rfl⟩ | ⟨rfl, rfl⟩
      | ⟨rfl, rfl⟩ | ⟨rfl, rfl⟩ | ⟨rfl, rfl⟩ <;> exact ⟨rfl, rfl, by decide, by decide⟩
  obtain ⟨bytes, body, h20, h21⟩ := row
  refine ⟨bytes, ?_⟩
  rw [exec_eq, execWith_sdir _ body hidle, modeUpdateIR_plain h20 h21]
  rfl

/-- Settles O31: the run of the two primitives. -/
theorem initialStateRuns : Obligations.InitialStateRuns := by
  unfold Obligations.InitialStateRuns
  intro s hidle
  have run : runPrims Config.params [.tapTLR, .sdirWrite 0x60] (s.hudiInit, Local.start .done)
      = (((s.hudiInit.ran 1 [.tapTLR, .tapIR 8 0x60 (s.answer 8)]).setHudiPair 0x60 (s.answer 8)).setMode
            (if s.locked then s.mode else true), Local.start .done) := by
    simp [runPrims]
  have whole := execTimesWith_body (i := .hudiInitialState) Config.params hidle rfl (by simp [Prim.plain]) run
  rw [State.hudiInit_eq] at whole
  rw [execTimes_eq, State.completed_eq]
  exact congrArg _ whole

/-- A data access in mode 1 starts with its shift (R167). -/
theorem settle_access_one (p : Params) {s : State} (hmode : s.mode = true) (loc : Local) (q : Prim) :
    settle p s.hudiInit loc [.resync, .prim q] = .ready s.hudiInit loc q [] := by
  rw [settle_resync_one _ _ _ _ (by rwa [State.hudiInit_mode])]
  rfl

/-- In mode 0 it starts with `initial_state` (R167). -/
theorem settle_access_zero (p : Params) {s : State} (hmode : s.mode = false) (loc : Local) (q : Prim) :
    settle p s.hudiInit loc [.resync, .prim q] = .ready s.hudiInit loc .tapTLR ([.sdirWrite 0x60, q].map .prim) := by
  rw [settle_resync_zero _ _ _ _ (by rwa [State.hudiInit_mode])]
  rfl

/-- Settles O32. -/
theorem readDataRuns : Obligations.ReadDataRuns := by
  unfold Obligations.ReadDataRuns
  intro s hidle
  refine ⟨fun hmode => ?_, fun hmode => ?_⟩
  · have run : runPrims Config.params [.drRead 32] (s.hudiInit, Local.start .word)
        = (s.hudiInit.ran 1 [.tapDR 32 0 (s.answer 32)],
            { Local.start .word with caps := [(s.answer 32).setWidth 40] }) := by
      simp [runPrims, Local.start]
    have whole := execTimesWith_settled (i := .hudiReadData) (qs := []) Config.params hidle
      (settle_access_one _ hmode _ _) (by simp [Prim.plain]) run
    rw [Local.result_word, State.hudiInit_eq] at whole
    rw [exec_eq, State.completed_eq]
    exact congrArg _ whole
  · have run : runPrims Config.params [.tapTLR, .sdirWrite 0x60, .drRead 32] (s.hudiInit, Local.start .word)
        = (((s.hudiInit.ran 2 [.tapTLR, .tapIR 8 0x60 (s.answer 8), .tapDR 32 0 ((s.drawnBy 1).answer 32)]).setHudiPair
              0x60 (s.answer 8)).setMode (!s.locked),
            { Local.start .word with caps := [((s.drawnBy 1).answer 32).setWidth 40] }) := by
      cases hl : s.locked <;> simp [runPrims, Local.start, hmode, hl]
    have whole := execTimesWith_settled (i := .hudiReadData) Config.params hidle (settle_access_zero _ hmode _ _)
      (by simp [Prim.plain]) run
    rw [Local.result_word, State.hudiInit_eq] at whole
    rw [execTimes_eq, State.completed_eq]
    exact congrArg _ whole

/-- Settles O33. -/
theorem writeDataRuns : Obligations.WriteDataRuns := by
  unfold Obligations.WriteDataRuns
  intro s d hidle m
  refine ⟨fun hmode => ?_, fun hmode => ?_⟩
  · have run : runPrims Config.params [.dataWrite d] (s.hudiInit, Local.start .done)
        = ((s.hudiInit.ran 1 [.tapDR 32 d (s.answer 32)]).setMode (if s.locked then true else m),
            Local.start .done) := by
      simp [runPrims, hmode, m]
    have whole := execTimesWith_settled (i := .hudiWriteData d) (qs := []) Config.params hidle
      (settle_access_one _ hmode _ _) (by simp [Prim.plain]) run
    rw [State.hudiInit_eq] at whole
    rw [exec_eq, State.completed_eq]
    exact congrArg _ whole
  · have run : runPrims Config.params [.tapTLR, .sdirWrite 0x60, .dataWrite d] (s.hudiInit, Local.start .done)
        = (((s.hudiInit.ran 2 [.tapTLR, .tapIR 8 0x60 (s.answer 8), .tapDR 32 d ((s.drawnBy 1).answer 32)]).setHudiPair
              0x60 (s.answer 8)).setMode (if s.locked then false else m), Local.start .done) := by
      cases hl : s.locked <;> simp [runPrims, hmode, hl, m]
    have whole := execTimesWith_settled (i := .hudiWriteData d) Config.params hidle (settle_access_zero _ hmode _ _)
      (by simp [Prim.plain]) run
    rw [State.hudiInit_eq] at whole
    rw [execTimes_eq, State.completed_eq]
    exact congrArg _ whole

/-! ### The status bracket -/

theorem execEach_append {xs : List Instr} {s t : State} (h : execEach xs s = .next t) (ys : List Instr) :
    execEach (xs ++ ys) s = execEach ys t := by
  induction xs generalizing s with
  | nil =>
    cases h
    rfl
  | cons x xs ih =>
    simp only [execEach, exec_eq] at h
    simp only [List.cons_append, execEach, exec_eq, ih h]

/-- Between the two SDIR writes of R170: idle, locked, in mode 1, and with the mode `m` saved. -/
def State.InBracket (m : Bool) (s : State) : Prop :=
  s.seq = .idle ∧ s.locked = true ∧ s.mode = true ∧ s.savedMode = m

/-- A data access in the bracket is one step, and stays in it. -/
theorem State.InBracket.access {m : Bool} {s : State} (h : s.InBracket m) {c : Instr}
    (hc : c = .hudiReadData ∨ ∃ d, c = .hudiWriteData d) : ∃ t, exec c s = .next t ∧ t.InBracket m := by
  obtain ⟨hidle, locked, mode, saved⟩ := h
  obtain rfl | ⟨d, rfl⟩ := hc
  · refine ⟨_, (readDataRuns s hidle).1 mode, ?_⟩
    simp [State.InBracket, State.completed_eq, State.ran, locked, mode, saved]
  · refine ⟨_, (writeDataRuns s d hidle).1 mode, ?_⟩
    simp [State.InBracket, State.completed_eq, State.ran, locked, saved]

theorem State.InBracket.accesses {m : Bool} {s : State} (h : s.InBracket m) {between : List Instr}
    (hb : ∀ c ∈ between, c = .hudiReadData ∨ ∃ d, c = .hudiWriteData d) :
    ∃ t, execEach between s = .next t ∧ t.InBracket m := by
  induction between generalizing s with
  | nil => exact ⟨s, rfl, h⟩
  | cons c cs ih =>
    obtain ⟨u, hu, inside⟩ := h.access (hb c (.head _))
    obtain ⟨t, ht, inside⟩ := ih inside fun c hc => hb c (.tail _ hc)
    exact ⟨t, by simp only [execEach, hu, ht], inside⟩

/-- Settles O28: the accesses stay in the bracket that 0x20 opens (O26) and 0x21 closes (O27). -/
theorem statusBracketRestoresMode : Obligations.StatusBracketRestoresMode := by
  unfold Obligations.StatusBracketRestoresMode
  intro s between hidle hb
  obtain ⟨u, opened, inside⟩ : ∃ u, exec .sdirIsrStart s = .next u ∧ u.InBracket s.mode :=
    ⟨_, (isrStartRuns s hidle).2, rfl, rfl, rfl, rfl⟩
  obtain ⟨t, ran, tidle, -, -, saved⟩ := inside.accesses hb
  obtain ⟨v, closed, vidle, vmode, vsaved, unlocked⟩ : ∃ v, exec .sdirIsrEnd t = .next v ∧ v.seq = .idle
      ∧ v.mode = t.savedMode ∧ v.savedMode = t.savedMode ∧ v.locked = false :=
    ⟨_, (isrEndRuns t tidle).2, rfl, rfl, rfl, rfl⟩
  refine ⟨v, ?_, vidle, vmode.trans saved, vsaved.trans saved, unlocked⟩
  have whole := execEach_append ran [.sdirIsrEnd]
  simp only [execEach, closed] at whole
  simp only [List.cons_append, execEach, opened, whole]

end Sys2Proof.Machine

/-! ### The internal-status snapshot (R171) -/

namespace Sys2Proof.Machine

theorem shotEvents_ran (s : State) (n : Nat) (es : List Event) (xs : List Shot) :
    shotEvents (s.ran n es) xs = shotEvents (State.drawnBy n s) xs := by
  refine shotEvents_congr ?_ ?_ xs <;> rw [State.ran_eq]

/-- The words that `n` reads of the data register capture, kept for the result. -/
def readCaps (n : Nat) (s : State) : List Word40 :=
  (List.range n).map fun j => ((State.drawnBy j s).answer 32).setWidth 40

theorem readCaps_succ (n : Nat) (s : State) : readCaps (n + 1) s = (s.answer 32).setWidth 40 :: readCaps n s.drawn := by
  simp [readCaps, List.range_succ_eq_map, Function.comp_def, State.drawnBy_succ]

theorem readCaps_getD {n k : Nat} (h : k < n) (s : State) :
    (readCaps n s).getD k 0 = ((State.drawnBy k s).answer 32).setWidth 40 := by
  simp [readCaps, List.getD_eq_getElem?_getD, h]

/-- Reads of the data register in mode 1: as many shifts, each kept. -/
theorem execTimesWith_reads (p : Params) (cmd : Instr) (tail : List MicroOp) (n k : Nat) (s : State) (loc : Local)
    (hmode : s.mode = true) :
    execTimesWith p n cmd (pause p cmd k (settle p s loc ((List.replicate n readData).flatten ++ tail)))
      = pause p cmd (k + n) (settle p (s.ran n (shotEvents s (List.replicate n (.dr 32 0))))
          { loc with caps := loc.caps ++ readCaps n s } tail) := by
  induction n generalizing k s loc with
  | zero => simp [readCaps, shotEvents]
  | succ n ih =>
    let e : Event := .tapDR 32 0 (s.answer 32)
    have first := execTimesWith_resume p cmd [.drRead 32] ((List.replicate n readData).flatten ++ tail) k s loc
      (by simp [Prim.plain])
    have rest := ih (k + 1) (s.ran 1 [e]) { loc with caps := loc.caps ++ [(s.answer 32).setWidth 40] } hmode
    have drawn : readCaps n (s.ran 1 [e]) = readCaps n s.drawn := by
      simp only [readCaps, State.drawnBy_ran_answer, Nat.add_comm 1, State.drawnBy_succ]
    rw [shotEvents_ran, drawn, State.ran_ran] at rest
    rw [List.replicate_succ, List.flatten_cons, List.append_assoc, readData, List.cons_append,
      settle_resync_one p s loc _ hmode, Nat.add_comm n 1, execTimesWith_add]
    refine (congrArg (execTimesWith p n cmd) first).trans ((Eq.trans ?_ rest).trans ?_)
    · simp [runPrims, e]
    · rw [Nat.add_comm 1 n, readCaps_succ, Nat.add_right_comm, Nat.add_assoc]
      simp [List.replicate_succ, shotEvents, State.drawnBy, e]

/-- What the SDIR write of 0x20 writes besides the event (R151, R154). -/
def State.openBracket (s : State) (captured : Byte) : State :=
  { s with wsdir := 0x20, rsdir := captured, savedMode := s.mode, locked := true, mode := true }

/-- What the SDIR write of 0x21 writes besides the event (R151, R155). -/
def State.closeBracket (s : State) (captured : Byte) : State :=
  { s with wsdir := 0x21, rsdir := captured, locked := false, mode := s.savedMode }

theorem State.openBracket_ran (s : State) (c : Byte) (n : Nat) (es : List Event) :
    (s.openBracket c).ran n es = (s.ran n es).openBracket c := rfl

@[simp] theorem State.drawnBy_openBracket_answer (s : State) (c : Byte) (n w : Nat) :
    (State.drawnBy n (s.openBracket c)).answer w = (State.drawnBy n s).answer w :=
  drawnBy_answer_congr (t := s.openBracket c) (s := s) rfl rfl n w

theorem shotEvents_openBracket (s : State) (c : Byte) (xs : List Shot) :
    shotEvents (s.openBracket c) xs = shotEvents s xs :=
  shotEvents_congr (t := s.openBracket c) (s := s) rfl rfl xs

theorem Prim.state_isrStart (p : Params) (s : State) :
    (Prim.sdirWrite 0x20).state p s = (s.ran 1 [.tapIR 8 0x20 (s.answer 8)]).openBracket (s.answer 8) := by
  rw [Prim.state_sdirWrite, modeUpdateIR_isrStart]
  rfl

theorem Prim.state_isrEnd (p : Params) (s : State) :
    (Prim.sdirWrite 0x21).state p s = (s.ran 1 [.tapIR 8 0x21 (s.answer 8)]).closeBracket (s.answer 8) := by
  rw [Prim.state_sdirWrite, modeUpdateIR_isrEnd]
  rfl

/-- The shifts of the snapshot (R171): eight reads in the bracket. -/
def snapshotShots : List Shot := .ir 8 0x20 :: List.replicate 8 (.dr 32 0) ++ [.ir 8 0x21]

/-- The snapshot's ten steps: the first SDIR write makes the mode 1, so that the eight reads are eight shifts. -/
theorem execTimesWith_snapshot (p : Params) (cmd : Instr) (s : State) (loc : Local) :
    execTimesWith p 10 cmd (pause p cmd 0 (settle p s loc
        (.prim (.sdirWrite 0x20) :: ((List.replicate 8 readData).flatten ++ [.prim (.sdirWrite 0x21)]))))
      = (((s.ran 10 (shotEvents s snapshotShots)).openBracket (s.answer 8)).closeBracket
            ((State.drawnBy 9 s).answer 8)).finish
          (Local.result p { loc with caps := loc.caps ++ readCaps 8 s.drawn }) := by
  have opened := execTimesWith_resume p cmd [.sdirWrite 0x20]
    ((List.replicate 8 readData).flatten ++ [.prim (.sdirWrite 0x21)]) 0 s loc (by simp [Prim.plain])
  rw [runPrims, runPrims, Prim.state_isrStart, Prim.locals_sdirWrite] at opened
  have read := execTimesWith_reads p cmd [.prim (.sdirWrite 0x21)] 8 1
    ((s.ran 1 [.tapIR 8 0x20 (s.answer 8)]).openBracket (s.answer 8)) loc rfl
  have caps : readCaps 8 ((s.ran 1 [.tapIR 8 0x20 (s.answer 8)]).openBracket (s.answer 8)) = readCaps 8 s.drawn := by
    simp only [readCaps, State.drawnBy_openBracket_answer, State.drawnBy_ran_answer, Nat.add_comm 1,
      State.drawnBy_succ]
  rw [caps, shotEvents_openBracket, shotEvents_ran, State.openBracket_ran, State.ran_ran] at read
  have closed := execTimesWith_resume p cmd [.sdirWrite 0x21] [] 9
    ((s.ran 9 (.tapIR 8 0x20 (s.answer 8) :: shotEvents s.drawn (List.replicate 8 (.dr 32 0)))).openBracket (s.answer 8))
    { loc with caps := loc.caps ++ readCaps 8 s.drawn } (by simp [Prim.plain])
  rw [runPrims, runPrims, Prim.state_isrEnd, Prim.locals_sdirWrite] at closed
  rw [show 10 = 1 + (8 + 1) from rfl, execTimesWith_add, execTimesWith_add]
  refine (congrArg (execTimesWith p 1 cmd) ((congrArg (execTimesWith p 8 cmd) opened).trans read)).trans (closed.trans ?_)
  have answered : ∀ es c, ((s.ran 9 es).openBracket c).answer 8 = (State.drawnBy 9 s).answer 8 :=
    fun es _ => s.ran_answer 9 es 8
  have events : shotEvents s snapshotShots
      = .tapIR 8 0x20 (s.answer 8) :: shotEvents s.drawn (List.replicate 8 (.dr 32 0))
        ++ [.tapIR 8 0x21 ((State.drawnBy 9 s).answer 8)] := by
    rw [snapshotShots, shotEvents_append]
    rfl
  rw [answered, State.openBracket_ran, State.ran_ran, events]
  rfl

/-- Settles O34. -/
theorem readInternalStatusRuns : Obligations.ReadInternalStatusRuns := by
  unfold Obligations.ReadInternalStatusRuns
  intro s hidle raw
  have whole := (execTimesWith_idle Config.params .hudiReadInternalStatus 9 s hidle rfl rfl).trans
    (execTimesWith_snapshot Config.params _ s.hudiInit (Local.start .status))
  have word : ∀ k : Fin 8,
      ((readCaps 8 s.hudiInit.drawn).getD k.val 0).setWidth 32 = (s.drawnBy (k.val + 1)).answer 32 := fun k => by
    rw [readCaps_getD k.isLt, setWidth_32_40, ← State.drawnBy_succ, State.drawnBy_hudiInit_answer]
  have words : Local.rawWords { Local.start .status with caps := [] ++ readCaps 8 s.hudiInit.drawn } = raw :=
    congrArg Vector.ofFn (funext word)
  have result : Local.result Config.params { Local.start .status with caps := [] ++ readCaps 8 s.hudiInit.drawn }
      = ⟨.ok, .zero, .status raw (Config.params.isrFields raw)⟩ := by
    rw [← words]
    rfl
  have events : shotEvents s.hudiInit snapshotShots = shotEvents s snapshotShots :=
    shotEvents_congr s.hudiInit_answers s.hudiInit_draws _
  rw [execTimes_eq, State.completed_eq]
  refine congrArg _ (whole.trans ?_)
  refine (congrArg _ result).trans ?_
  rw [events, State.drawnBy_hudiInit_answer, State.hudiInit_eq]
  rfl

/-! ### The ASE-RAM descriptor -/

/-- Settles O36: arithmetic modulo 1024. -/
theorem aseramEndOffsets : Obligations.AseramEndOffsets := by
  unfold Obligations.AseramEndOffsets
  intro boot size
  simp only [aseramEnd, aseramStart, BitVec.toNat_sub, BitVec.toNat_add, BitVec.toNat_ofNat, BitVec.extractLsb'_toNat,
    Nat.shiftRight_zero, BitVec.reduceToNat, Nat.reducePow]
  omega

/-- The descriptor's two halves (R99, R200). -/
theorem toNat_aseramDescriptor (rule : AseramEndRule) (boot : Word32) (size : Nat) :
    (aseramDescriptor rule boot size).toNat = (aseramEnd rule boot size).toNat * 65536 + (aseramStart boot).toNat := by
  have hstart := (aseramStart boot).isLt
  have hend := (aseramEnd rule boot size).isLt
  have fits : (aseramEnd rule boot size).toNat <<< 16 < 2 ^ 32 := by
    rw [Nat.shiftLeft_eq]
    omega
  rw [aseramDescriptor, BitVec.toNat_or, BitVec.toNat_shiftLeft, BitVec.toNat_setWidth_of_le (by decide),
    BitVec.toNat_setWidth_of_le (by decide), Nat.mod_eq_of_lt fits,
    ← Nat.shiftLeft_add_eq_or_of_lt (hstart.trans (by decide)), Nat.shiftLeft_eq]

/-- Settles O35: every field is read off the number of the descriptor. -/
theorem descriptorLayout : Obligations.DescriptorLayout := by
  unfold Obligations.DescriptorLayout
  intro rule boot size d
  have word : d.toNat = _ := toNat_aseramDescriptor rule boot size
  have hstart := (aseramStart boot).isLt
  have hend := (aseramEnd rule boot size).isLt
  refine ⟨word, ?_, ?_, ?_, ?_, ?_⟩
  rotate_right
  · rw [aseramStart, BitVec.extractLsb'_toNat]
    rfl
  all_goals
    apply BitVec.eq_of_toNat_eq
    rw [BitVec.extractLsb'_toNat, word, Nat.shiftRight_eq_div_pow]
    simp only [BitVec.toNat_zero, Nat.reducePow, BitVec.ofNat_eq_ofNat]
    omega

/-! ### Stubs and the table -/

/-- Settles O44: a stub's body is the lazy init. -/
theorem hudiStubsReturnNotImplemented : Obligations.HudiStubsReturnNotImplemented := by
  unfold Obligations.HudiStubsReturnNotImplemented
  intro s i n hidle hrow
  have body : bodyOf i = bodyHudiStub n := by
    simp only [List.mem_cons, Prod.mk.injEq, List.not_mem_nil, or_false] at hrow
    rcases hrow with ⟨rfl, rfl⟩ | ⟨rfl, rfl⟩ | ⟨rfl, rfl⟩ | ⟨rfl, rfl⟩ | ⟨rfl, rfl⟩ <;> rfl
  rw [exec_bare hidle (by rw [body]) rfl, State.completed_zero, bodyHudiStub, State.hudiInit_eq]
  rfl

/-- Settles O60: a stub's body is empty. -/
theorem dsuStubsReturnNotImplemented : Obligations.DsuStubsReturnNotImplemented := by
  unfold Obligations.DsuStubsReturnNotImplemented
  intro s i n hidle hrow
  have body : bodyOf i = bodyDsuStub n := by
    simp only [List.mem_cons, Prod.mk.injEq, List.not_mem_nil, or_false] at hrow
    rcases hrow with ⟨rfl, rfl⟩ | ⟨rfl, rfl⟩ | ⟨rfl, rfl⟩ | ⟨rfl, rfl⟩ <;> rfl
  rw [exec_bare hidle (by rw [body]) rfl, State.completed_zero]
  rfl

/-- Settles O45: the body writes the table and the current overlay, and has no primitive. -/
theorem loadTableRuns : Obligations.LoadTableRuns := by
  unfold Obligations.LoadTableRuns
  intro s table hidle
  refine ⟨?_, _, exec_bare hidle rfl rfl, fun id => ?_, ?_⟩
  · rw [exec_bare hidle rfl rfl, State.completed_zero]
    rfl
  · simp [bodyOf, bodyHudiLoadTable, OverlayTable.empty]
  · rw [State.completed_zero]
    rfl

end Sys2Proof.Machine

/-! # ASE RAM, overlays and attach (O37 to O43)

`State.shifted` is the state after a list of HUDI shifts. It does not read the current overlay, so the shifts of a whole
command, and the overlays it makes current, can be put together (`execTimesWith_shots`, `execTimesWith_load`) before
`runPrims_shots_ir` says once what all of them leave (`shifted_finish`). -/

namespace Sys2Proof.Machine

/-- The state after the shifts. -/
def State.shifted (p : Params) (xs : List Shot) (s : State) : State :=
  (runPrims p (xs.map Shot.prim) (s, Local.start .done)).1

/-- `S.cur_ovl` alone is written (R205). -/
def State.setCurrent (s : State) (id : Fin 27) : State := { s with curOvl := id }

theorem Shot.locals (p : Params) (x : Shot) (s : State) (loc : Local) : x.prim.locals p s loc = loc := by
  cases x <;> rfl

theorem runPrims_shifted (p : Params) (xs : List Shot) (s : State) (loc : Local) :
    runPrims p (xs.map Shot.prim) (s, loc) = (s.shifted p xs, loc) := by
  induction xs generalizing s with
  | nil => rfl
  | cons x xs ih => simp only [List.map_cons, runPrims, Shot.locals, ih, State.shifted]

theorem State.shifted_append (p : Params) (xs ys : List Shot) (s : State) :
    s.shifted p (xs ++ ys) = (s.shifted p xs).shifted p ys := by
  rw [State.shifted, List.map_append, runPrims_append, runPrims_shifted, runPrims_shifted]

theorem State.shifted_cons (p : Params) (x : Shot) (xs : List Shot) (s : State) :
    s.shifted p (x :: xs) = (x.prim.state p s).shifted p xs := by
  simp only [State.shifted, List.map_cons, runPrims, Shot.locals]

/-- A shift does not read the current overlay. -/
theorem Shot.state_setCurrent (p : Params) (x : Shot) (s : State) (id : Fin 27) :
    x.prim.state p (s.setCurrent id) = (x.prim.state p s).setCurrent id := by
  cases x with
  | ir n v =>
    rw [Shot.prim, Prim.state_sdirWrite, Prim.state_sdirWrite, modeUpdateIR_eq, modeUpdateIR_eq]
    rfl
  | dr n v => rfl

theorem State.shifted_setCurrent (p : Params) (xs : List Shot) (s : State) (id : Fin 27) :
    (s.setCurrent id).shifted p xs = (s.shifted p xs).setCurrent id := by
  induction xs generalizing s with
  | nil => rfl
  | cons x xs ih => rw [State.shifted_cons, State.shifted_cons, Shot.state_setCurrent, ih]

@[simp] theorem State.setCurrent_setCurrent (s : State) (id id' : Fin 27) :
    (s.setCurrent id).setCurrent id' = s.setCurrent id' := rfl

@[simp] theorem State.setCurrent_curOvl (s : State) (id : Fin 27) : (s.setCurrent id).curOvl = id := rfl

@[simp] theorem State.setCurrent_ovl (s : State) (id : Fin 27) : (s.setCurrent id).ovl = s.ovl := rfl

theorem State.setCurrent_self {s : State} {id : Fin 27} (h : s.curOvl = id) : s.setCurrent id = s := by
  rw [← h]
  rfl

@[simp] theorem State.shifted_ovl (p : Params) (xs : List Shot) (s : State) : (s.shifted p xs).ovl = s.ovl := by
  induction xs generalizing s with
  | nil => rfl
  | cons x xs ih =>
    obtain ⟨-, -, -, -, -, -, ovl, -⟩ := x.prim.state_frame p s
    rw [State.shifted_cons, ih, ovl]

/-- What a whole HUDI command of plain shifts leaves whose last one is an SDIR write, and that has made `id` current. -/
theorem shifted_finish (p : Params) {xs : List Shot} (hxs : ∀ x ∈ xs, x.plainHudi) {op : Byte} (h20 : op ≠ 0x20)
    (h21 : op ≠ 0x21) (s : State) (id : Fin 27) (r : Result) :
    ((s.hudiInit.shifted p (xs ++ [.ir 8 op])).setCurrent id).finish r
      = { s.completed (xs ++ [Shot.ir 8 op]).length (shotEvents s (xs ++ [.ir 8 op])) r with
          hudiAlloc := true, wsdir := op, rsdir := (s.drawnBy ((xs ++ [Shot.ir 8 op]).length - 1)).answer 8
          mode := if s.locked then s.mode else true, curOvl := id } := by
  have events : shotEvents s.hudiInit (xs ++ [.ir 8 op]) = shotEvents s (xs ++ [.ir 8 op]) :=
    shotEvents_congr s.hudiInit_answers s.hudiInit_draws _
  have count : (xs ++ [Shot.ir 8 op]).length = xs.length + 1 := List.length_append
  rw [State.shifted, runPrims_shots_ir p xs op hxs h20 h21, events, State.drawnBy_hudiInit_answer, State.completed_eq,
    count, Nat.add_sub_cancel, State.drawnBy_eq, State.hudiInit_eq]
  rfl

/-! ### Bodies as shifts -/

/-- Shifts as elements of a body. -/
def shotOps (xs : List Shot) : List MicroOp := xs.map fun x => .prim x.prim

theorem shotOps_append (xs ys : List Shot) : shotOps (xs ++ ys) = shotOps xs ++ shotOps ys := List.map_append

/-- The upload of an entry (R205): the shifts of `overlayShots`, and the overlay made current. -/
theorem upload_eq (p : Params) (id : Fin 27) (g : Segment) (gs : List Segment) :
    .prim (.sdirWrite 0x50) :: uploadAfterSelect p id g gs = shotOps (overlayShots p (g :: gs)) ++ [.setCurrent id] := by
  have segments : (gs.flatMap fun h => writeAseram p h.boot h.code)
      = shotOps (gs.flatMap fun h => aseramShots p h.boot h.code) := by
    simp only [writeAseram_eq, shotOps, List.map_flatMap]
  calc .prim (.sdirWrite 0x50) :: uploadAfterSelect p id g gs
    _ = writeAseram p g.boot g.code ++ (gs.flatMap fun h => writeAseram p h.boot h.code)
        ++ [.prim (.sdirWrite 0xFF), .setCurrent id] := rfl
    _ = shotOps (overlayShots p (g :: gs)) ++ [.setCurrent id] := by
      rw [segments, writeAseram_eq]
      simp only [overlayShots, List.flatMap_cons, shotOps, List.map_append, List.append_assoc]
      rfl

/-- `start_overlay` (R207): the load, and the shifts of `startShots`. -/
theorem startOverlay_eq (p : Params) (id : Fin 27) (payload : List Word32) :
    startOverlay p id payload = .loadOverlay id :: shotOps (startShots p payload) := by
  have hpayload : (if payload.length > 0 then writeAseram p aseramPayloadAddr payload else [])
      = shotOps (if payload = [] then [] else aseramShots p 0xFC0002A0 payload) := by
    cases payload with
    | nil => rfl
    | cons w ws => exact writeAseram_eq p aseramPayloadAddr (w :: ws)
  rw [startOverlay, hpayload, writeAseram_eq, startShots, shotOps_append, shotOps_append]
  rfl

theorem overlayShots_plain (p : Params) (segs : List Segment) : ∀ x ∈ overlayShots p segs, x.plainHudi := by
  intro x hx
  simp only [overlayShots, List.mem_append, List.mem_flatMap, List.mem_singleton] at hx
  obtain ⟨g, -, hx⟩ | rfl := hx
  · exact aseramShots_plain p g.boot g.code x hx
  · exact ⟨rfl, by decide, by decide⟩

theorem loadShots_plain (p : Params) (s : State) (id : Fin 27) : ∀ x ∈ loadShots p s id, x.plainHudi := by
  unfold loadShots
  split
  · nofun
  · exact overlayShots_plain p _

theorem startShots_plain (p : Params) (payload : List Word32) : ∀ x ∈ startShots p payload, x.plainHudi := by
  intro x hx
  simp only [startShots, List.mem_append, List.mem_singleton] at hx
  obtain (hx | hx) | rfl := hx
  · split at hx
    · cases hx
    · exact aseramShots_plain p _ _ x hx
  · exact aseramShots_plain p _ _ x hx
  · exact ⟨rfl, by decide, by decide⟩

/-! ### Runs of shifts and of loads -/

/-- Shifts of a body: as many steps. -/
theorem execTimesWith_shots (p : Params) (cmd : Instr) (xs : List Shot) (tail : List MicroOp) (k : Nat) (s : State)
    (loc : Local) :
    execTimesWith p xs.length cmd (pause p cmd k (settle p s loc (shotOps xs ++ tail)))
      = pause p cmd (k + xs.length) (settle p (s.shifted p xs) loc tail) := by
  have plain : ∀ q ∈ xs.map Shot.prim, q.plain = true := by
    intro q hq
    obtain ⟨x, -, rfl⟩ := List.mem_map.mp hq
    exact x.prim_plain
  have run := execTimesWith_resume p cmd (xs.map Shot.prim) tail k s loc plain
  rwa [runPrims_shifted, List.length_map, List.map_map] at run

/-- A load of an overlay that is current or not EMPTY: the steps of its shifts, none where it is current (R205). -/
theorem execTimesWith_load (p : Params) (cmd : Instr) (tail : List MicroOp) (k : Nat) (s : State) (loc : Local)
    {id : Fin 27} (h : s.curOvl = id ∨ s.ovl[id] ≠ []) :
    execTimesWith p (loadShots p s id).length cmd (pause p cmd k (settle p s loc (.loadOverlay id :: tail)))
      = pause p cmd (k + (loadShots p s id).length)
          (settle p ((s.shifted p (loadShots p s id)).setCurrent id) loc tail) := by
  by_cases current : s.curOvl = id
  · rw [loadShots, if_pos current, settle_load_current p s loc id tail current]
    exact congrArg (fun t => pause p cmd k (settle p t loc tail)) (State.setCurrent_self current).symm
  · obtain ⟨g, gs, entry⟩ := List.exists_cons_of_ne_nil (h.resolve_left current)
    rw [loadShots, if_neg current, entry, settle_load_upload p s loc id tail g gs current entry, ← settle_prim,
      ← List.cons_append, upload_eq, List.append_assoc, execTimesWith_shots]
    rfl

/-- A step of an idle sequencer that starts a command at a primitive is a step at its settled body. -/
theorem execTimesWith_of_idle (p : Params) {cmd : Instr} {n : Nat} {s : State} (hidle : s.seq = .idle) (hn : 0 < n)
    {b : Body} (hb : bodyOf cmd p s = b)
    (hr : ∃ s₀ loc q rest, settle p b.state (Local.start b.fin) b.ops = .ready s₀ loc q rest ∧ q.plain = true) :
    execTimesWith p n cmd s = execTimesWith p n cmd (pause p cmd 0 (settle p b.state (Local.start b.fin) b.ops)) := by
  obtain ⟨s₀, loc, q, rest, ready, plain⟩ := hr
  obtain ⟨m, rfl⟩ := Nat.exists_eq_add_of_lt hn
  rw [Nat.zero_add]
  subst hb
  rw [execTimesWith_idle p cmd m s hidle ready plain, ready]

/-- A command whose body is shifts ends after them. -/
theorem execTimesWith_shotBody (p : Params) {cmd : Instr} {s s₀ : State} {fin : Finish} {xs : List Shot}
    (hidle : s.seq = .idle) (hb : bodyOf cmd p s = ⟨s₀, shotOps xs, fin⟩) (hxs : xs ≠ []) :
    execTimesWith p xs.length cmd s = (s₀.shifted p xs).finish ((Local.start fin).result p) := by
  have ready : ∃ s₁ loc q rest, settle p s₀ (Local.start fin) (shotOps xs) = .ready s₁ loc q rest ∧ q.plain = true := by
    obtain ⟨x, xs, rfl⟩ := List.exists_cons_of_ne_nil hxs
    exact ⟨_, _, _, _, rfl, x.prim_plain⟩
  have run := execTimesWith_shots p cmd xs [] 0 s₀ (Local.start fin)
  rw [List.append_nil] at run
  exact (execTimesWith_of_idle p hidle (List.length_pos_of_ne_nil hxs) hb ready).trans run

/-- Raw data shifts write nothing but the trace (R203). -/
theorem State.shifted_words (p : Params) (ws : List Word32) (s : State) :
    s.shifted p (ws.map (.dr 32)) = s.ran ws.length (shotEvents s (ws.map (.dr 32))) := by
  induction ws generalizing s with
  | nil => exact s.ran_zero.symm
  | cons w ws ih =>
    rw [List.map_cons, State.shifted_cons, Shot.prim, Prim.state_drWrite, ih, shotEvents_ran, State.ran_ran,
      Nat.add_comm]
    rfl

/-- The shifts of `WriteAseram` (R202): the pair and the mode are the SDIR write's. -/
theorem State.shifted_aseram (p : Params) (boot : Word32) (words : List Word32) (s : State) :
    s.shifted p (aseramShots p boot words)
      = ((s.ran (2 + words.length) (shotEvents s (aseramShots p boot words))).setHudiPair 0x50 (s.answer 8)).setMode
          (if s.locked then s.mode else true) := by
  let desc := aseramDescriptor p.aseramEndRule boot words.length
  have select : (Shot.ir 8 0x50).prim.state p s
      = ((s.ran 1 [.tapIR 8 0x50 (s.answer 8)]).setHudiPair 0x50 (s.answer 8)).setMode
          (if s.locked then s.mode else true) :=
    Prim.state_sdirWrite_plain p (by decide) (by decide) s
  have events : ∀ (c : Byte) (m : Bool) (t : State) (xs : List Shot),
      shotEvents ((t.setHudiPair 0x50 c).setMode m) xs = shotEvents t xs := fun c m t xs =>
    shotEvents_congr (t := (t.setHudiPair 0x50 c).setMode m) (s := t) rfl rfl xs
  rw [show aseramShots p boot words = .ir 8 0x50 :: (desc :: words).map (.dr 32) from rfl, State.shifted_cons, select,
    State.shifted_words, events, shotEvents_ran, State.setMode_ran, State.setHudiPair_ran, State.ran_ran,
    List.length_cons, Nat.add_left_comm, Nat.add_comm 1 1, Nat.add_comm words.length]
  rfl

/-- Settles O37: the SDIR write, and then raw shifts. -/
theorem writeAseramRuns : Obligations.WriteAseramRuns := by
  unfold Obligations.WriteAseramRuns
  intro s boot words hidle
  have run := execTimesWith_shotBody (cmd := .hudiWriteAseram boot words) (xs := aseramShots Config.params boot words)
    Config.params hidle (congrArg (Body.mk s.hudiInit · .done) (writeAseram_eq Config.params boot words))
    (List.cons_ne_nil _ _)
  have count : (aseramShots Config.params boot words).length = 2 + words.length := by
    simp only [aseramShots, List.length_cons, List.length_map]
    omega
  have events : shotEvents s.hudiInit (aseramShots Config.params boot words)
      = shotEvents s (aseramShots Config.params boot words) :=
    shotEvents_congr s.hudiInit_answers s.hudiInit_draws _
  rw [count, State.shifted_aseram, events, State.hudiInit_answer, State.hudiInit_eq] at run
  rw [execTimes_eq, State.completed_eq]
  exact congrArg _ run

/-! ### Refusals -/

/-- A command whose body fails before its first primitive (R315). -/
theorem exec_failed {i : Instr} {s t : State} {b : Body} {k : FailKind} (hidle : s.seq = .idle)
    (hb : bodyOf i Config.params s = b)
    (hf : settle Config.params b.state (Local.start b.fin) b.ops = .failed t k) :
    exec i s = .next (t.finish (.fail k)) := by
  rw [exec_eq, execWith_idle _ i s hidle, hb, start, hf]
  rfl

/-- The id of an overlay, as its operand (R204). -/
theorem overlayId?_ofNat : ∀ id : Fin 27, id ≠ 0 → overlayId? (BitVec.ofNat 8 id.val) = some id := by decide

theorem overlayId?_none {id : Byte} (h : id = 0 ∨ 26 < id.toNat) : overlayId? id = none := by
  unfold overlayId?
  obtain rfl | big := h
  · rfl
  · rw [dif_neg (by omega), ite_self]

theorem bodyOf_load (p : Params) (s : State) {id : Fin 27} (h : id ≠ 0) :
    bodyOf (.hudiLoadOverlay (BitVec.ofNat 8 id.val)) p s = ⟨s.hudiInit, [.loadOverlay id], .done⟩ := by
  simp only [bodyOf, bodyHudiLoadOverlay, overlayId?_ofNat id h]

theorem bodyOf_start (p : Params) (s : State) {id : Fin 27} (h : id ≠ 0) (payload : List Word32) :
    bodyOf (.hudiStartOverlay (BitVec.ofNat 8 id.val) payload) p s
      = ⟨s.hudiInit, .loadOverlay id :: shotOps (startShots p payload), .done⟩ := by
  simp only [bodyOf, bodyHudiStartOverlay, overlayId?_ofNat id h, startOverlay_eq]

/-- A load of an EMPTY entry that is not current fails with no event (R205). -/
theorem exec_load_empty {i : Instr} {s : State} {id : Fin 27} {ops : List MicroOp} {fin : Finish} (hidle : s.seq = .idle)
    (hb : bodyOf i Config.params s = ⟨s.hudiInit, .loadOverlay id :: ops, fin⟩) (hcur : s.curOvl ≠ id)
    (hempty : s.ovl[id] = []) :
    exec i s = .next
      { s.completed 0 [] ⟨.fail, .kind .noOverlay, .none⟩ with
        hudiAlloc := true
        rsdir := if s.hudiAlloc then s.rsdir else 0
        wsdir := if s.hudiAlloc then s.wsdir else 0 } := by
  have failed := settle_load_empty Config.params s.hudiInit (Local.start fin) id ops
    (by rwa [State.hudiInit_curOvl]) (by rwa [State.hudiInit_ovl])
  rw [exec_failed hidle hb failed, State.completed_zero, State.hudiInit_eq]
  rfl

/-- Settles O38: the id check, and the load of an EMPTY entry. -/
theorem overlayRefusals : Obligations.OverlayRefusals := by
  unfold Obligations.OverlayRefusals
  intro s payload hidle
  refine ⟨fun id hid => ⟨exec_refused hidle ?_, exec_refused hidle ?_⟩, fun id hid hcur hempty i hi => ?_⟩
  · simp only [bodyOf, bodyHudiLoadOverlay, overlayId?_none hid]
  · simp only [bodyOf, bodyHudiStartOverlay, overlayId?_none hid]
  · simp only [List.mem_cons, List.not_mem_nil, or_false] at hi
    obtain rfl | rfl := hi
    · exact exec_load_empty hidle (bodyOf_load _ s hid) hcur hempty
    · exact exec_load_empty hidle (bodyOf_start _ s hid payload) hcur hempty

/-! ### HUDI_LOAD_OVERLAY, HUDI_START_OVERLAY and HUDI_ATTACH -/

theorem loadShots_hudiInit (p : Params) (s : State) (id : Fin 27) : loadShots p s.hudiInit id = loadShots p s id := by
  simp only [loadShots, State.hudiInit_curOvl, State.hudiInit_ovl]

/-- A command that starts with the load of an overlay, current or not EMPTY, and goes on with shifts: after all of them
the overlay is current. -/
theorem execTimesWith_loadBody (p : Params) {cmd : Instr} {s : State} {id : Fin 27} {xs : List Shot}
    {tail : List MicroOp} {fin : Finish} (hidle : s.seq = .idle)
    (hb : bodyOf cmd p s = ⟨s.hudiInit, .loadOverlay id :: (shotOps xs ++ tail), fin⟩)
    (h : s.curOvl = id ∨ s.ovl[id] ≠ []) (hshots : loadShots p s id ++ xs ≠ []) :
    execTimesWith p (loadShots p s id ++ xs).length cmd s
      = pause p cmd (loadShots p s id ++ xs).length
          (settle p ((s.hudiInit.shifted p (loadShots p s id ++ xs)).setCurrent id) (Local.start fin) tail) := by
  have ready : ∃ s₀ loc q rest, settle p s.hudiInit (Local.start fin) (.loadOverlay id :: (shotOps xs ++ tail))
      = .ready s₀ loc q rest ∧ q.plain = true := by
    by_cases current : s.curOvl = id
    · rw [settle_load_current _ _ _ _ _ (by rwa [State.hudiInit_curOvl])]
      rw [loadShots, if_pos current, List.nil_append] at hshots
      obtain ⟨x, xs, rfl⟩ := List.exists_cons_of_ne_nil hshots
      exact ⟨_, _, _, _, rfl, x.prim_plain⟩
    · obtain ⟨g, gs, entry⟩ := List.exists_cons_of_ne_nil (h.resolve_left current)
      rw [settle_load_upload _ _ _ _ _ g gs (by rwa [State.hudiInit_curOvl]) (by rwa [State.hudiInit_ovl])]
      exact ⟨_, _, _, _, rfl, rfl⟩
  have load := execTimesWith_load p cmd (shotOps xs ++ tail) 0 s.hudiInit (Local.start fin) (id := id)
    (by rwa [State.hudiInit_curOvl, State.hudiInit_ovl])
  rw [loadShots_hudiInit] at load
  rw [execTimesWith_of_idle p hidle (List.length_pos_of_ne_nil hshots) hb ready, List.length_append, execTimesWith_add,
    load, execTimesWith_shots, State.shifted_setCurrent, State.shifted_append, Nat.zero_add]

/-- A load of the current overlay is one step, with no event (R206). -/
theorem exec_load_current {s : State} {id : Fin 27} (hidle : s.seq = .idle) (hid : id ≠ 0) (hcur : s.curOvl = id) :
    exec (.hudiLoadOverlay (BitVec.ofNat 8 id.val)) s = .next (s.hudiInit.finish ⟨.ok, .zero, .none⟩) := by
  have skipped := settle_load_current Config.params s.hudiInit (Local.start .done) id [] (by rwa [State.hudiInit_curOvl])
  rw [exec_eq, execWith_idle _ _ s hidle, bodyOf_load _ s hid, start, skipped]
  rfl

theorem startShots_ne_nil (p : Params) (payload : List Word32) : startShots p payload ≠ [] :=
  List.append_ne_nil_of_right_ne_nil _ (List.cons_ne_nil _ _)

/-- What a load and the shifts of `start_overlay` leave: their last is ResetNegate. -/
theorem loadThenStart_finish (p : Params) (s : State) (id : Fin 27) (payload : List Word32) (id' : Fin 27) (r : Result) :
    let shots := loadShots p s id ++ startShots p payload
    ((s.hudiInit.shifted p shots).setCurrent id').finish r
      = { s.completed shots.length (shotEvents s shots) r with
          hudiAlloc := true, wsdir := 0x60, rsdir := (s.drawnBy (shots.length - 1)).answer 8
          mode := if s.locked then s.mode else true, curOvl := id' } := by
  intro shots
  have parts : shots = loadShots p s id ++ ((if payload = [] then [] else aseramShots p 0xFC0002A0 payload)
      ++ aseramShots p 0xFC0003FC [p.signalWord]) ++ [.ir 8 0x60] := (List.append_assoc _ _ _).symm
  have plain : ∀ x ∈ shots, x.plainHudi :=
    List.forall_mem_append.mpr ⟨loadShots_plain p s id, startShots_plain p payload⟩
  rw [parts] at plain ⊢
  exact shifted_finish p (fun x hx => plain x (List.mem_append_left _ hx)) (by decide) (by decide) s id' r

/-- Settles O39: the upload is the body's shifts, the last of them the Bypass. -/
theorem loadOverlayUploads : Obligations.LoadOverlayUploads := by
  unfold Obligations.LoadOverlayUploads
  intro s id hidle hid hcur hloaded shots
  have upload : loadShots Config.params s id ++ [] = shots := by rw [loadShots, if_neg hcur, List.append_nil]
  have run := execTimesWith_loadBody Config.params (xs := []) hidle (bodyOf_load _ s hid) (.inr hloaded)
    (by rw [upload]; exact List.append_ne_nil_of_right_ne_nil _ (List.cons_ne_nil _ _))
  rw [upload] at run
  have segments : ∀ x ∈ s.ovl[id].flatMap fun g => aseramShots Config.params g.boot g.code, x.plainHudi := fun x hx =>
    overlayShots_plain Config.params s.ovl[id] x (List.mem_append_left _ hx)
  rw [execTimes_eq]
  exact congrArg _ (run.trans (shifted_finish Config.params segments (by decide) (by decide) s id ⟨.ok, .zero, .none⟩))

theorem length_shotEvents (s : State) (xs : List Shot) : (shotEvents s xs).length = xs.length := by
  induction xs generalizing s with
  | nil => rfl
  | cons x xs ih => cases x <;> simp only [shotEvents, List.length_cons, ih]

/-- Settles O40: the first load uploads (O39) or finds the overlay current, and the second finds it current. -/
theorem loadOverlayIdempotent : Obligations.LoadOverlayIdempotent := by
  unfold Obligations.LoadOverlayIdempotent
  intro s id hidle hid hloaded
  have first : ∃ t, execTimes (max 1 (loadShots Config.params s id).length) (.hudiLoadOverlay (BitVec.ofNat 8 id.val)) s
        = .next t ∧ t.seq = .idle ∧ t.res = ⟨.ok, .zero, .none⟩ ∧ t.curOvl = id
      ∧ t.trace = s.trace ++ shotEvents s (loadShots Config.params s id) := by
    by_cases hcur : s.curOvl = id
    · have none : loadShots Config.params s id = [] := if_pos hcur
      have ended := exec_load_current hidle hid hcur
      rw [exec_eq] at ended
      rw [none, execTimes_eq]
      exact ⟨_, ended, rfl, rfl, by simpa using hcur, by simp [shotEvents]⟩
    · have shots : loadShots Config.params s id = overlayShots Config.params s.ovl[id] := if_neg hcur
      have some : 1 ≤ (overlayShots Config.params s.ovl[id]).length := by simp [overlayShots]
      rw [shots, Nat.max_eq_right some]
      exact ⟨_, loadOverlayUploads s id hidle hid hcur hloaded, rfl, rfl, rfl, rfl⟩
  obtain ⟨t, ran, tidle, tres, tcur, trace⟩ := first
  refine ⟨t, _, ran, tidle, tres, tcur, trace, fun hcur => ?_, exec_load_current tidle hid tcur, rfl, rfl, ?_, ?_⟩
  · rw [trace, List.length_append, length_shotEvents, loadShots, if_neg hcur]
    simp [overlayShots]
  · simpa using tcur
  · simp

/-- Settles O41: the load's shifts and those of `startShots`, the last of them ResetNegate. -/
theorem startOverlayRuns : Obligations.StartOverlayRuns := by
  unfold Obligations.StartOverlayRuns
  intro s id payload hidle hid h shots
  have run := execTimesWith_loadBody Config.params (cmd := .hudiStartOverlay (BitVec.ofNat 8 id.val) payload)
    (xs := startShots Config.params payload) (tail := []) hidle (by rw [bodyOf_start _ s hid, List.append_nil]) h
    (List.append_ne_nil_of_right_ne_nil _ (startShots_ne_nil _ _))
  rw [execTimes_eq]
  exact congrArg _ (run.trans (loadThenStart_finish Config.params s id payload id _))

/-- The elements of HUDI_ATTACH behind its second load (R208): three SDIR writes, and the stubs between them. -/
theorem execTimesWith_attachTail (p : Params) (cmd : Instr) (k : Nat) (s : State) (loc : Local) :
    execTimesWith p 3 cmd (pause p cmd k (settle p s loc
        [.prim (.sdirWrite 0x60), .stub, .prim (.sdirWrite 0x80), .stub, .prim (.sdirWrite 0x70)]))
      = (s.shifted p [.ir 8 0x60, .ir 8 0x80, .ir 8 0x70]).finish (Local.result p { loc with ni := true }) := by
  have negate := execTimesWith_shots p cmd [.ir 8 0x60]
    [.stub, .prim (.sdirWrite 0x80), .stub, .prim (.sdirWrite 0x70)] k s loc
  have boot := execTimesWith_shots p cmd [.ir 8 0x80] [.stub, .prim (.sdirWrite 0x70)] (k + 1)
    (s.shifted p [.ir 8 0x60]) { loc with ni := true }
  have assert := execTimesWith_shots p cmd [.ir 8 0x70] [] (k + 2) ((s.shifted p [.ir 8 0x60]).shifted p [.ir 8 0x80])
    { loc with ni := true }
  rw [← State.shifted_append, ← State.shifted_append] at assert
  rw [show 3 = 1 + (1 + 1) from rfl, execTimesWith_add, execTimesWith_add]
  exact (congrArg (execTimesWith p 1 cmd) ((congrArg (execTimesWith p 1 cmd) negate).trans boot)).trans assert

/-- HUDI_ATTACH's body (R208). -/
theorem bodyOf_attach (p : Params) (s : State) :
    bodyOf .hudiAttach p s = ⟨s.hudiInit, .loadOverlay p.ovlBootInit :: (shotOps (startShots p [])
      ++ .stub :: .loadOverlay p.ovlBootReset
        :: [.prim (.sdirWrite 0x60), .stub, .prim (.sdirWrite 0x80), .stub, .prim (.sdirWrite 0x70)]), .attach⟩ := by
  rw [← List.cons_append, ← startOverlay_eq]
  rfl

/-- HUDI_ATTACH up to its second load: BOOT_INIT is started, and a stub met. -/
theorem execTimesWith_attachInit (p : Params) {s : State} (hidle : s.seq = .idle)
    (h : s.curOvl = p.ovlBootInit ∨ s.ovl[p.ovlBootInit] ≠ []) :
    let shots := loadShots p s p.ovlBootInit ++ startShots p []
    execTimesWith p shots.length .hudiAttach s
      = pause p .hudiAttach shots.length (settle p ((s.hudiInit.shifted p shots).setCurrent p.ovlBootInit)
          { Local.start .attach with ni := true } (.loadOverlay p.ovlBootReset
            :: [.prim (.sdirWrite 0x60), .stub, .prim (.sdirWrite 0x80), .stub, .prim (.sdirWrite 0x70)])) :=
  execTimesWith_loadBody p hidle (bodyOf_attach p s) h
    (List.append_ne_nil_of_right_ne_nil _ (startShots_ne_nil _ _))

/-- Settles O43: the second load finds its entry EMPTY. -/
theorem attachFailsFast : Obligations.AttachFailsFast := by
  unfold Obligations.AttachFailsFast
  intro s hidle
  refine ⟨fun hcur hempty => exec_load_empty hidle (bodyOf_attach _ s) hcur hempty, ?_⟩
  intro h hempty shots
  have run := execTimesWith_attachInit Config.params hidle h
  have failed := settle_load_empty Config.params
    ((s.hudiInit.shifted Config.params shots).setCurrent Config.params.ovlBootInit)
    { Local.start .attach with ni := true } Config.params.ovlBootReset
    [.prim (.sdirWrite 0x60), .stub, .prim (.sdirWrite 0x80), .stub, .prim (.sdirWrite 0x70)]
    (Params.ovlBoot_ne Config.params) (by rwa [State.setCurrent_ovl, State.shifted_ovl, State.hudiInit_ovl])
  replace run := run.trans (congrArg (pause Config.params .hudiAttach shots.length) failed)
  rw [execTimes_eq]
  exact congrArg _ (run.trans (loadThenStart_finish Config.params s _ [] _ _))

/-- Settles O42: the start of BOOT_INIT, the load of BOOT_RESET, which is not current then, and the last three SDIR
writes. -/
theorem attachRuns : Obligations.AttachRuns := by
  unfold Obligations.AttachRuns
  intro s hidle h hreset shots
  let p := Config.params
  let initShots := loadShots p s p.ovlBootInit ++ startShots p []
  let resetShots := overlayShots p s.ovl[p.ovlBootReset]
  let started := (s.hudiInit.shifted p initShots).setCurrent p.ovlBootInit
  have parts : shots = initShots ++ (resetShots ++ [.ir 8 0x60, .ir 8 0x80, .ir 8 0x70]) := by
    simp only [shots, initShots, resetShots, p, List.append_assoc]
  have entry : started.ovl = s.ovl := by rw [State.setCurrent_ovl, State.shifted_ovl, State.hudiInit_ovl]
  have reload : loadShots p started p.ovlBootReset = resetShots := by
    rw [loadShots, State.setCurrent_curOvl, if_neg (Params.ovlBoot_ne p), entry]
  have load := execTimesWith_load p .hudiAttach
    [.prim (.sdirWrite 0x60), .stub, .prim (.sdirWrite 0x80), .stub, .prim (.sdirWrite 0x70)] initShots.length started
    { Local.start .attach with ni := true } (id := p.ovlBootReset) (.inr (by rwa [entry]))
  rw [reload] at load
  have run : execTimesWith p shots.length .hudiAttach s
      = ((s.hudiInit.shifted p shots).setCurrent p.ovlBootReset).finish ⟨.notImplemented, .stub .attach, .none⟩ := by
    rw [parts, List.length_append (as := initShots), List.length_append (as := resetShots), execTimesWith_add,
      execTimesWith_add, execTimesWith_attachInit p hidle h, load, State.shifted_append, State.shifted_append]
    refine (execTimesWith_attachTail p .hudiAttach _ _ _).trans ?_
    simp only [started, State.shifted_setCurrent, State.setCurrent_setCurrent]
    rfl
  have split : shots = (initShots ++ resetShots ++ [.ir 8 0x60, .ir 8 0x80]) ++ [.ir 8 0x70] := by
    rw [parts, List.append_assoc _ [Shot.ir 8 0x60, .ir 8 0x80], List.append_assoc initShots]
    rfl
  have plain : ∀ x ∈ initShots ++ resetShots ++ [.ir 8 0x60, .ir 8 0x80], x.plainHudi := by
    have last : ∀ x ∈ [Shot.ir 8 0x60, .ir 8 0x80], x.plainHudi := by simp [Shot.plainHudi]
    exact List.forall_mem_append.mpr ⟨List.forall_mem_append.mpr ⟨List.forall_mem_append.mpr
      ⟨loadShots_plain p s _, startShots_plain p []⟩, overlayShots_plain p _⟩, last⟩
  rw [split] at run ⊢
  rw [execTimes_eq, run]
  exact congrArg _ (shifted_finish p plain (by decide) (by decide) s p.ovlBootReset _)

end Sys2Proof.Machine

/-! # The flash status word (O46, O47, O56)

A bus pattern is the byte's 16-bit word in the one lane of a 16-bit bus, and in both lanes of a 32-bit bus. -/

namespace Sys2Proof.Machine

/-- The low 16-bit lane of a 32-bit word. -/
def lowLane (x : Word32) : Word16 := x.extractLsb' 0 16

/-- The high 16-bit lane of a 32-bit word. -/
def highLane (x : Word32) : Word16 := x.extractLsb' 16 16

theorem word32_eq_iff_lanes (x y : Word32) : x = y ↔ lowLane x = lowLane y ∧ highLane x = highLane y := by
  refine ⟨fun h => by rw [h]; exact ⟨rfl, rfl⟩, fun ⟨hlow, hhigh⟩ => ?_⟩
  ext i hi
  by_cases low : i < 16
  · simpa [lowLane, low, hi] using congrArg (BitVec.getLsbD · i) hlow
  · have lane : i - 16 < 16 := by omega
    have back : 16 + (i - 16) = i := by omega
    simpa [highLane, lane, back, hi] using congrArg (BitVec.getLsbD · (i - 16)) hhigh

@[simp] theorem lowLane_and (x y : Word32) : lowLane (x &&& y) = lowLane x &&& lowLane y :=
  BitVec.extractLsb'_and

@[simp] theorem highLane_and (x y : Word32) : highLane (x &&& y) = highLane x &&& highLane y :=
  BitVec.extractLsb'_and

@[simp] theorem lowLane_setWidth (c : Word16) : lowLane (c.setWidth 32) = c := by
  ext i hi
  simp [lowLane, hi, show i < 32 by omega]

@[simp] theorem lowLane_dbl (c : Word16) : lowLane (dbl c) = c := by
  ext i hi
  simp [lowLane, dbl, hi, show i < 32 by omega]

@[simp] theorem highLane_dbl (c : Word16) : highLane (dbl c) = c := by
  ext i hi
  simp [highLane, dbl, hi, show 16 + i < 32 by omega]

/-- A word of one lane is equal to another just when the lanes are. -/
theorem setWidth_16_32_inj {c d : Word16} : c.setWidth 32 = d.setWidth 32 ↔ c = d :=
  ⟨fun h => by simpa using congrArg lowLane h, fun h => by rw [h]⟩

theorem busPattern_w16 (b : Byte) : busPattern .w16 b = (b.setWidth 16).setWidth 32 :=
  (BitVec.setWidth_setWidth (by decide)).symm

/-- `Ready` on the 16-bit bus, in the lane (R245). -/
theorem ready_w16 (m : StatusMasks) (c : Word16) :
    ready m .w16 (c.setWidth 32) = (c &&& m.ready.setWidth 16 == m.ready.setWidth 16) := by
  rw [Bool.eq_iff_iff]
  simp only [ready, readyPattern, busPattern_w16, beq_iff_eq, ← BitVec.setWidth_and, setWidth_16_32_inj]

theorem exact_w16 (m : StatusMasks) (c : Word16) : exact m .w16 (c.setWidth 32) = (c == m.ready.setWidth 16) := by
  rw [Bool.eq_iff_iff]
  simp only [exact, readyPattern, busPattern_w16, beq_iff_eq, setWidth_16_32_inj]

/-- Settles O46: each test is an equation of 32-bit words, which holds in both lanes. -/
theorem dualChipLanes : Obligations.DualChipLanes := by
  unfold Obligations.DualChipLanes
  refine ⟨fun c => ⟨rfl, lowLane_dbl c, highLane_dbl c⟩, fun m sr => ?_⟩
  intro lo hi
  rw [ready_w16, ready_w16, exact_w16, exact_w16, Bool.eq_iff_iff, Bool.eq_iff_iff (a := exact m .w32 sr)]
  simp only [ready, exact, readyPattern, busPattern, beq_iff_eq, Bool.and_eq_true, word32_eq_iff_lanes, lowLane_and,
    highLane_and, lowLane_dbl, highLane_dbl]
  exact ⟨Iff.rfl, Iff.rfl⟩

/-! ### The error patterns -/

theorem busPattern_inj {bus : BusWidth} {a b : Byte} : busPattern bus a = busPattern bus b ↔ a = b := by
  refine ⟨fun h => ?_, fun h => by rw [h]⟩
  have lane : a.setWidth 16 = b.setWidth 16 := by
    cases bus with
    | w16 => rwa [busPattern_w16, busPattern_w16, setWidth_16_32_inj] at h
    | w32 => simpa only [busPattern, lowLane_dbl] using congrArg lowLane h
  have byte := congrArg (BitVec.setWidth 8) lane
  rwa [BitVec.setWidth_setWidth_of_le a (by decide), BitVec.setWidth_setWidth_of_le b (by decide), BitVec.setWidth_eq,
    BitVec.setWidth_eq] at byte

theorem busPattern_and (bus : BusWidth) (a b : Byte) :
    busPattern bus (a &&& b) = busPattern bus a &&& busPattern bus b := by
  cases bus with
  | w16 => exact BitVec.setWidth_and
  | w32 =>
    rw [word32_eq_iff_lanes]
    simp only [busPattern, BitVec.setWidth_and, lowLane_and, highLane_and, lowLane_dbl, highLane_dbl, and_self]

theorem busPattern_zero (bus : BusWidth) : busPattern bus 0 = 0 := by cases bus <;> rfl

/-- A word with all bits of `r` has exactly the bits of `e` beside them just when it is the join of both. -/
theorem and_not_eq_iff_eq_or {w : Nat} {x r e : BitVec w} (h : x &&& r = r) (disjoint : e &&& r = 0) :
    x &&& ~~~r = e ↔ x = r ||| e := by
  constructor
  · rintro rfl
    ext i hi
    have ready : (x[i] && r[i]) = r[i] := by rw [← BitVec.getElem_and, h]
    rw [BitVec.getElem_or, BitVec.getElem_and, BitVec.getElem_not]
    revert ready
    cases x[i] <;> cases r[i] <;> decide
  · rintro rfl
    ext i hi
    have apart : (e[i] && r[i]) = false := by rw [← BitVec.getElem_and, disjoint]; exact BitVec.getElem_zero hi
    rw [BitVec.getElem_and, BitVec.getElem_or, BitVec.getElem_not]
    revert apart
    cases e[i] <;> cases r[i] <;> decide

/-- Two error pairs of R247 share the erase error alone. -/
theorem errorPair_ne : ∀ a ∈ statusBitChoices, ∀ b ∈ statusBitChoices, ∀ c ∈ statusBitChoices, a ≠ b → b ≠ c →
    a ||| b ≠ a ||| c := by decide

theorem errorPair_and_ready : ∀ a ∈ statusBitChoices, ∀ b ∈ statusBitChoices, ∀ r ∈ statusBitChoices, r ≠ a → r ≠ b →
    (a ||| b) &&& r = 0 := by decide

theorem errorPair_ne_zero : ∀ a ∈ statusBitChoices, ∀ b ∈ statusBitChoices, 0 ≠ a ||| b := by decide

/-- The four patterns that `ClassifyErase` knows (R247). -/
def knownErrors (m : StatusMasks) : List Byte :=
  [0, m.eraseError ||| m.programError, m.eraseError ||| m.vpenError, m.eraseError ||| m.blockLocked]

/-- Under R103's constraint the four patterns are distinct, and none has the ready bit. -/
theorem knownErrors_of_valid {m : StatusMasks} (valid : m.valid = true) :
    (knownErrors m).Nodup ∧ ∀ b ∈ knownErrors m, b &&& m.ready = 0 := by
  obtain ⟨bits, distinct⟩ : (∀ b ∈ m.toList, b ∈ statusBitChoices) ∧ m.toList.Nodup := by
    simpa [StatusMasks.valid] using valid
  simp only [StatusMasks.toList, List.forall_mem_cons] at bits
  simp only [StatusMasks.toList, List.nodup_cons, List.mem_cons, not_or] at distinct
  obtain ⟨r, e, p, v, l, -⟩ := bits
  obtain ⟨⟨re, rp, rv, rl, -⟩, ⟨ep, ev, el, -⟩, ⟨pv, pl, -⟩, ⟨vl, -⟩, -⟩ := distinct
  constructor
  · simp only [knownErrors, List.nodup_cons, List.mem_cons, List.not_mem_nil, or_false, not_or]
    exact ⟨⟨errorPair_ne_zero _ e _ p, errorPair_ne_zero _ e _ v, errorPair_ne_zero _ e _ l⟩,
      ⟨errorPair_ne _ e _ p _ v ep pv, errorPair_ne _ e _ p _ l ep pl⟩, errorPair_ne _ e _ v _ l ev vl, id, .nil⟩
  · simp only [knownErrors, List.forall_mem_cons]
    exact ⟨BitVec.zero_and, errorPair_and_ready _ e _ p _ r re rp, errorPair_and_ready _ e _ v _ r re rv,
      errorPair_and_ready _ e _ l _ r re rl, nofun⟩

/-- `ClassifyErase` (R247), of a status whose bits beside the ready ones are `e`. -/
def errorCode (none invalid low locked e : Word32) : FlashCode :=
  if e = none then .ok else if e = invalid then .invalidCommandSequence else if e = low then .lowVpen
  else if e = locked then .blockLocked else .unknown

theorem classifyErase_eq (m : StatusMasks) (bus : BusWidth) (sr : Word32) :
    classifyErase m bus sr = errorCode (busPattern bus 0) (busPattern bus (m.eraseError ||| m.programError))
      (busPattern bus (m.eraseError ||| m.vpenError)) (busPattern bus (m.eraseError ||| m.blockLocked))
      (sr &&& ~~~ readyPattern m bus) := by
  rw [busPattern_zero]
  rfl

/-- Where the four patterns are distinct, each is the only one with its code. -/
theorem errorCode_iff {none invalid low locked : Word32} (distinct : [none, invalid, low, locked].Nodup) (e : Word32) :
    (errorCode none invalid low locked e = .ok ↔ e = none)
    ∧ (errorCode none invalid low locked e = .invalidCommandSequence ↔ e = invalid)
    ∧ (errorCode none invalid low locked e = .lowVpen ↔ e = low)
    ∧ (errorCode none invalid low locked e = .blockLocked ↔ e = locked)
    ∧ errorCode none invalid low locked e ≠ .timeout := by
  simp only [List.nodup_cons, List.mem_cons, List.not_mem_nil, or_false, not_or] at distinct
  obtain ⟨⟨ni, nl, nk⟩, ⟨il, ik⟩, lk, -⟩ := distinct
  unfold errorCode
  by_cases h : e = none
  · simp [h, ni, nl, nk]
  by_cases h' : e = invalid
  · simp [h', Ne.symm ni, il, ik]
  by_cases h'' : e = low
  · simp [h'', Ne.symm nl, Ne.symm il, lk]
  by_cases h''' : e = locked
  · simp [h''', Ne.symm nk, Ne.symm ik, Ne.symm lk]
  · simp [h, h', h'', h''']

/-- Settles O47: the error patterns are distinct and apart from the ready bit, under R103's constraint. -/
theorem eraseClassification : Obligations.EraseClassification := by
  unfold Obligations.EraseClassification
  intro m bus sr valid isReady rdy
  obtain ⟨distinct, apart⟩ := knownErrors_of_valid valid
  have pattern : ∀ b ∈ knownErrors m, (sr &&& ~~~rdy = busPattern bus b ↔ sr = rdy ||| busPattern bus b) := fun b hb =>
    and_not_eq_iff_eq_or (beq_iff_eq.mp isReady) (by rw [← busPattern_zero bus, ← apart b hb, busPattern_and]; rfl)
  have onBus : ((knownErrors m).map (busPattern bus)).Nodup := distinct.map fun _ _ => busPattern_inj.mp
  obtain ⟨ok, invalid, low, locked, timeout⟩ := errorCode_iff onBus (sr &&& ~~~rdy)
  simp only [knownErrors, List.forall_mem_cons] at pattern
  obtain ⟨noError, invalidError, lowError, lockedError, -⟩ := pattern
  have zero : rdy ||| busPattern bus 0 = rdy := by rw [busPattern_zero]; exact BitVec.or_zero
  rw [zero] at noError
  rw [classifyErase_eq]
  exact ⟨ok.trans noError, invalid.trans invalidError, low.trans lowError, locked.trans lockedError, timeout⟩

/-- Settles O56: the lookup under R257's constraint. -/
theorem chipNameDecoding : Obligations.ChipNameDecoding := by
  unfold Obligations.ChipNameDecoding
  intro p
  refine ⟨rfl, rfl, fun cid => ⟨fun name entry => ?_, fun none => ?_⟩⟩
  · rw [chipName, entry, Option.getD_some]
  · rw [chipName, none, Option.getD_none]

end Sys2Proof.Machine

/-! # The flash commands at aligned addresses (O48 to O54) -/

namespace Sys2Proof.Machine

theorem withDriver_bus {s : State} {bus : BusWidth} (h : s.driver.bus? = some bus) (body : BusWidth → Body) :
    withDriver s body = body bus := by
  simp only [withDriver, h]

/-- Settles O48: `RequireDriver` refuses. -/
theorem flashNeedsDriver : Obligations.FlashNeedsDriver := by
  unfold Obligations.FlashNeedsDriver
  intro s addr data hidle none i hi
  have refused : bodyOf i Config.params s = Body.refuse s .noDriver := by
    simp only [List.mem_cons, List.not_mem_nil, or_false] at hi
    obtain rfl | rfl | rfl | rfl | rfl := hi <;>
      simp only [bodyOf, bodyFlashPrintInfo, bodyFlashEraseBlock, bodyFlashUnlockBlock, bodyFlashProgram,
        bodyFlashReadArray, withDriver, none, Driver.bus?]
  exact exec_refused hidle refused

/-- The registered drivers' first whose predicate holds (R258). -/
theorem bodyOf_autodetect (cfiId : Word16) (p : Params) (s : State) :
    bodyOf (.flashAutodetect cfiId) p s
      = if cfiId = p.cfiIntelId then ⟨{ s with driver := driverOf p.busWidth }, [], .driver (driverOf p.busWidth)⟩
        else ⟨{ s with driver := .none }, [], .fail .noDriver⟩ := by
  by_cases intel : cfiId = p.cfiIntelId
  · simp only [bodyOf, bodyFlashAutodetect, beq_iff_eq.mpr intel, Bool.true_and, if_pos intel]
    cases p.busWidth <;> rfl
  · simp [bodyOf, bodyFlashAutodetect, intel]

/-- Settles O49: a body with no element. -/
theorem autodetectRuns : Obligations.AutodetectRuns := by
  unfold Obligations.AutodetectRuns
  intro s cfiId hidle d
  by_cases intel : cfiId = Config.params.cfiIntelId
  · rw [exec_bare hidle ((bodyOf_autodetect _ _ s).trans (if_pos intel)) rfl, if_pos intel, State.completed_zero]
    rfl
  · rw [exec_bare hidle ((bodyOf_autodetect _ _ s).trans (if_neg intel)) rfl, if_neg intel, State.completed_zero]
    rfl

/-- The primitive that writes a command code (R240, R241). -/
def codeWrite (bus : BusWidth) (addr : Word32) (code : Byte) : Prim := .memWrite bus addr (busPattern bus code)

/-- Settles O54: the run of the one write. -/
theorem readArrayRuns : Obligations.ReadArrayRuns := by
  unfold Obligations.ReadArrayRuns
  intro s base bus hidle driver onBus
  have run := execTimesWith_body (i := .flashReadArray base) (qs := []) (loc := Local.start .done) Config.params hidle
    (withDriver_bus driver _) (q := codeWrite bus base Config.params.flashCodes.readArray)
    (by simpa [Prim.plain, codeWrite] using onBus) rfl
  rw [exec_eq, State.completed_eq]
  refine congrArg _ (run.trans ?_)
  rw [codeWrite, Prim.state_memWrite]
  rfl

/-- Settles O53: the run of the five primitives. -/
theorem printInfoRuns : Obligations.PrintInfoRuns := by
  unfold Obligations.PrintInfoRuns
  intro s base bus hidle driver onBus
  refine ⟨execTimes_eq _ _ _, ?_⟩
  intro p w cs am ac m c alignedM alignedC
  have run : runPrims p [codeWrite bus base cs.clearStatus, codeWrite bus base cs.readId, .memRead bus am,
        .memRead bus ac, codeWrite bus base cs.readArray] (s, Local.start .ids)
      = (s.ran 2 [w cs.clearStatus, w cs.readId, .memRead am bus.bits m, .memRead ac bus.bits c, w cs.readArray],
          { Local.start .ids with caps := [m.setWidth 40, c.setWidth 40] }) := by
    simp [runPrims, codeWrite, Local.start, Prim.state_memRead_aligned, Prim.locals_memRead_aligned, alignedM, alignedC,
      w, m, c]
  have body : bodyOf (.flashPrintInfo base) p s = ⟨s, [codeWrite bus base cs.clearStatus, codeWrite bus base cs.readId,
      .memRead bus am, .memRead bus ac, codeWrite bus base cs.readArray].map .prim, .ids⟩ :=
    withDriver_bus driver _
  have whole := execTimesWith_body p hidle body
    (by simp [Prim.plain, codeWrite, onBus, alignedM, alignedC]) run
  rw [State.completed_eq]
  refine whole.trans (congrArg _ ?_)
  cases bus <;> simp [Local.result, Local.start, Local.cap, Result.ok]

/-! ### The ready poll -/

/-- The result of a command whose poll ends with the status `sr` (R251, R252). -/
theorem Local.result_polled (p : Params) {loc : Local} {bus : BusWidth} (hfin : loc.fin = .erase bus ∨ loc.fin = .exact bus)
    (sr : Word32) :
    (loc.polled p bus sr).result p = Result.flash (if ready p.statusMasks bus sr then
      (match loc.fin with
        | .erase _ => classifyErase p.statusMasks bus sr
        | _ => if sr = readyPattern p.statusMasks bus then .ok else .unknown)
      else .timeout) := by
  obtain h | h := hfin <;> cases isReady : ready p.statusMasks bus sr <;>
    simp [Local.result, Local.polled, flashResult, classifyExact, exact, h, isReady]

/-- The sequencer stands at the ready poll of `cmd`, the `k`-th primitive. -/
def State.polling (s : State) (cmd : Instr) (k : Nat) (bus : BusWidth) (addr : Word32) (loc : Local) : State :=
  { s with seq := .busy cmd k (.pollReady bus addr) [] loc }

@[simp] theorem State.polling_answer (s : State) (cmd : Instr) (k : Nat) (bus : BusWidth) (addr : Word32) (loc : Local)
    (w : Nat) : (s.polling cmd k bus addr loc).answer w = s.answer w := rfl

@[simp] theorem State.polling_ran (s : State) (cmd : Instr) (k : Nat) (bus : BusWidth) (addr : Word32) (loc : Local)
    (n : Nat) (es : List Event) : (s.polling cmd k bus addr loc).ran n es = (s.ran n es).polling cmd k bus addr loc := rfl

@[simp] theorem State.polling_polling (s : State) (cmd : Instr) (k : Nat) (bus : BusWidth) (addr : Word32)
    (loc loc' : Local) : (s.polling cmd k bus addr loc).polling cmd k bus addr loc' = s.polling cmd k bus addr loc' := rfl

@[simp] theorem State.polling_finish (s : State) (cmd : Instr) (k : Nat) (bus : BusWidth) (addr : Word32) (loc : Local)
    (r : Result) : (s.polling cmd k bus addr loc).finish r = s.finish r := rfl

theorem State.polling_self {s : State} {cmd : Instr} {k : Nat} {bus : BusWidth} {addr : Word32} {loc : Local}
    (h : s.seq = .busy cmd k (.pollReady bus addr) [] loc) : s.polling cmd k bus addr loc = s := by
  rw [State.polling, ← h]

/-- The event of one read at an aligned address. -/
def readEvent (bus : BusWidth) (addr : Word32) (s : State) : Event := .memRead addr bus.bits (s.answer bus.bits)

theorem afterPoll_ready (p : Params) (cmd : Instr) (k : Nat) {bus : BusWidth} (addr : Word32) {loc : Local} {s : State}
    (hfin : loc.fin = .erase bus ∨ loc.fin = .exact bus) (isReady : ready p.statusMasks bus (s.pollStatus bus) = true) :
    afterPoll p cmd k bus addr loc s
      = (s.ran 1 [readEvent bus addr s]).finish ((loc.polled p bus (s.pollStatus bus)).result p) := by
  rw [afterPoll, if_pos isReady, State.completed_eq, Local.result_polled p hfin, if_pos isReady]
  rfl

theorem afterPoll_limit (p : Params) (cmd : Instr) (k : Nat) {bus : BusWidth} (addr : Word32) {loc : Local} {s : State}
    (notReady : ready p.statusMasks bus (s.pollStatus bus) = false) (limit : p.pollLimit = some (loc.polls + 1)) :
    afterPoll p cmd k bus addr loc s = (s.ran 1 [readEvent bus addr s]).finish (Result.flash .timeout) := by
  rw [afterPoll, if_neg (by simp [notReady]), if_pos limit, State.completed_eq]
  rfl

theorem afterPoll_again (p : Params) (cmd : Instr) (k : Nat) {bus : BusWidth} (addr : Word32) {loc : Local} {s : State}
    (notReady : ready p.statusMasks bus (s.pollStatus bus) = false) (limit : p.pollLimit ≠ some (loc.polls + 1)) :
    afterPoll p cmd k bus addr loc s
      = (s.ran 1 [readEvent bus addr s]).polling cmd k bus addr (loc.polled p bus (s.pollStatus bus)) := by
  rw [afterPoll, if_neg (by simp [notReady]), if_neg limit, State.ran_eq, Local.polled, notReady]
  rfl

/-- One read of the ready poll at an aligned address (R251, R252). -/
theorem execWith_poll (p : Params) {cmd : Instr} {k : Nat} {bus : BusWidth} {addr : Word32} {loc : Local} {s : State}
    (hs : s.seq = .busy cmd k (.pollReady bus addr) [] loc) (onBus : aligned bus addr = true)
    (hfin : loc.fin = .erase bus ∨ loc.fin = .exact bus) :
    execWith p cmd s = afterPoll p cmd k bus addr loc s := by
  have read : perform p (.pollReady bus addr) s loc
      = (s.ran 1 [readEvent bus addr s], loc.polled p bus (s.pollStatus bus),
          if pollAgain p (loc.polled p bus (s.pollStatus bus)) then .again else .onward) := by
    simp only [perform, s.memRead_aligned p bus addr onBus, State.drawn_emit_eq_ran]
    rfl
  rw [execWith_busy p s hs, advance, read, pollAgain_polled]
  cases isReady : ready p.statusMasks bus (s.pollStatus bus) with
  | true => exact (afterPoll_ready p cmd k addr hfin isReady).symm
  | false =>
    by_cases limit : p.pollLimit = some (loc.polls + 1)
    · have timeout : (loc.polled p bus (s.pollStatus bus)).result p = Result.flash .timeout := by
        rw [Local.result_polled p hfin, if_neg (by simp [isReady])]
      rw [afterPoll_limit p cmd k addr isReady limit, ← timeout, limit, decide_eq_false (not_not_intro rfl)]
      rfl
    · rw [afterPoll_again p cmd k addr isReady limit]
      simp [limit, State.polling]

/-- A command that writes three words at an aligned address and then polls: its first four steps. -/
theorem execTimesWith_writesThenPoll (p : Params) {cmd : Instr} {bus : BusWidth} {addr v₁ v₂ v₃ : Word32} {fin : Finish}
    {s : State} (hidle : s.seq = .idle) (onBus : aligned bus addr = true) (hfin : fin = .erase bus ∨ fin = .exact bus)
    (hb : bodyOf cmd p s = ⟨s, [.prim (.memWrite bus addr v₁), .prim (.memWrite bus addr v₂),
      .prim (.memWrite bus addr v₃), .prim (.pollReady bus addr)], fin⟩) :
    let w := fun v : Word32 => Event.memWrite addr bus.bits (v.setWidth bus.bits)
    let s₃ := { s with trace := s.trace ++ [w v₁, w v₂, w v₃]
                       seq := .busy cmd 3 (.pollReady bus addr) [] (Local.start fin) }
    execTimesWith p 3 cmd s = s₃
      ∧ execTimesWith p 4 cmd s = afterPoll p cmd 3 bus addr (Local.start fin) s₃ := by
  intro w s₃
  have three : execTimesWith p 3 cmd s = s₃ := by
    have run := execTimesWith_start p cmd s hidle (.memWrite bus addr v₁) [.memWrite bus addr v₂, .memWrite bus addr v₃]
      [.prim (.pollReady bus addr)] s (Local.start fin) (by rw [hb]; rfl) (by simp [Prim.plain, onBus])
    have wrote : runPrims p [.memWrite bus addr v₁, .memWrite bus addr v₂, .memWrite bus addr v₃] (s, Local.start fin)
        = (s.ran 0 [w v₁, w v₂, w v₃], Local.start fin) := by
      simp [runPrims, w]
    rw [wrote] at run
    refine run.trans ?_
    rw [State.ran_eq]
    rfl
  refine ⟨three, ?_⟩
  rw [show 4 = 3 + 1 from rfl, execTimesWith_add, three]
  exact execWith_poll p (loc := Local.start fin) (s := s₃) rfl onBus hfin

/-- Settles O50: three writes and a poll. -/
theorem eraseBlockRuns : Obligations.EraseBlockRuns := by
  unfold Obligations.EraseBlockRuns
  intro s addr bus hidle driver onBus w cs loc s3
  obtain ⟨three, four⟩ := execTimesWith_writesThenPoll Config.params (cmd := .flashEraseBlock addr) hidle onBus (.inl rfl)
    (withDriver_bus driver _)
  rw [execTimes_eq, execTimes_eq]
  exact ⟨congrArg _ three, congrArg _ four⟩

/-- Settles O51: three writes and a poll, twice. -/
theorem unlockAndProgramRun : Obligations.UnlockAndProgramRun := by
  unfold Obligations.UnlockAndProgramRun
  intro s addr data bus hidle driver onBus w cs loc s3 unlock program us ps
  obtain ⟨unlocks, unlockPolls⟩ := execTimesWith_writesThenPoll Config.params (cmd := unlock) hidle onBus (.inr rfl)
    (withDriver_bus driver _)
  obtain ⟨programs, programPolls⟩ := execTimesWith_writesThenPoll Config.params (cmd := program) hidle onBus (.inr rfl)
    (withDriver_bus driver _)
  simp only [execTimes_eq]
  exact ⟨congrArg _ unlocks, congrArg _ unlockPolls, congrArg _ programs, congrArg _ programPolls⟩

/-! ### Polls that go on -/

theorem pollStatuses_succ (bus : BusWidth) (n : Nat) (s : State) :
    pollStatuses bus (n + 1) s = pollStatuses bus n s ++ [(s.drawnBy n).pollStatus bus] := by
  induction n generalizing s with
  | zero => rfl
  | succ n ih => rw [pollStatuses, ih s.drawn, pollStatuses, List.cons_append, State.drawnBy]

theorem readEvents_succ (bus : BusWidth) (addr : Word32) (n : Nat) (s : State) :
    readEvents bus addr (n + 1) s = readEvents bus addr n s ++ [readEvent bus addr (s.drawnBy n)] := by
  induction n generalizing s with
  | zero => rfl
  | succ n ih => rw [readEvents, ih s.drawn, readEvents, List.cons_append, State.drawnBy]

/-- The first `n` reads, as one update. -/
def State.polledBy (s : State) (bus : BusWidth) (addr : Word32) (n : Nat) : State := s.ran n (readEvents bus addr n s)

theorem State.polledBy_pollStatus (s : State) (cmd : Instr) (k : Nat) (bus : BusWidth) (addr : Word32) (loc : Local)
    (n : Nat) : ((s.polledBy bus addr n).polling cmd k bus addr loc).pollStatus bus = (s.drawnBy n).pollStatus bus :=
  congrArg (maskedStatus bus) (s.ran_answer n (readEvents bus addr n s) bus.bits)

theorem State.polledBy_succ (s : State) (cmd : Instr) (k : Nat) (bus : BusWidth) (addr : Word32) (loc : Local) (n : Nat) :
    ((s.polledBy bus addr n).polling cmd k bus addr loc).ran 1
        [readEvent bus addr ((s.polledBy bus addr n).polling cmd k bus addr loc)]
      = (s.polledBy bus addr (n + 1)).polling cmd k bus addr loc := by
  simp only [State.polledBy, State.polling_ran, State.ran_ran, readEvents_succ, readEvent, State.polling_answer,
    State.ran_answer]

/-- The read after the first `n`. -/
theorem execTimesWith_poll_succ (p : Params) {cmd : Instr} {k n : Nat} {bus : BusWidth} {addr : Word32} {s : State}
    {loc : Local} (ran : execTimesWith p n cmd s = (s.polledBy bus addr n).polling cmd k bus addr loc)
    (onBus : aligned bus addr = true) (hfin : loc.fin = .erase bus ∨ loc.fin = .exact bus) :
    execTimesWith p (n + 1) cmd s
      = afterPoll p cmd k bus addr loc ((s.polledBy bus addr n).polling cmd k bus addr loc) := by
  rw [execTimesWith_add, ran, execTimesWith_succ, execTimesWith_zero, execWith_poll p rfl onBus hfin]

/-- While the statuses are not ready and the limit is not reached, the poll stays. -/
theorem execTimesWith_poll (p : Params) {cmd : Instr} {k : Nat} {bus : BusWidth} {addr : Word32}
    (onBus : aligned bus addr = true) {s : State} {loc : Local}
    (hs : s.seq = .busy cmd k (.pollReady bus addr) [] loc) (hfin : loc.fin = .erase bus ∨ loc.fin = .exact bus) (n : Nat)
    (notReady : ∀ sr ∈ pollStatuses bus n s, ready p.statusMasks bus sr = false)
    (limit : ∀ m, p.pollLimit = some m → loc.polls + n < m) :
    ∃ loc', execTimesWith p n cmd s = (s.polledBy bus addr n).polling cmd k bus addr loc'
      ∧ loc'.polls = loc.polls + n ∧ loc'.fin = loc.fin := by
  induction n with
  | zero =>
    refine ⟨loc, ?_, rfl, rfl⟩
    rw [State.polledBy, readEvents, State.ran_zero, State.polling_self hs, execTimesWith_zero]
  | succ n ih =>
    rw [pollStatuses_succ, List.forall_mem_append, List.forall_mem_singleton] at notReady
    obtain ⟨before, last⟩ := notReady
    obtain ⟨loc', ran, polls, fin⟩ := ih before fun m hm => Nat.lt_of_succ_lt (limit m hm)
    have here : p.pollLimit ≠ some (loc'.polls + 1) := by
      intro reached
      have := limit _ reached
      omega
    refine ⟨loc'.polled p bus ((s.drawnBy n).pollStatus bus), ?_, by simp only [Local.polled]; omega, fin⟩
    rw [execTimesWith_poll_succ p ran onBus (by rwa [fin]), afterPoll_again p cmd k addr _ here, State.polledBy_succ,
      State.polledBy_pollStatus, State.polling_polling]
    rwa [State.polledBy_pollStatus]

/-- Settles O52: the reads that are not ready, and then the last one. -/
theorem readyPollLoops : Obligations.ReadyPollLoops := by
  unfold Obligations.ReadyPollLoops
  intro p n s cmd k bus addr loc hs onBus start hfin notReady
  refine ⟨fun limit => ?_, fun limit => ?_⟩
  · obtain ⟨loc', ran, polls, fin⟩ := execTimesWith_poll p onBus hs hfin n notReady (by rwa [start, Nat.zero_add])
    have polls : loc'.polls = n := by rw [polls, start, Nat.zero_add]
    refine ⟨loc', ?_, by rw [ran]; rfl, polls, fun isReady => ?_⟩
    · rw [ran, State.polledBy, State.ran_eq, ← State.drawnBy_seq s n]
      rfl
    · rw [execTimesWith_poll_succ p ran onBus (by rwa [fin]), afterPoll_ready p cmd k addr (by rwa [fin])
        (by rwa [State.polledBy_pollStatus]), State.polledBy_succ, State.polledBy_pollStatus, State.polling_finish,
        Local.result_polled p (by rwa [fin]), if_pos isReady, fin, State.completed_eq]
      obtain erase | exact := hfin
      · rw [erase, if_pos rfl]
        rfl
      · simp [exact, State.polledBy, Machine.exact]
  · obtain ⟨m, rfl⟩ := Nat.exists_eq_succ_of_ne_zero (Params.pollLimit_pos p limit).ne'
    rw [pollStatuses_succ, List.forall_mem_append, List.forall_mem_singleton] at notReady
    obtain ⟨before, last⟩ := notReady
    obtain ⟨loc', ran, polls, fin⟩ := execTimesWith_poll p onBus hs hfin m before fun l hl => by
      rw [limit] at hl
      cases hl
      omega
    rw [execTimesWith_poll_succ p ran onBus (by rwa [fin]), afterPoll_limit p cmd k addr _ _, State.polledBy_succ,
      State.polling_finish, State.completed_eq]
    · rfl
    · rwa [State.polledBy_pollStatus]
    · rw [limit, polls, start, Nat.zero_add]

end Sys2Proof.Machine

/-! # Misaligned bus accesses (O55)

What the platform makes of an access decides the step: it waits, or it goes on behind the access. -/

namespace Sys2Proof.Machine

section
variable (p : Params) (cmd : Instr) (k : Nat) (rest : List MicroOp) (loc : Local) {s : State} {bus : BusWidth}
  {addr : Word32}

theorem advance_memWrite_never {v : Word32}
    (h : s.busOutcome p bus addr (.write (v.setWidth bus.bits)) = .never) :
    advance p cmd k (.memWrite bus addr v) rest loc s
      = s.waiting cmd k rest loc (.memWrite addr bus.bits (v.setWidth bus.bits)) := by
  simp only [advance, perform, h]
  rfl

theorem advance_memWrite_completes {v : Word32} {x : BitVec bus.bits}
    (h : s.busOutcome p bus addr (.write (v.setWidth bus.bits)) = .completes x) :
    advance p cmd k (.memWrite bus addr v) rest loc s
      = pause p cmd (k + 1)
          (settle p { s with trace := s.trace ++ [.memWrite addr bus.bits (v.setWidth bus.bits)] } loc rest) := by
  simp only [advance, perform, h]
  rfl

theorem State.memRead_never (h : s.busOutcome p bus addr (.read (s.answer bus.bits)) = .never) :
    s.memRead p bus addr = ({ s with trace := s.trace ++ [.memReadOpen addr bus.bits] }, none) := by
  simp only [State.memRead, h]
  rfl

theorem State.memRead_completes {x : BitVec bus.bits}
    (h : s.busOutcome p bus addr (.read (s.answer bus.bits)) = .completes x) :
    s.memRead p bus addr = ({ s.drawn with trace := s.trace ++ [.memRead addr bus.bits x] }, some x) := by
  simp only [State.memRead, h]
  rfl

theorem advance_read_never {q : Prim} (hq : q = .memRead bus addr ∨ q = .pollReady bus addr)
    (h : s.busOutcome p bus addr (.read (s.answer bus.bits)) = .never) :
    advance p cmd k q rest loc s = s.waiting cmd k rest loc (.memReadOpen addr bus.bits) := by
  obtain rfl | rfl := hq
  all_goals
    simp only [advance, perform, State.memRead_never p h]
    rfl

theorem advance_memRead_completes {x : BitVec bus.bits}
    (h : s.busOutcome p bus addr (.read (s.answer bus.bits)) = .completes x) :
    advance p cmd k (.memRead bus addr) rest loc s
      = pause p cmd (k + 1) (settle p { s.drawn with trace := s.trace ++ [.memRead addr bus.bits x] }
          { loc with caps := loc.caps ++ [x.setWidth 40] } rest) := by
  simp only [advance, perform, State.memRead_completes p h]
  rfl

theorem advance_poll_completes {x : BitVec bus.bits}
    (h : s.busOutcome p bus addr (.read (s.answer bus.bits)) = .completes x) :
    let t := { s.drawn with trace := s.trace ++ [.memRead addr bus.bits x] }
    let loc' := loc.polled p bus (maskedStatus bus x)
    advance p cmd k (.pollReady bus addr) rest loc s
      = if pollAgain p loc' then { t with seq := .busy cmd k (.pollReady bus addr) rest loc' }
        else pause p cmd (k + 1) (settle p t loc' rest) := by
  intro t loc'
  have read : perform p (.pollReady bus addr) s loc = (t, loc', if pollAgain p loc' then .again else .onward) := by
    simp only [perform, State.memRead_completes p h]
    rfl
  simp only [advance, read]
  by_cases again : pollAgain p loc' = true
  · rw [if_pos again, if_pos again]
  · rw [if_neg again, if_neg again]

/-- A step of the wait changes nothing. -/
theorem advance_busWait (hs : s.seq = .busy cmd k .busWait rest loc) : advance p cmd k .busWait rest loc s = s := by
  simp only [advance, perform]
  rw [← hs]

end

/-- Leaving a settled body adds nothing to the trace. -/
theorem pause_settle_trace (p : Params) (cmd : Instr) (k : Nat) (s : State) (loc : Local) (ops : List MicroOp) :
    (pause p cmd k (settle p s loc ops)).trace = s.trace := by
  obtain ⟨id, -, ⟨loc', h⟩ | ⟨kind, h⟩ | ⟨loc', q, rest, h⟩⟩ := settle_within p ops s loc <;> rw [h] <;> rfl

/-- The flash commands of R250 to R256 other than FLASH_READ_ARRAY start with Clear-Status and then a primitive. -/
theorem bodyOf_clearStatus (p : Params) {s : State} {bus : BusWidth} (driver : s.driver.bus? = some bus)
    (addr data : Word32) {i : Instr}
    (hi : i ∈ [Instr.flashPrintInfo addr, .flashEraseBlock addr, .flashUnlockBlock addr, .flashProgram addr data]) :
    ∃ q rest fin, bodyOf i p s = ⟨s, .prim (codeWrite bus addr p.flashCodes.clearStatus) :: .prim q :: rest, fin⟩ := by
  simp only [List.mem_cons, List.not_mem_nil, or_false] at hi
  obtain rfl | rfl | rfl | rfl := hi <;> exact ⟨_, _, _, withDriver_bus driver _⟩

/-- Settles O55: at a misaligned address the outcome is BUS_MISALIGNED's. -/
theorem misalignedAccessIsThePlatforms : Obligations.MisalignedAccessIsThePlatforms := by
  unfold Obligations.MisalignedAccessIsThePlatforms
  refine ⟨exec_eq, fun p s addr bus off => ?_⟩
  intro made w write drawn
  have outcome : ∀ access, s.busOutcome p bus addr access = made access := fun access =>
    s.busOutcome_misaligned p bus addr access off
  refine ⟨fun cmd k q rest loc hs => ?_, fun hidle driver => ?_⟩
  · rw [execWith_busy p s hs]
    refine ⟨?_, ?_, ?_, ?_, ?_⟩
    · rintro v rfl
      exact ⟨fun h => advance_memWrite_never p cmd k rest loc ((outcome _).trans h),
        fun x h => advance_memWrite_completes p cmd k rest loc ((outcome _).trans h)⟩
    · exact fun hq h => advance_read_never p cmd k rest loc hq ((outcome _).trans h)
    · rintro rfl x h
      exact advance_memRead_completes p cmd k rest loc ((outcome _).trans h)
    · rintro rfl x h
      rw [advance_poll_completes p cmd k rest loc ((outcome _).trans h)]
      refine ⟨?_, fun notReady unbounded => ?_, fun isReady => ?_⟩
      · split
        · rfl
        · rw [pause_settle_trace]
      · have again : pollAgain p (loc.polled p bus (maskedStatus bus x)) = true := by
          rw [pollAgain_polled, notReady, unbounded]
          rfl
        rw [if_pos again]
        exact ⟨_, rfl⟩
      · have onward : pollAgain p (loc.polled p bus (maskedStatus bus x)) = false := by
          rw [pollAgain_polled, isReady]
          rfl
        refine ⟨loc.polled p bus (maskedStatus bus x), rfl, rfl, by simp [Local.polled, isReady], ?_⟩
        rw [if_neg (by simp [onward])]
    · rintro rfl
      exact advance_busWait p cmd k rest loc hs
  · refine ⟨?_, ?_⟩
    · rintro v rfl
      have body : bodyOf (.flashReadArray addr) p s
          = ⟨s, [.prim (codeWrite bus addr p.flashCodes.readArray)], .done⟩ := withDriver_bus driver _
      rw [execWith_idle p _ s hidle, body, State.completed_eq, State.ran_eq]
      exact ⟨fun h => advance_memWrite_never p _ 0 _ _ ((outcome _).trans h),
        fun x h => advance_memWrite_completes p _ 0 _ _ ((outcome _).trans h)⟩
    · rintro data v rfl i hi
      obtain ⟨q, rest, fin, body⟩ := bodyOf_clearStatus p driver addr data hi
      rw [execWith_idle p _ s hidle, body]
      exact ⟨fun h => ⟨_, _, advance_memWrite_never p _ 0 _ _ ((outcome _).trans h)⟩,
        fun x h => ⟨_, _, _, advance_memWrite_completes p _ 0 _ _ ((outcome _).trans h)⟩⟩

end Sys2Proof.Machine

/-! # The DSU sweep (O59) -/

namespace Sys2Proof.Machine

/-- The primitives of one length of the sweep (R293). -/
def lengthPrims (p : Params) (cmd : Word40) (len : Nat) : List Prim :=
  [.dsuIR ⟨len, p.dsuIrPattern len⟩, .drWrite ⟨40, cmd⟩, .drWrite ⟨40, reverse40 cmd⟩, .drRead 40, .delay 1000,
    .drRead 40, .delay 1000, .drRead 40, .delay 1000, .drRead 40, .delay 1000, .drRead 40]

/-- The primitives of the lengths 1 to `n`. -/
def sweepPrims (p : Params) (cmd : Word40) (n : Nat) : List Prim :=
  (List.range n).flatMap fun l => lengthPrims p cmd (l + 1)

/-- The five words read at one length, its draws starting at `s`. -/
def lengthCaps (s : State) : List Word40 := (List.range 5).map fun q => (State.drawnBy (3 + q) s).answer 40

theorem dsuLength_eq (p : Params) (cmd : Word40) (len : Nat) : dsuLength p cmd len = (lengthPrims p cmd len).map .prim :=
  rfl

theorem bodyOf_dsuPeek (reg : Word32) (p : Params) (s : State) :
    bodyOf (.dsuPeek reg) p s = ⟨s.dsuInit, (sweepPrims p (dsuCommand reg.toNat) 40).map .prim, .words⟩ := by
  simp only [bodyOf, bodyDsuPeek, dsuLength_eq, sweepPrims, List.map_flatMap]

theorem length_sweepPrims (p : Params) (cmd : Word40) (n : Nat) : (sweepPrims p cmd n).length = 12 * n := by
  simp [sweepPrims, lengthPrims, List.length_flatMap, Nat.mul_comm]

theorem sweepPrims_plain (p : Params) (cmd : Word40) (n : Nat) : ∀ q ∈ sweepPrims p cmd n, q.plain = true := by
  intro q hq
  obtain ⟨l, -, hq⟩ := List.mem_flatMap.mp hq
  have length : ∀ q ∈ lengthPrims p cmd (l + 1), q.plain = true := by simp [lengthPrims, Prim.plain]
  exact length q hq

/-- The events of a length depend on the book of draws alone. -/
theorem sweepEvents_congr {s t : State} (ha : t.answers = s.answers) (hd : t.draws = s.draws) (p : Params)
    (cmd : Word40) (len : Nat) : sweepEvents p t cmd len = sweepEvents p s cmd len := by
  simp only [sweepEvents, answer_congr ha hd, drawnBy_answer_congr ha hd]

theorem lengthCaps_congr {s t : State} (ha : t.answers = s.answers) (hd : t.draws = s.draws) :
    lengthCaps t = lengthCaps s := by
  simp only [lengthCaps, drawnBy_answer_congr ha hd]

/-- The run of the twelve primitives of one length. -/
theorem runPrims_length (p : Params) (cmd : Word40) (len : Nat) (s : State) (loc : Local) :
    runPrims p (lengthPrims p cmd len) (s, loc)
      = ((s.ran 8 (sweepEvents p s cmd len)).setDsuPair ((p.dsuIrPattern len).setWidth 40)
            ((s.answer len).setWidth 40), { loc with caps := loc.caps ++ lengthCaps s }) := by
  simp [runPrims, lengthPrims, sweepEvents, lengthCaps, List.range_succ]

/-- The events and the words of the lengths 1 to `n`: each length takes eight draws. -/
def peekEvents (p : Params) (cmd : Word40) (s : State) (n : Nat) : List Event :=
  (List.range n).flatMap fun l => sweepEvents p (State.drawnBy (8 * l) s) cmd (l + 1)

def peekCaps (s : State) (n : Nat) : List Word40 := (List.range n).flatMap fun l => lengthCaps (State.drawnBy (8 * l) s)

theorem peekCaps_eq (s : State) (n : Nat) : peekCaps s n
    = (List.range n).flatMap fun l => (List.range 5).map fun q => (State.drawnBy (8 * l + 3 + q) s).answer 40 := by
  simp only [peekCaps, lengthCaps, Nat.add_assoc, State.drawnBy_add]

/-- One length more, after the first `n`, whatever the pair holds then. -/
theorem runPrims_nextLength (p : Params) (cmd : Word40) (n : Nat) (s : State) (loc : Local) (v c : Word40) :
    runPrims p (lengthPrims p cmd (n + 1))
        ((s.ran (8 * n) (peekEvents p cmd s n)).setDsuPair v c, { loc with caps := loc.caps ++ peekCaps s n })
      = ((s.ran (8 * (n + 1)) (peekEvents p cmd s (n + 1))).setDsuPair ((p.dsuIrPattern (n + 1)).setWidth 40)
            (((State.drawnBy (8 * n) s).answer (n + 1)).setWidth 40),
          { loc with caps := loc.caps ++ peekCaps s (n + 1) }) := by
  let t := (s.ran (8 * n) (peekEvents p cmd s n)).setDsuPair v c
  have answers : t.answers = (State.drawnBy (8 * n) s).answers := by rw [State.drawnBy_eq]; rfl
  have draws : t.draws = (State.drawnBy (8 * n) s).draws := by rw [State.drawnBy_eq]; rfl
  have events : peekEvents p cmd s (n + 1) = peekEvents p cmd s n ++ sweepEvents p t cmd (n + 1) := by
    rw [sweepEvents_congr answers draws]
    simp [peekEvents, List.range_succ]
  have caps : peekCaps s (n + 1) = peekCaps s n ++ lengthCaps t := by
    rw [lengthCaps_congr answers draws]
    simp [peekCaps, List.range_succ]
  rw [runPrims_length, events, caps, ← List.append_assoc, Nat.mul_succ, ← State.ran_ran, answer_congr answers draws]
  rfl

theorem sweepPrims_succ (p : Params) (cmd : Word40) (n : Nat) :
    sweepPrims p cmd (n + 1) = sweepPrims p cmd n ++ lengthPrims p cmd (n + 1) := by
  simp [sweepPrims, List.range_succ]

/-- The run of the lengths 1 to `n`. -/
theorem runPrims_sweep (p : Params) (cmd : Word40) (n : Nat) (s : State) (loc : Local) :
    ∃ v c, runPrims p (sweepPrims p cmd n) (s, loc)
      = ((s.ran (8 * n) (peekEvents p cmd s n)).setDsuPair v c, { loc with caps := loc.caps ++ peekCaps s n }) := by
  induction n with
  | zero => exact ⟨s.dsuwir, s.dsurir, by simp [sweepPrims, peekEvents, peekCaps, runPrims, State.setDsuPair]⟩
  | succ n ih =>
    obtain ⟨v, c, ran⟩ := ih
    exact ⟨_, _, by rw [sweepPrims_succ, runPrims_append, ran, runPrims_nextLength]⟩

/-- The last length leaves the pair. -/
theorem runPrims_sweep_last (p : Params) (cmd : Word40) {n m : Nat} (h : m = n + 1) (s : State) (loc : Local) :
    runPrims p (sweepPrims p cmd m) (s, loc)
      = ((s.ran (8 * m) (peekEvents p cmd s m)).setDsuPair ((p.dsuIrPattern m).setWidth 40)
            (((State.drawnBy (8 * n) s).answer m).setWidth 40), { loc with caps := loc.caps ++ peekCaps s m }) := by
  subst h
  obtain ⟨v, c, ran⟩ := runPrims_sweep p cmd n s loc
  rw [sweepPrims_succ, runPrims_append, ran, runPrims_nextLength]

/-- Lazy init takes no draw. -/
theorem State.drawnBy_dsuInit (s : State) (n : Nat) :
    (State.drawnBy n s.dsuInit).answers = (State.drawnBy n s).answers
      ∧ (State.drawnBy n s.dsuInit).draws = (State.drawnBy n s).draws := by
  simp only [State.drawnBy_eq, State.dsuInit_answers, State.dsuInit_draws, and_self]

theorem State.dsuPeek_finish (s : State) (n : Nat) (es : List Event) (v c : Word40) (r : Result) :
    ((s.dsuInit.ran n es).setDsuPair v c).finish r
      = { (s.ran n es).finish r with dsuAlloc := true, dsuwir := v, dsurir := c } := by
  rw [State.dsuInit_eq]
  rfl

/-- Settles O59: the pair is the one of the last length. -/
theorem dsuPeekRuns : Obligations.DsuPeekRuns := by
  unfold Obligations.DsuPeekRuns
  intro s reg hidle
  let p := Config.params
  let cmd := dsuCommand reg.toNat
  have events : peekEvents p cmd s.dsuInit 40 = peekEvents p cmd s 40 := by
    simp only [peekEvents, sweepEvents_congr (s.drawnBy_dsuInit _).1 (s.drawnBy_dsuInit _).2]
  have caps : peekCaps s.dsuInit 40 = peekCaps s 40 := by
    simp only [peekCaps, lengthCaps_congr (s.drawnBy_dsuInit _).1 (s.drawnBy_dsuInit _).2]
  have last : (State.drawnBy (8 * 39) s.dsuInit).answer 40 = (State.drawnBy 312 s).answer 40 :=
    answer_congr (s.drawnBy_dsuInit 312).1 (s.drawnBy_dsuInit 312).2 40
  have run : runPrims p (sweepPrims p cmd 40) (s.dsuInit, Local.start .words)
      = ((s.dsuInit.ran 320 (peekEvents p cmd s 40)).setDsuPair (p.dsuIrPattern 40) ((State.drawnBy 312 s).answer 40),
          { Local.start .words with caps := peekCaps s 40 }) := by
    rw [runPrims_sweep_last p cmd (n := 39) rfl, events, caps, last, BitVec.setWidth_eq, BitVec.setWidth_eq,
      show (Local.start .words).caps = [] from rfl, List.nil_append]
  have count := length_sweepPrims p cmd 40
  have plain := sweepPrims_plain p cmd 40
  have body := bodyOf_dsuPeek reg p s
  obtain ⟨q, qs, prims⟩ := List.exists_cons_of_length_pos (l := sweepPrims p cmd 40) (by omega)
  rw [prims] at run count plain
  have whole := execTimesWith_body p hidle (body.trans (by rw [prims])) plain run
  rw [show qs.length + 1 = 480 from count, State.dsuPeek_finish] at whole
  rw [execTimes_eq, State.completed_eq]
  exact congrArg _ (whole.trans (by rw [← peekCaps_eq]; rfl))

end Sys2Proof.Machine
